-- ==== Sys2Proof/Word.lean ====
section
/-! DEFINITION. The words of RFT-FC: bytes and 12-bit register-space addresses (00_scope.md R8, 20_memory.md R70). -/

namespace Sys2Proof

/-- An unsigned 8-bit value (00 R8). Nothing in RFT-FC is signed. -/
abbrev Byte := BitVec 8

/-- A byte address of the host register space, 0x000 to 0xFFF (20 R70). -/
abbrev Addr := BitVec 12

/-- The 9-bit counts RX_COUNT and TXLEN (10 R36, R38). -/
abbrev Count := BitVec 9

end Sys2Proof
end

