-- ==== Sys2Proof/Config.lean ====
section
/-! DEFINITION. The parameters of 00_scope.md R6: the fixed ones as values, the OPEN ones as constants without a body. -/

namespace Sys2Proof

/-- PREAMBLE, the 3 bytes that open every frame (00 R6). -/
def Config.preamble : List Byte := [0xAA, 0xDD, 0x00]

/-- MAX_PAYLOAD (00 R6). -/
def Config.maxPayload : Nat := 252

/-- READ2_MAX, the bound of the second read (00 R6, 42 R198). -/
def Config.read2Max : Nat := 1000

/-- RXBUF_CAP, the cells of RX_BUF (00 R6, 10 R36). -/
def Config.rxBufCap : Nat := 260

/-- RES_PL has 251 cells (10 R39). -/
def Config.resPlSize : Nat := 251

/-- MAX_FRAME, the cells of TX_FRAME (00 R6, 10 R38). -/
def Config.maxFrame : Nat := 259

/-- READ1_MAX less one. OPEN, any integer >= 1 (00 R6), so this is any natural number: an uninterpreted constant (log 4). -/
opaque Config.read1MaxLessOne : Nat

/-- RXQ_DEPTH less one. OPEN, any integer >= 1 (00 R6): an uninterpreted constant (log 4). -/
opaque Config.rxqDepthLessOne : Nat

/-- SETTLE_DELAY. OPEN, a duration that no rule reads (00 R6, 60 R250): the model has no time (log 14). -/
opaque Config.settleDelay : Nat

/-- BAUD. OPEN, external to RFT-FC (00 R6): no rule reads it (log 14). -/
opaque Config.baud : Nat

/-- BASE_ADDR. OPEN: where the platform places register 0x000. No rule reads it, every rule uses offsets (20 R88, log 14). -/
opaque Config.baseAddr : Nat

/-- READ1_MAX of this instance. -/
def Config.read1Max : Nat := Config.read1MaxLessOne + 1

/-- RXQ_DEPTH of this instance. -/
def Config.rxqDepth : Nat := Config.rxqDepthLessOne + 1

/-- The OPEN parameters that some rule reads, as plain data: they are arguments of the model (00 R6), carried by State (log 4). -/
structure Params where
  /-- READ1_MAX, the size of the first read (42 R197). -/
  read1Max : Nat
  /-- RXQ_DEPTH, the bytes RXQ can hold (20 R82). -/
  rxqDepth : Nat
  deriving DecidableEq, Repr

/-- The parameters of this instance. -/
def Config.params : Params := { read1Max := Config.read1Max, rxqDepth := Config.rxqDepth }

/-- The platform address of the register at an offset (20 R88). -/
def Config.platformAddress (offset : Addr) : Nat := Config.baseAddr + offset.toNat

end Sys2Proof
end

