-- ==== Sys2Proof/Syntax.lean ====
section
/-! DEFINITION. The instructions: one constructor per row of spec/opcode_table.json. The six catalog commands are the opcodes of
30_encoding.md R108; the nine others are the CTRL command words of R113, and each carries the CTRL bits that the hardware ignores
(bits 6:0 beside SRST, bits 6:3 beside an OP), so that every byte is the word of exactly one instruction (log 12). -/

namespace Sys2Proof

inductive Instr where
  /-- GETINFO, opcode 01 02 (41 R172). -/
  | getInfo
  /-- BEEP, opcode 01 03 (41 R173). -/
  | beep
  /-- SETLED, opcode 01 04 (41 R174). -/
  | setLed
  /-- READTOKEN, opcode 01 0C (41 R175). -/
  | readToken
  /-- WRITETOKEN, opcode 02 0C (41 R176). -/
  | writeToken
  /-- WRITETOKENRESERVE, opcode 03 0C (41 R177). -/
  | writeTokenReserve
  /-- SRST, CTRL bit 7 = 1 (42 R220). -/
  | srst (ignored : BitVec 7)
  /-- NOP, CTRL OP = 0 (42 R223). -/
  | nop (ignored : BitVec 4)
  /-- ENCODE, CTRL OP = 1 (40 R130). -/
  | encodeFrame (ignored : BitVec 4)
  /-- DECODE, CTRL OP = 2 (40 R140). -/
  | decodeFrame (ignored : BitVec 4)
  /-- EXECUTE, CTRL OP = 3 (42 R192). -/
  | execute (ignored : BitVec 4)
  /-- OPEN, CTRL OP = 4 (42 R210). -/
  | openSession (ignored : BitVec 4)
  /-- RSVD5, CTRL OP = 5 (42 R224). -/
  | rsvd5 (ignored : BitVec 4)
  /-- RSVD6, CTRL OP = 6 (42 R224). -/
  | rsvd6 (ignored : BitVec 4)
  /-- RSVD7, CTRL OP = 7 (42 R224). -/
  | rsvd7 (ignored : BitVec 4)
  deriving DecidableEq, Repr

end Sys2Proof
end

