-- ==== Sys2Proof/WellFormed.lean ====
section
/-! DEFINITION. Which terms are well formed. -/

namespace Sys2Proof

/-- READ1_MAX and RXQ_DEPTH are integers >= 1 (00_scope.md R6): the legal values of the OPEN parameters. -/
def Params.wellFormed (p : Params) : Bool :=
  decide (1 ≤ p.read1Max) && decide (1 ≤ p.rxqDepth)

/-- Every term of Instr is well formed: its only operands are the ignored CTRL bits, whose width their type carries (10 R22), and the
request payload is no operand of the opcode word (its shape is checked when the command runs, 41 R171). -/
def Instr.wellFormed (i : Instr) : Bool :=
  match i with
  | .getInfo => true
  | .beep => true
  | .setLed => true
  | .readToken => true
  | .writeToken => true
  | .writeTokenReserve => true
  | .srst _ => true
  | .nop _ => true
  | .encodeFrame _ => true
  | .decodeFrame _ => true
  | .execute _ => true
  | .openSession _ => true
  | .rsvd5 _ => true
  | .rsvd6 _ => true
  | .rsvd7 _ => true

/-- A table word of a given width: a CTRL word is one byte, an opcode16 two (30_encoding.md R108, R113). -/
def tableWordWellFormed (nbits w : Nat) : Bool :=
  (decide (nbits = 8) && decide (w < 256)) || (decide (nbits = 16) && decide (w < 65536))

end Sys2Proof
end

