-- ==== Sys2Proof/Decode.lean ====
section
/-! DEFINITION. The decoder of instruction words, total on any bytes, and the encoder after it. A CTRL command word is the one byte that
the HOST writes to CTRL (30_encoding.md R113). A catalog command is the two opcode bytes in wire order, OPC0 then OPC1 (R108, 00 R12). -/

namespace Sys2Proof

/-- Why the decoder rejects some bytes. -/
inductive Reject where
  /-- No byte at all. -/
  | noWord
  /-- Two bytes that are not one of the six catalog opcodes (30 R110). -/
  | unknownOpcode (op0 op1 : Byte)
  /-- More than two bytes: no instruction word is that long. -/
  | tooLong (length : Nat)
  deriving DecidableEq, Repr

/-- The six opcodes of the command catalog (30 R108), as the dispatcher names them. -/
inductive Catalog where
  | getInfo | beep | setLed | readToken | writeToken | writeTokenReserve
  deriving DecidableEq, Repr

/-- First opcode byte on the wire (30 R108). -/
def Catalog.op0 (c : Catalog) : Byte :=
  match c with
  | .getInfo => 0x01
  | .beep => 0x01
  | .setLed => 0x01
  | .readToken => 0x01
  | .writeToken => 0x02
  | .writeTokenReserve => 0x03

/-- Second opcode byte on the wire (30 R108). -/
def Catalog.op1 (c : Catalog) : Byte :=
  match c with
  | .getInfo => 0x02
  | .beep => 0x03
  | .setLed => 0x04
  | .readToken => 0x0C
  | .writeToken => 0x0C
  | .writeTokenReserve => 0x0C

/-- The instruction of a catalog opcode. -/
def Catalog.instr (c : Catalog) : Instr :=
  match c with
  | .getInfo => .getInfo
  | .beep => .beep
  | .setLed => .setLed
  | .readToken => .readToken
  | .writeToken => .writeToken
  | .writeTokenReserve => .writeTokenReserve

/-- opcode16 = OPC0 * 256 + OPC1 (00 R12). -/
def opcode16 (op0 op1 : Byte) : Nat := op0.toNat * 256 + op1.toNat

/-- The catalog entry of an opcode: all 16 bits are matched (30 R109). -/
def catalogOf (op0 op1 : Byte) : Option Catalog :=
  if opcode16 op0 op1 = 0x0102 then some .getInfo
  else if opcode16 op0 op1 = 0x0103 then some .beep
  else if opcode16 op0 op1 = 0x0104 then some .setLed
  else if opcode16 op0 op1 = 0x010C then some .readToken
  else if opcode16 op0 op1 = 0x020C then some .writeToken
  else if opcode16 op0 op1 = 0x030C then some .writeTokenReserve
  else none

/-- CTRL bits 6:3, ignored on write (10 R22). -/
def ctrlIgnored (v : Byte) : BitVec 4 := v.extractLsb' 3 4

/-- A byte written to CTRL, by the rows of 30 R113 in their order: SRST first, then OP = bits 2:0. -/
def decodeCtrl (v : Byte) : Instr :=
  if v &&& 0x80 = 0x80 then .srst (v.extractLsb' 0 7)
  else if v &&& 0x87 = 0x00 then .nop (ctrlIgnored v)
  else if v &&& 0x87 = 0x01 then .encodeFrame (ctrlIgnored v)
  else if v &&& 0x87 = 0x02 then .decodeFrame (ctrlIgnored v)
  else if v &&& 0x87 = 0x03 then .execute (ctrlIgnored v)
  else if v &&& 0x87 = 0x04 then .openSession (ctrlIgnored v)
  else if v &&& 0x87 = 0x05 then .rsvd5 (ctrlIgnored v)
  else if v &&& 0x87 = 0x06 then .rsvd6 (ctrlIgnored v)
  else .rsvd7 (ctrlIgnored v)

/-- The instruction of some bytes, or why there is none. -/
def decode (bytes : List Byte) : Except Reject Instr :=
  match bytes with
  | [] => .error .noWord
  | [v] => .ok (decodeCtrl v)
  | [op0, op1] =>
    match catalogOf op0 op1 with
    | some c => .ok c.instr
    | none => .error (.unknownOpcode op0 op1)
  | _ :: _ :: _ :: rest => .error (.tooLong (rest.length + 3))

/-- A CTRL word with bit 7 = 0: ignored bits 6:3 and OP in bits 2:0 (10 R22). -/
def ctrlWord (ignored : BitVec 4) (op : BitVec 3) : Byte :=
  (0#1 ++ ignored ++ op : BitVec 8)

/-- The words of an instruction, written from the tables of 30 R108 and R113. -/
def encode (i : Instr) : List Byte :=
  match i with
  | .getInfo => [0x01, 0x02]
  | .beep => [0x01, 0x03]
  | .setLed => [0x01, 0x04]
  | .readToken => [0x01, 0x0C]
  | .writeToken => [0x02, 0x0C]
  | .writeTokenReserve => [0x03, 0x0C]
  | .srst ignored => [(1#1 ++ ignored : BitVec 8)]
  | .nop ignored => [ctrlWord ignored 0]
  | .encodeFrame ignored => [ctrlWord ignored 1]
  | .decodeFrame ignored => [ctrlWord ignored 2]
  | .execute ignored => [ctrlWord ignored 3]
  | .openSession ignored => [ctrlWord ignored 4]
  | .rsvd5 ignored => [ctrlWord ignored 5]
  | .rsvd6 ignored => [ctrlWord ignored 6]
  | .rsvd7 ignored => [ctrlWord ignored 7]

/-- The bytes of a table word as the hardware holds them: a CTRL word is one byte, an opcode16 is OPC0 (bits 15:8) then OPC1 (bits 7:0),
the order in which they travel on the wire (00 R12, log 7). -/
def tableBytes (nbits w : Nat) : List Byte :=
  if nbits ≤ 8 then [BitVec.ofNat 8 w] else [BitVec.ofNat 8 (w / 256), BitVec.ofNat 8 w]

/-- The instruction the decoder reads from a word of spec/opcode_table.json. -/
def decodeTableWord (nbits w : Nat) : Option Instr :=
  match decode (tableBytes nbits w) with
  | .ok i => some i
  | .error _ => none

end Sys2Proof
end

