-- ==== Sys2Proof/Machine/State.lean ====
section
/-! DEFINITION. The state of RFT-FC (10_state.md R20 to R52), the agents' pending events beside it, the reasons a step can stop, and the
state after a cold reset. -/

namespace Sys2Proof.Machine

/-- The sequencer state (10 R42). -/
inductive SeqState where
  /-- No exchange is in progress. -/
  | idle
  /-- Request bytes are being handed to LINK. -/
  | tx
  /-- The first settle delay runs, before the first read. -/
  | wait1
  /-- The second settle delay runs, before the second read. -/
  | wait2
  deriving DecidableEq, Repr

/-- The init phase: which exchange of OPEN is in progress, if any (10 R42). -/
inductive InitPhase where
  | none | getInfo | setLed
  deriving DecidableEq, Repr

/-- The values RES_CODE takes (60 R230). -/
inductive ResCode where
  | ok | timeout | badLength | badFormat | deviceStatus | encodingError | unknownOpcode | badChecksum | badCommand
  /-- NONE (FF): no completion since reset or acceptance (60 R239). -/
  | none
  deriving DecidableEq, Repr

/-- LAT, the latched exchange context (10 R44). -/
structure Latch where
  op0 : Byte
  op1 : Byte
  chkEn : Bool
  chkVal : Byte
  deriving DecidableEq, Repr

/-- One event of one agent, which is one step (00 R4, R5; 30 R115). -/
inductive Event where
  /-- HOST MemWrite(a, 1, v) (20 R70). -/
  | hostWrite (a : Addr) (v : Byte)
  /-- HOST MemRead(a, 1) (20 R70). -/
  | hostRead (a : Addr)
  /-- DEV delivers a byte (20 R82). -/
  | devByte (b : Byte)
  /-- LINK accepts one transmit byte (42 R196). -/
  | linkAccept
  /-- TIMER expires (60 R250). -/
  | timerExpire
  /-- Power-on (70 R260). -/
  | coldReset
  deriving DecidableEq, Repr

/-- The bytes of the four buffers, by register-space address: addresses strictly rise and no listed byte is 00, which is what an unlisted
address reads as (10 R52 resets every buffer byte to 00, log 8). -/
abbrev Memory := List Host.Cell

/-- What an address that is not listed reads as: the reset contents of the buffers (10 R52). -/
def unlistedByte : Byte := 0x00

/-- The canonical form of memory. -/
def Memory.wf (m : Memory) : Bool :=
  decide (m.Pairwise fun p q => p.1 < q.1) && m.all fun c => c.2 != unlistedByte

/-- The whole state. STATUS.BUSY and irq are not fields: BUSY is seq != IDLE (10 R25) and irq is DONE and IRQ_EN (R48). -/
structure State where
  /-- The OPEN parameters, an argument of the model: no step changes them (log 4). -/
  params : Params
  /-- STATUS.DONE (10 R26). -/
  done : Bool
  /-- STATUS.DEV_READY (10 R27). -/
  devReady : Bool
  /-- STATUS.CSUM_OK (10 R28). -/
  csumOk : Bool
  /-- STATUS.NO_CARD (10 R29). -/
  noCard : Bool
  /-- STATUS.CMD_DROPPED (10 R30). -/
  cmdDropped : Bool
  /-- STATUS.RX_OVF (10 R31). -/
  rxOvf : Bool
  /-- CFG bits 3:0: FLUSH, IRQ_EN, VERIFY_CSUM, CHECK_EN (10 R33). -/
  cfg : BitVec 4
  /-- CHECK_VAL (10 R34). -/
  checkVal : Byte
  /-- OPC0 (10 R35). -/
  opc0 : Byte
  /-- OPC1 (10 R35). -/
  opc1 : Byte
  /-- PLEN (10 R35). -/
  plen : Byte
  /-- RES_CODE (10 R39). -/
  resCode : ResCode
  /-- RES_STATUS (10 R39). -/
  resStatus : Byte
  /-- RES_PLEN (10 R39). -/
  resPlen : Byte
  /-- RX_COUNT (10 R36). -/
  rxCount : Count
  /-- TXLEN (10 R38). -/
  txLen : Count
  /-- REQ_PL, TX_FRAME, RX_BUF and RES_PL, by register-space address (20 R76). -/
  mem : Memory
  /-- seq (10 R42). -/
  seq : SeqState
  /-- iphase (10 R42). -/
  iphase : InitPhase
  /-- tx_idx (10 R43). -/
  txIdx : Nat
  /-- LAT (10 R44). -/
  lat : Latch
  /-- RXQ, oldest byte first (10 R46). -/
  rxq : List Byte
  /-- tmr (10 R47). -/
  tmr : Bool
  /-- The agents' pending events, next first: outside the block (log 1). -/
  events : List Event
  /-- The bytes handed to LINK, first byte first: outside the block (20 R80, log 10). -/
  wire : List Byte
  /-- The bytes MemRead returned to the HOST, first read first: outside the block (log 10). -/
  hostReads : List Byte
  deriving DecidableEq, Repr

/-- Why a step stops. RFT-FC itself takes no trap (60 R243): both reasons say that the schedule names a step which no rule enables. -/
inductive Fault where
  /-- Raised by a LINK event while seq is not TX: LINK accepts a byte only then (42 R196). Safe: the block has no such step (log 3). -/
  | linkNotEnabled
  /-- Raised by a TIMER event while the settle timer is not armed in WAIT1 or WAIT2 (60 R250). Safe: the block has no such step (log 3). -/
  | timerNotArmed
  deriving DecidableEq, Repr

/-- Why a step has no meaning. -/
inductive Refusal where
  /-- Raised by exec's arm of an instruction without a meaning. Safe: the model stops. No arm answers it. -/
  | notModelled (mnemonic : String)
  deriving DecidableEq, Repr

/-- The state after a cold reset (10 R52), for given parameters, with the agents' side empty. -/
def State.resetWith (p : Params) : State :=
  { params := p
    done := false, devReady := false, csumOk := false, noCard := false, cmdDropped := false, rxOvf := false
    cfg := 0x1, checkVal := 0x00, opc0 := 0x00, opc1 := 0x00, plen := 0x00
    resCode := .none, resStatus := 0x00, resPlen := 0x00
    rxCount := 0, txLen := 0, mem := []
    seq := .idle, iphase := .none, txIdx := 0
    lat := { op0 := 0x00, op1 := 0x00, chkEn := false, chkVal := 0x00 }
    rxq := [], tmr := false
    events := [], wire := [], hostReads := [] }

/-- The machine right after a cold reset (10 R52). -/
def State.reset : State := State.resetWith Config.params

end Sys2Proof.Machine
end

