-- ==== Sys2Proof/Machine/Operands.lean ====
section
/-! DEFINITION. The pure operand forms: byte sequences (00_scope.md R9, R10), the register map (10_state.md R21, 20_memory.md R76), and
the numbers of the named values. -/

namespace Sys2Proof.Machine

/-- `xorfold(s)`: the exclusive-or of every byte of s, starting from 00 (00 R10). -/
def xorfold (s : List Byte) : Byte := s.foldl (fun x b => x ^^^ b) 0x00

/-- `s[a .. b)`: half-open, empty when b <= a, and only the bytes that exist (00 R9). -/
def slice (s : List Byte) (a b : Nat) : List Byte := (s.take b).drop a

/-- `s[i]`, for an index inside s (00 R9). Every use stands behind a check that i < len(s). -/
def byteAt (s : List Byte) (i : Nat) : Byte := s.getD i 0x00

/-- A buffer of the register space: where it starts and how many cells it has (20 R76). -/
structure Buffer where
  base : Nat
  size : Nat
  deriving DecidableEq, Repr

/-- REQ_PL[0..251] at 0x100 (20 R76). -/
def reqPl : Buffer := { base := 0x100, size := 252 }

/-- TX_FRAME[0..258] at 0x200 (20 R76). -/
def txFrame : Buffer := { base := 0x200, size := 259 }

/-- RX_BUF[0..259] at 0x400 (20 R76). -/
def rxBuf : Buffer := { base := 0x400, size := 260 }

/-- RES_PL[0..250] at 0x600 (20 R76). -/
def resPl : Buffer := { base := 0x600, size := 251 }

/-- The address lies in the buffer. -/
def Buffer.holds (b : Buffer) (a : Nat) : Bool := decide (b.base ≤ a) && decide (a < b.base + b.size)

/-- The address lies in one of the four buffers (20 R76). -/
def isBufferAddr (a : Nat) : Bool := reqPl.holds a || txFrame.holds a || rxBuf.holds a || resPl.holds a

/-- The number RES_CODE holds (60 R230). -/
def ResCode.toByte (c : ResCode) : Byte :=
  match c with
  | .ok => 0x00
  | .timeout => 0x01
  | .badLength => 0x02
  | .badFormat => 0x03
  | .deviceStatus => 0x04
  | .encodingError => 0x05
  | .unknownOpcode => 0x06
  | .badChecksum => 0x07
  | .badCommand => 0x08
  | .none => 0xFF

/-- STATE[1:0] (10 R40). -/
def SeqState.toBits (q : SeqState) : BitVec 2 :=
  match q with
  | .idle => 0
  | .tx => 1
  | .wait1 => 2
  | .wait2 => 3

/-- STATE[3:2] (10 R40). -/
def InitPhase.toBits (p : InitPhase) : BitVec 2 :=
  match p with
  | .none => 0
  | .getInfo => 1
  | .setLed => 2

/-- RX_COUNT after a HOST write: never above 260 (10 R37). -/
def clampCount (n : Count) : Count := if n.toNat > Config.rxBufCap then 260 else n

/-- RX_COUNT with bits 7:0 replaced (10 R37). -/
def withCountLow (n : Count) (v : Byte) : Count := (n.extractLsb' 8 1 ++ v : BitVec 9)

/-- RX_COUNT with bit 8 replaced by bit 0 of v (10 R37). -/
def withCountHigh (n : Count) (v : Byte) : Count := (v.extractLsb' 0 1 ++ n.extractLsb' 0 8 : BitVec 9)

/-- Bits 7:0 of a 9-bit count (10 R37, R38). -/
def countLow (n : Count) : Byte := n.setWidth 8

/-- Bit 8 of a 9-bit count, zero-extended to a byte (10 R37, R38). -/
def countHigh (n : Count) : Byte := (n.extractLsb' 8 1).setWidth 8

/-- The RXQ level that RXQLVL shows: min(len(RXQ), 65535) (10 R41). -/
def rxqLevel (q : List Byte) : Nat := min q.length 65535

/-- CsumGen: the request checksum over opcode and payload (40 R132). -/
def csumGen (op0 op1 : Byte) (pl : List Byte) : Byte := xorfold ([op0, op1] ++ pl)

/-- The bytes of a request frame (30 R100): preamble, length P + 3, opcode, payload, checksum. -/
def requestFrame (op0 op1 : Byte) (pl : List Byte) : List Byte :=
  Config.preamble ++ [BitVec.ofNat 8 (pl.length + 3), op0, op1] ++ pl ++ [csumGen op0 op1 pl]

/-- ShapeOK: the payload length each catalog opcode takes (41 R171). -/
def shapeOk (c : Catalog) (payloadLen : Nat) : Bool :=
  match c with
  | .getInfo => decide (payloadLen = 0)
  | .beep => decide (payloadLen = 1)
  | .setLed => decide (payloadLen = 1)
  | .readToken => decide (payloadLen = 0)
  | .writeToken => decide (1 ≤ payloadLen) && decide (payloadLen ≤ Config.maxPayload)
  | .writeTokenReserve => decide (1 ≤ payloadLen) && decide (payloadLen ≤ Config.maxPayload)

/-- Dispatch's two checks for an opcode of the catalog: P > 252, then the shape (41 R170). -/
def catalogCheck (c : Catalog) (payloadLen : Nat) : ResCode :=
  if payloadLen > Config.maxPayload then .encodingError
  else if shapeOk c payloadLen then .ok
  else .encodingError

/-- Dispatch: may EXECUTE send a request? The catalog is checked first (41 R170). -/
def dispatch (op0 op1 : Byte) (payloadLen : Nat) : ResCode :=
  match catalogOf op0 op1 with
  | none => .unknownOpcode
  | some c => catalogCheck c payloadLen

end Sys2Proof.Machine
end

