-- ==== Sys2Proof/Machine/Flags.lean ====
section
/-! DEFINITION. The flags: STATUS (10_state.md R24 to R32), CFG's fields (R33), irq (R48) and the NO_CARD sentinel (60_exceptions.md R242). -/

namespace Sys2Proof.Machine

/-- STATUS.BUSY: 1 exactly when seq != IDLE (10 R25). -/
def State.busy (s : State) : Bool := decide (s.seq ≠ .idle)

/-- STATUS as a byte: bit 7 reads 0, then RX_OVF, CMD_DROPPED, NO_CARD, CSUM_OK, DEV_READY, DONE, BUSY (10 R24). -/
def State.statusByte (s : State) : Byte :=
  (0#1 ++ BitVec.ofBool s.rxOvf ++ BitVec.ofBool s.cmdDropped ++ BitVec.ofBool s.noCard ++ BitVec.ofBool s.csumOk
    ++ BitVec.ofBool s.devReady ++ BitVec.ofBool s.done ++ BitVec.ofBool s.busy : BitVec 8)

/-- CFG.CHECK_EN (10 R33). -/
def State.checkEn (s : State) : Bool := s.cfg.getLsbD 0

/-- CFG.VERIFY_CSUM (10 R33). -/
def State.verifyCsum (s : State) : Bool := s.cfg.getLsbD 1

/-- CFG.IRQ_EN (10 R33). -/
def State.irqEn (s : State) : Bool := s.cfg.getLsbD 2

/-- CFG.FLUSH (10 R33). -/
def State.flush (s : State) : Bool := s.cfg.getLsbD 3

/-- The interrupt output, a level: DONE and IRQ_EN (10 R48, 60 R247). -/
def State.irq (s : State) : Bool := s.done && s.irqEn

/-- STATE: seq in bits 1:0, iphase in bits 3:2, the rest 0 (10 R40). -/
def State.stateByte (s : State) : Byte := (0#4 ++ s.iphase.toBits ++ s.seq.toBits : BitVec 8)

/-- A HOST write of v to STATUS clears the write-1-to-clear flags it names, and nothing else (10 R32). -/
def State.clearStatus (s : State) (v : Byte) : State :=
  { s with
    done := s.done && !v.getLsbD 1
    cmdDropped := s.cmdDropped && !v.getLsbD 5
    rxOvf := s.rxOvf && !v.getLsbD 6 }

/-- The opcode and the first five RES_PL bytes of a decode committed in the step of a completion (60 R242). -/
structure Committed where
  op0 : Byte
  op1 : Byte
  token : List Byte
  deriving DecidableEq, Repr

/-- NoCard(code): the result is OK, a decode was committed in the same step for opcode 01 0C, and the five token bytes are 00 (60 R242). -/
def noCardFlag (code : ResCode) (committed : Option Committed) : Bool :=
  match committed with
  | none => false
  | some c =>
    decide (code = .ok) && decide (c.op0 = 0x01) && decide (c.op1 = 0x0C) && decide (c.token = [0x00, 0x00, 0x00, 0x00, 0x00])

end Sys2Proof.Machine
end

