-- ==== Sys2Proof/Machine/Ops.lean ====
section
/-! DEFINITION. The named operations over memory and registers: buffer cells, the receive stream (20_memory.md R82 to R85), the HOST's
accesses (R70 to R76), taking a CTRL command (42_exchange.md R190, R191) and completing an operation (60_exceptions.md R240, R241), which
is the form an exception takes on this hardware (R243). -/

namespace Sys2Proof.Machine

/-- The byte at an address. -/
def Memory.get (m : Memory) (a : Nat) : Byte :=
  match m with
  | [] => unlistedByte
  | (k, v) :: rest => if k = a then v else Memory.get rest a

/-- Store one byte, keeping the canonical form. -/
def Memory.set (m : Memory) (a : Nat) (b : Byte) : Memory :=
  match m with
  | [] => if b = unlistedByte then [] else [(a, b)]
  | (k, v) :: rest =>
    if a < k then (if b = unlistedByte then (k, v) :: rest else (a, b) :: (k, v) :: rest)
    else if a = k then (if b = unlistedByte then rest else (a, b) :: rest)
    else (k, v) :: Memory.set rest a b

/-- Store bytes at rising addresses from a. -/
def Memory.writeBlock (m : Memory) (a : Nat) (bytes : List Byte) : Memory :=
  match bytes with
  | [] => m
  | b :: rest => Memory.writeBlock (m.set a b) (a + 1) rest

/-- The n bytes at rising addresses from a. -/
def Memory.readBlock (m : Memory) (a n : Nat) : List Byte :=
  match n with
  | 0 => []
  | n + 1 => m.get a :: Memory.readBlock m (a + 1) n

/-- Keep one buffer's bytes and set every other byte to 00. -/
def Memory.keepOnly (m : Memory) (b : Buffer) : Memory := m.filter fun c => b.holds c.1

/-- The first n cells of a buffer, `BUF[0 .. n)` (00 R11). -/
def State.cells (s : State) (b : Buffer) (n : Nat) : List Byte := s.mem.readBlock b.base (min n b.size)

/-- One cell of a buffer, `BUF[i]` (00 R11). -/
def State.cell (s : State) (b : Buffer) (i : Nat) : Byte := s.mem.get (b.base + i)

/-- The request payload REQ_PL[0 .. PLEN) (10 R35). -/
def State.reqPayload (s : State) : List Byte := s.cells reqPl s.plen.toNat

/-- raw = RX_BUF[0 .. min(RX_COUNT, 260)) (10 R36). -/
def State.raw (s : State) : List Byte := s.cells rxBuf s.rxCount.toNat

/-- The last frame built, TX_FRAME[0 .. TXLEN) (10 R38). -/
def State.lastFrame (s : State) : List Byte := s.cells txFrame s.txLen.toNat

/-- DEV delivers a byte: into RXQ, or dropped with RX_OVF when RXQ is full (20 R82). -/
def State.deliver (s : State) (b : Byte) : State :=
  if s.rxq.length < s.params.rxqDepth then { s with rxq := s.rxq ++ [b] } else { s with rxOvf := true }

/-- RxRead(max), the bytes it returns (20 R83). -/
def State.rxReadBytes (s : State) (max : Nat) : List Byte := s.rxq.take max

/-- RxRead(max), the queue it leaves (20 R83). -/
def State.rxReadRest (s : State) (max : Nat) : State := { s with rxq := s.rxq.drop max }

/-- One byte of CaptureAppend (20 R85). -/
def State.captureByte (s : State) (b : Byte) : State :=
  if s.rxCount.toNat < Config.rxBufCap then
    { s with mem := s.mem.set (rxBuf.base + s.rxCount.toNat) b, rxCount := s.rxCount + 1 }
  else s

/-- CaptureAppend(bytes) (20 R85). -/
def State.captureAppend (s : State) (bytes : List Byte) : State :=
  match bytes with
  | [] => s
  | b :: rest => (s.captureByte b).captureAppend rest

/-- BuildFrame(op0, op1, pl): the frame into TX_FRAME, its length into TXLEN (40 R133). Called with len(pl) <= 252. -/
def State.buildFrame (s : State) (op0 op1 : Byte) (pl : List Byte) : State :=
  { s with
    mem := s.mem.writeBlock txFrame.base (requestFrame op0 op1 pl)
    txLen := BitVec.ofNat 9 (7 + pl.length) }

/-- A command written while BUSY = 1 is dropped, and only the flag says so (42 R190). -/
def State.dropCommand (s : State) : State := { s with cmdDropped := true }

/-- The start of every accepted operation (42 R191). -/
def State.accept (s : State) : State :=
  { s with done := false, csumOk := false, noCard := false, resCode := .none }

/-- finish(code): the completion of the current operation (60 R240). `committed` tells whether a decode was committed in this step. -/
def State.finish (s : State) (code : ResCode) (committed : Option Committed) : State :=
  { s with
    resCode := code
    seq := .idle
    tmr := false
    iphase := .none
    noCard := noCardFlag code committed
    done := true }

/-- A completion without a decode (60 R241). -/
def State.finishPlain (s : State) (code : ResCode) : State :=
  ({ s with resStatus := 0x00, resPlen := 0x00, csumOk := false } : State).finish code none

/-- An operation taken from a CTRL write: dropped while BUSY = 1 (42 R190), else accepted and run (R191). -/
def State.take (s : State) (run : State → State) : State :=
  if s.busy then s.dropCommand else run s.accept

/-- MemRead(a, 1): the value at an address (20 R71, with the map of 10 R21). It is a function of the state and changes nothing. -/
def State.memRead (s : State) (a : Addr) : Byte :=
  match a.toNat with
  | 0x000 => 0x00
  | 0x001 => s.statusByte
  | 0x002 => s.cfg.setWidth 8
  | 0x003 => s.checkVal
  | 0x004 => s.opc0
  | 0x005 => s.opc1
  | 0x006 => s.plen
  | 0x007 => s.resCode.toByte
  | 0x008 => s.resStatus
  | 0x009 => s.resPlen
  | 0x00A => countLow s.rxCount
  | 0x00B => countHigh s.rxCount
  | 0x00C => countLow s.txLen
  | 0x00D => countHigh s.txLen
  | 0x00E => s.stateByte
  | 0x010 => BitVec.ofNat 8 (rxqLevel s.rxq)
  | 0x011 => BitVec.ofNat 8 (rxqLevel s.rxq / 256)
  | n => if isBufferAddr n then s.mem.get n else 0x00

/-- A write that BUSY = 1 locks out (10 R51). -/
def State.lockedWrite (s : State) (write : State → State) : State := if s.busy then s else write s

/-- MemWrite(a, 1, v) at every address but CTRL, whose write is a command (42 R190): STATUS clears flags (10 R32), an RW-L register or
buffer cell takes the value unless BUSY = 1 (R51), and every other write is ignored (10 R21, 20 R72). -/
def State.memWrite (s : State) (a : Addr) (v : Byte) : State :=
  match a.toNat with
  | 0x001 => s.clearStatus v
  | 0x002 => s.lockedWrite fun s => { s with cfg := v.setWidth 4 }
  | 0x003 => s.lockedWrite fun s => { s with checkVal := v }
  | 0x004 => s.lockedWrite fun s => { s with opc0 := v }
  | 0x005 => s.lockedWrite fun s => { s with opc1 := v }
  | 0x006 => s.lockedWrite fun s => { s with plen := v }
  | 0x00A => s.lockedWrite fun s => { s with rxCount := clampCount (withCountLow s.rxCount v) }
  | 0x00B => s.lockedWrite fun s => { s with rxCount := clampCount (withCountHigh s.rxCount v) }
  | n =>
    if reqPl.holds n || rxBuf.holds n then s.lockedWrite fun s => { s with mem := s.mem.set n v }
    else s

end Sys2Proof.Machine
end

