-- ==== Sys2Proof/Machine/Codec.lean ====
section
/-! DEFINITION. The frame codec (40_codec.md): the pure decoder of responses with its checks in their order, its commit, and the two
operations ENCODE and DECODE. -/

namespace Sys2Proof.Machine

/-- What a decode is made against (40 R141). -/
structure DecodeCtx where
  op0 : Byte
  op1 : Byte
  chkEn : Bool
  chkVal : Byte
  verify : Bool
  deriving DecidableEq, Repr

/-- What a decode finds (40 R141). -/
structure DecodeResult where
  code : ResCode
  status : Byte
  pl : List Byte
  csumOk : Bool
  deriving DecidableEq, Repr

/-- Fail(c) (40 R141). -/
def decodeFail (c : ResCode) : DecodeResult := { code := c, status := 0x00, pl := [], csumOk := false }

/-- The length parser passes: n >= 4 and raw[3] = n - 4, over unbounded integers (40 R142). -/
def lengthOk (raw : List Byte) : Bool := decide (4 ≤ raw.length) && decide ((byteAt raw 3).toNat + 4 = raw.length)

/-- The preamble detector passes (40 R143). -/
def preambleOk (raw : List Byte) : Bool := decide (slice raw 0 3 = Config.preamble)

/-- The echo check passes: bytes 4 and 5 exist and are the opcode that was sent (40 R144). -/
def echoOk (op0 op1 : Byte) (raw : List Byte) : Bool :=
  decide (6 ≤ raw.length) && decide (byteAt raw 4 = op0) && decide (byteAt raw 5 = op1)

/-- The checksum verifier: xorfold(raw[4 .. n)) = 00 (40 R146). -/
def checksumOk (raw : List Byte) : Bool := decide (xorfold (slice raw 4 raw.length) = 0x00)

/-- The generic payload extractor: raw[7 .. n-1) (40 R149). -/
def genericPayload (raw : List Byte) : List Byte := slice raw 7 (raw.length - 1)

/-- The token payload extractor: the 5 bytes raw[n-6 .. n-1) (40 R150). -/
def tokenPayload (raw : List Byte) : List Byte := slice raw (raw.length - 6) (raw.length - 1)

/-- The payload of a response to an opcode: the token window for 01 0C, else the generic slice (40 R149, R150). -/
def payloadOf (op0 op1 : Byte) (raw : List Byte) : List Byte :=
  if op0 = 0x01 ∧ op1 = 0x0C then tokenPayload raw else genericPayload raw

/-- Decode(ctx, raw): the checks in their order, first failure wins (40 R141). -/
def decodeResponse (ctx : DecodeCtx) (raw : List Byte) : DecodeResult :=
  if !lengthOk raw then decodeFail .badLength
  else if !preambleOk raw then decodeFail .badFormat
  else if !echoOk ctx.op0 ctx.op1 raw then decodeFail .badFormat
  else if raw.length < 7 then decodeFail .badLength
  else if ctx.verify && !checksumOk raw then decodeFail .badChecksum
  else
    { code := if ctx.chkEn && decide (byteAt raw 6 ≠ ctx.chkVal) then .deviceStatus else .ok
      status := byteAt raw 6
      pl := payloadOf ctx.op0 ctx.op1 raw
      csumOk := checksumOk raw }

/-- DecodeCommit(r): the result registers (40 R151). -/
def State.decodeCommit (s : State) (r : DecodeResult) : State :=
  { s with
    resStatus := r.status
    resPlen := BitVec.ofNat 8 r.pl.length
    mem := s.mem.writeBlock resPl.base r.pl
    csumOk := r.csumOk }

/-- finish after a DecodeCommit of this step, for the opcode the decode was made against (60 R240, R242). -/
def State.finishDecoded (s : State) (code : ResCode) (op0 op1 : Byte) : State :=
  s.finish code (some { op0 := op0, op1 := op1, token := s.cells resPl 5 })

/-- ENCODE once accepted: build the frame, or ENCODING_ERROR for PLEN > 252 (40 R130, R131). -/
def State.runEncode (s : State) : State :=
  if s.plen.toNat > Config.maxPayload then s.finishPlain .encodingError
  else (s.buildFrame s.opc0 s.opc1 s.reqPayload).finishPlain .ok

/-- The context of a DECODE operation (40 R140). -/
def State.decodeCtx (s : State) : DecodeCtx :=
  { op0 := s.opc0, op1 := s.opc1, chkEn := s.checkEn, chkVal := s.checkVal, verify := s.verifyCsum }

/-- DECODE once accepted (40 R140). -/
def State.runDecode (s : State) : State :=
  let r := decodeResponse s.decodeCtx s.raw
  (s.decodeCommit r).finishDecoded r.code s.opc0 s.opc1

/-- ENCODE (40 R130). -/
def execEncodeFrame (s : State) : Host.Outcome State Fault Refusal := .next (s.take State.runEncode)

/-- DECODE (40 R140). -/
def execDecodeFrame (s : State) : Host.Outcome State Fault Refusal := .next (s.take State.runDecode)

end Sys2Proof.Machine
end

