-- ==== Sys2Proof/Machine/Exchange.lean ====
section
/-! DEFINITION. The exchange (42_exchange.md): its start, one transmitted byte, the two reads, its end, and the second step of OPEN. -/

namespace Sys2Proof.Machine

/-- Exchange(op0, op1, pl, chk_en, chk_val): all its starting actions (42 R193). Entered with seq = IDLE. -/
def State.startExchange (s : State) (lat : Latch) (pl : List Byte) : State :=
  { s.buildFrame lat.op0 lat.op1 pl with
    lat := lat
    rxCount := 0
    rxq := if s.flush then [] else s.rxq
    txIdx := 0
    seq := .tx }

/-- The latched context of OPEN's first exchange: GetInfo, status checked against 00 (42 R211). -/
def getInfoLatch : Latch := { op0 := 0x01, op1 := 0x02, chkEn := true, chkVal := 0x00 }

/-- The latched context of OPEN's second exchange: SetLed, status checked against 00 (42 R212). -/
def setLedLatch : Latch := { op0 := 0x01, op1 := 0x04, chkEn := true, chkVal := 0x00 }

/-- StartSetLed(): the second init step, SetLed(green) (42 R212). -/
def State.startSetLed (s : State) : State :=
  ({ s with iphase := .setLed } : State).startExchange setLedLatch [0x02]

/-- ExchangeEnd(r) (42 R199). -/
def State.exchangeEnd (s : State) (r : DecodeResult) : State :=
  let t : State := { s.decodeCommit r with seq := .idle, tmr := false }
  if s.iphase = .getInfo ∧ r.code = .ok then t.startSetLed
  else if s.iphase = .setLed ∧ r.code = .ok then ({ t with devReady := true } : State).finishDecoded .ok s.lat.op0 s.lat.op1
  else t.finishDecoded r.code s.lat.op0 s.lat.op1

/-- The TX step of LINK: one byte handed over, and the first settle delay armed after the last (42 R196). -/
def State.txStep (s : State) : State :=
  let t : State := { s with wire := s.wire ++ [s.cell txFrame s.txIdx], txIdx := s.txIdx + 1 }
  if s.txIdx + 1 = s.txLen.toNat then { t with seq := .wait1, tmr := true } else t

/-- The state after RxRead(max) and CaptureAppend of what it returned (20 R83, R85). -/
def State.receive (s : State) (max : Nat) : State := (s.rxReadRest max).captureAppend (s.rxReadBytes max)

/-- The first read: TIMEOUT when it returns nothing, else the second settle delay (42 R197). -/
def State.firstRead (s : State) : State :=
  if s.rxReadBytes s.params.read1Max = [] then (s.receive s.params.read1Max).exchangeEnd (decodeFail .timeout)
  else { s.receive s.params.read1Max with seq := .wait2 }

/-- The context of the decode that ends an exchange (42 R198). -/
def State.exchangeCtx (s : State) : DecodeCtx :=
  { op0 := s.lat.op0, op1 := s.lat.op1, chkEn := s.lat.chkEn, chkVal := s.lat.chkVal, verify := s.verifyCsum }

/-- The second read and the decode (42 R198). -/
def State.secondRead (s : State) : State :=
  let t := s.receive Config.read2Max
  t.exchangeEnd (decodeResponse t.exchangeCtx t.raw)

/-- The context an EXECUTE latches: the opcode, CFG.CHECK_EN and CHECK_VAL (10 R44). -/
def State.executeLatch (s : State) (op0 op1 : Byte) : Latch :=
  { op0 := op0, op1 := op1, chkEn := s.checkEn, chkVal := s.checkVal }

/-- A catalog command once accepted: refused by its checks, or its exchange started (41 R170, 42 R192). -/
def State.runCatalog (s : State) (c : Catalog) : State :=
  match catalogCheck c s.plen.toNat with
  | .ok => ({ s with iphase := .none } : State).startExchange (s.executeLatch c.op0 c.op1) s.reqPayload
  | code => s.finishPlain code

end Sys2Proof.Machine
end

