-- ==== Sys2Proof/Machine/CatalogCommands.lean ====
section
/-! DEFINITION. The six catalog commands (41_commands.md R172 to R177): what an EXECUTE does when OPC0 and OPC1 hold their opcode. Each is
taken like any operation (42_exchange.md R190), checked (41 R170, R171), and starts its exchange (42 R193); the reply decides the result in
the exchange's later steps. The opcode is the command's own constant (log 6). -/

namespace Sys2Proof.Machine

/-- GetInfo, 01 02, P = 0 (41 R172). -/
def execGetInfo (s : State) : Host.Outcome State Fault Refusal := .next (s.take fun s => s.runCatalog .getInfo)

/-- Beep, 01 03, P = 1: the duration (41 R173). -/
def execBeep (s : State) : Host.Outcome State Fault Refusal := .next (s.take fun s => s.runCatalog .beep)

/-- SetLed, 01 04, P = 1: the color (41 R174). -/
def execSetLed (s : State) : Host.Outcome State Fault Refusal := .next (s.take fun s => s.runCatalog .setLed)

/-- ReadToken, 01 0C, P = 0 (41 R175). -/
def execReadToken (s : State) : Host.Outcome State Fault Refusal := .next (s.take fun s => s.runCatalog .readToken)

/-- WriteToken, 02 0C, 1 <= P <= 252: lock byte, token bytes (41 R176). -/
def execWriteToken (s : State) : Host.Outcome State Fault Refusal := .next (s.take fun s => s.runCatalog .writeToken)

/-- WriteTokenReserve, 03 0C, 1 <= P <= 252: lock byte, token bytes (41 R177). -/
def execWriteTokenReserve (s : State) : Host.Outcome State Fault Refusal :=
  .next (s.take fun s => s.runCatalog .writeTokenReserve)

end Sys2Proof.Machine
end

