-- ==== Sys2Proof/Machine/Control.lean ====
section
/-! DEFINITION. The CTRL operations other than ENCODE and DECODE (42_exchange.md): EXECUTE, OPEN, SRST, NOP and the reserved values. -/

namespace Sys2Proof.Machine

/-- EXECUTE (42 R192): the dispatcher hands an opcode of the catalog to its command, and any other completes with UNKNOWN_OPCODE (41 R170). -/
def execExecute (s : State) : Host.Outcome State Fault Refusal :=
  match catalogOf s.opc0 s.opc1 with
  | some .getInfo => execGetInfo s
  | some .beep => execBeep s
  | some .setLed => execSetLed s
  | some .readToken => execReadToken s
  | some .writeToken => execWriteToken s
  | some .writeTokenReserve => execWriteTokenReserve s
  | none => .next (s.take fun s => s.finishPlain .unknownOpcode)

/-- OPEN once accepted: OK at once when DEV_READY = 1 (42 R214), else the GetInfo exchange (R210, R211). -/
def State.runOpen (s : State) : State :=
  if s.devReady then s.finishPlain .ok
  else ({ s with iphase := .getInfo } : State).startExchange getInfoLatch []

/-- OPEN (42 R210). -/
def execOpenSession (s : State) : Host.Outcome State Fault Refusal := .next (s.take State.runOpen)

/-- SoftReset(): the reset values everywhere but in DEV_READY, CFG, CHECK_VAL, OPC0, OPC1, PLEN and REQ_PL (42 R220, 70 R261). What is
outside the block (the agents' events, the wire, the HOST's reads) and the parameters stay. -/
def State.softReset (s : State) : State :=
  { State.resetWith s.params with
    devReady := s.devReady
    cfg := s.cfg
    checkVal := s.checkVal
    opc0 := s.opc0
    opc1 := s.opc1
    plen := s.plen
    mem := s.mem.keepOnly reqPl
    events := s.events
    wire := s.wire
    hostReads := s.hostReads }

/-- A cold reset: the reset value of every piece of the block's state (70 R260). -/
def State.powerOn (s : State) : State :=
  { State.resetWith s.params with events := s.events, wire := s.wire, hostReads := s.hostReads }

/-- SRST (42 R220), whether or not BUSY = 1. -/
def execSrst (s : State) : Host.Outcome State Fault Refusal := .next s.softReset

/-- NOP (42 R223): no effect at all, whether or not BUSY = 1. -/
def execNop (s : State) : Host.Outcome State Fault Refusal := .next s

/-- OP = 5 (42 R224). -/
def execRsvd5 (s : State) : Host.Outcome State Fault Refusal := .next (s.take fun s => s.finishPlain .badCommand)

/-- OP = 6 (42 R224). -/
def execRsvd6 (s : State) : Host.Outcome State Fault Refusal := .next (s.take fun s => s.finishPlain .badCommand)

/-- OP = 7 (42 R224). -/
def execRsvd7 (s : State) : Host.Outcome State Fault Refusal := .next (s.take fun s => s.finishPlain .badCommand)

end Sys2Proof.Machine
end

