-- ==== Sys2Proof/Machine/Agents.lean ====
section
/-! DEFINITION. One event of one agent (00_scope.md R5): the HOST's accesses, DEV, LINK, TIMER and power-on. A HOST write to CTRL is a
command word and is run by Machine/Step.lean through the decoder. -/

namespace Sys2Proof.Machine

/-- The address of CTRL (10 R21). -/
def ctrlAddr : Addr := 0x000

/-- The command word of an event: the byte of a HOST write to CTRL (42 R190). Fetching an instruction is reading it here (10 R45). -/
def commandWord (e : Event) : Option Byte :=
  match e with
  | .hostWrite a v => if a = ctrlAddr then some v else none
  | .hostRead _ => none
  | .devByte _ => none
  | .linkAccept => none
  | .timerExpire => none
  | .coldReset => none

/-- A HOST read: the value goes to the HOST, and the block's state stays (20 R71). -/
def State.hostReadStep (s : State) (a : Addr) : State := { s with hostReads := s.hostReads ++ [s.memRead a] }

/-- LINK accepts a byte, enabled while seq = TX (42 R196). -/
def linkStep (s : State) : Host.Outcome State Fault Refusal :=
  match s.seq with
  | .tx => .next s.txStep
  | .idle => .fault .linkNotEnabled
  | .wait1 => .fault .linkNotEnabled
  | .wait2 => .fault .linkNotEnabled

/-- TIMER expires, enabled while it is armed (60 R250): the first read in WAIT1 (42 R197), the second in WAIT2 (R198). -/
def timerStep (s : State) : Host.Outcome State Fault Refusal :=
  if s.tmr then
    match s.seq with
    | .wait1 => .next s.firstRead
    | .wait2 => .next s.secondRead
    | .idle => .fault .timerNotArmed
    | .tx => .fault .timerNotArmed
  else .fault .timerNotArmed

/-- The step of an event that is not a command. -/
def agentStep (e : Event) (s : State) : Host.Outcome State Fault Refusal :=
  match e with
  | .hostWrite a v => .next (s.memWrite a v)
  | .hostRead a => .next (s.hostReadStep a)
  | .devByte b => .next (s.deliver b)
  | .linkAccept => linkStep s
  | .timerExpire => timerStep s
  | .coldReset => .next s.powerOn

/-- The command word that makes the sequencer run a table word: the CTRL byte itself, or EXECUTE for a catalog opcode (42 R192). -/
def fetchCommand (nbits w : Nat) : Byte := if nbits ≤ 8 then BitVec.ofNat 8 w else 0x03

/-- The command registers a table word needs: a catalog opcode is selected in OPC0 and OPC1 (41 R172 to R177). -/
def State.withOpcodeWord (s : State) (nbits w : Nat) : State :=
  if nbits ≤ 8 then s else { s with opc0 := BitVec.ofNat 8 (w / 256), opc1 := BitVec.ofNat 8 w }

end Sys2Proof.Machine
end

