-- ==== Sys2Proof/Machine/Dispatch.lean ====
section
/-! DEFINITION. One arm per instruction. -/

namespace Sys2Proof.Machine

def exec (i : Instr) (s : State) : Host.Outcome State Fault Refusal :=
  match i with
  | .getInfo => Sys2Proof.Machine.execGetInfo s
  | .beep => Sys2Proof.Machine.execBeep s
  | .setLed => Sys2Proof.Machine.execSetLed s
  | .readToken => Sys2Proof.Machine.execReadToken s
  | .writeToken => Sys2Proof.Machine.execWriteToken s
  | .writeTokenReserve => Sys2Proof.Machine.execWriteTokenReserve s
  | .srst _ => Sys2Proof.Machine.execSrst s
  | .nop _ => Sys2Proof.Machine.execNop s
  | .encodeFrame _ => Sys2Proof.Machine.execEncodeFrame s
  | .decodeFrame _ => Sys2Proof.Machine.execDecodeFrame s
  | .execute _ => Sys2Proof.Machine.execExecute s
  | .openSession _ => Sys2Proof.Machine.execOpenSession s
  | .rsvd5 _ => Sys2Proof.Machine.execRsvd5 s
  | .rsvd6 _ => Sys2Proof.Machine.execRsvd6 s
  | .rsvd7 _ => Sys2Proof.Machine.execRsvd7 s

end Sys2Proof.Machine
end

