-- ==== Sys2Proof/Machine/Step.lean ====
section
/-! DEFINITION. One step of the model: the next event of the agents' schedule (00_scope.md R4, R13). -/

namespace Sys2Proof.Machine

/-- One step. With no event pending no agent acts and nothing changes (log 2). A HOST write to CTRL is decoded and its instruction run (42
R190); every other event is its agent's step. -/
def step (s : State) : Host.Outcome State Fault Refusal :=
  match s.events with
  | [] => .next s
  | e :: rest =>
    match commandWord e with
    | some v => exec (decodeCtrl v) { s with events := rest }
    | none => agentStep e { s with events := rest }

/-- s with the instruction of a table word as the next thing it runs: the HOST's CTRL write is the next event, and a catalog opcode stands in
OPC0 and OPC1 (log 9). -/
def State.withFetchWord (s : State) (nbits w : Nat) : State :=
  { s.withOpcodeWord nbits w with events := .hostWrite ctrlAddr (fetchCommand nbits w) :: s.events }

end Sys2Proof.Machine
end

