-- ==== Sys2Proof/Safety.lean ====
section
/-! DEFINITION. What claims are stated in terms of: which events a rule enables, what a built frame looks like, and the invariant that
every step keeps. -/

namespace Sys2Proof.Machine

/-- A rule enables this event in this state: LINK while seq = TX (42_exchange.md R196), TIMER while it is armed in WAIT1 or WAIT2
(60_exceptions.md R250), every other agent always (00_scope.md R5, 20_memory.md R82). -/
def enabled (e : Event) (s : State) : Bool :=
  match e with
  | .hostWrite _ _ => true
  | .hostRead _ => true
  | .devByte _ => true
  | .linkAccept => decide (s.seq = .tx)
  | .timerExpire => s.tmr && (decide (s.seq = .wait1) || decide (s.seq = .wait2))
  | .coldReset => true

/-- The payload lengths of each catalog opcode, in the words of 41_commands.md R171. -/
def CommandShape (c : Catalog) (payloadLen : Nat) : Prop :=
  match c with
  | .getInfo => payloadLen = 0
  | .beep => payloadLen = 1
  | .setLed => payloadLen = 1
  | .readToken => payloadLen = 0
  | .writeToken => 1 ≤ payloadLen ∧ payloadLen ≤ 252
  | .writeTokenReserve => 1 ≤ payloadLen ∧ payloadLen ≤ 252

/-- Addresses whose reading may change when an exchange starts: STATUS, RES_CODE, RX_COUNT, TXLEN, STATE, RXQLVL (42 R193), beside the
frame's own TX_FRAME cells. -/
def startAddr (a : Addr) : Bool :=
  decide (a = 0x001) || decide (a = 0x007) || decide (a = 0x00A) || decide (a = 0x00B) || decide (a = 0x00C) || decide (a = 0x00D)
    || decide (a = 0x00E) || decide (a = 0x010) || decide (a = 0x011)

/-- Addresses whose reading may change when an operation completes without an exchange: STATUS and the result registers (60 R240, R241). -/
def resultAddr (a : Addr) : Bool :=
  decide (a = 0x001) || decide (a = 0x007) || decide (a = 0x008) || decide (a = 0x009)

/-- Addresses whose reading may change when a read returns bytes: RX_COUNT and RXQLVL (20 R83, R85), beside the cells captured. -/
def captureAddr (a : Addr) : Bool :=
  decide (a = 0x00A) || decide (a = 0x00B) || decide (a = 0x010) || decide (a = 0x011)

/-- The registers and buffers that a HOST writes only while BUSY = 0 (10 R51). -/
def lockedAddr (a : Addr) : Bool :=
  decide (a = 0x002) || decide (a = 0x003) || decide (a = 0x004) || decide (a = 0x005) || decide (a = 0x006) || decide (a = 0x00A)
    || decide (a = 0x00B) || (decide (0x100 ≤ a.toNat) && decide (a.toNat ≤ 0x1FB))
    || (decide (0x400 ≤ a.toNat) && decide (a.toNat ≤ 0x503))

/-- The read-only registers and buffers (10 R21). -/
def readOnlyAddr (a : Addr) : Bool :=
  decide (a = 0x007) || decide (a = 0x008) || decide (a = 0x009) || decide (a = 0x00C) || decide (a = 0x00D) || decide (a = 0x00E)
    || decide (a = 0x00F) || decide (a = 0x010) || decide (a = 0x011) || (decide (0x200 ≤ a.toNat) && decide (a.toNat ≤ 0x302))
    || (decide (0x600 ≤ a.toNat) && decide (a.toNat ≤ 0x6FA))

/-- The unmapped addresses (20 R72, R76). -/
def unmappedAddr (a : Addr) : Bool :=
  (decide (0x012 ≤ a.toNat) && decide (a.toNat ≤ 0x0FF)) || (decide (0x1FC ≤ a.toNat) && decide (a.toNat ≤ 0x1FF))
    || (decide (0x303 ≤ a.toNat) && decide (a.toNat ≤ 0x3FF)) || (decide (0x504 ≤ a.toNat) && decide (a.toNat ≤ 0x5FF))
    || decide (0x6FB ≤ a.toNat)

/-- The command registers (20 R79): CFG, CHECK_VAL, OPC0, OPC1, PLEN and REQ_PL. -/
def commandAddr (a : Addr) : Bool :=
  decide (a = 0x002) || decide (a = 0x003) || decide (a = 0x004) || decide (a = 0x005) || decide (a = 0x006)
    || (decide (0x100 ≤ a.toNat) && decide (a.toNat ≤ 0x1FB))

/-- What is not read at an address of the register space is the same in both states: seq, iphase, tx_idx, LAT, RXQ, tmr, and the
parameters and agents' side of the model. -/
structure SameInside (s t : State) : Prop where
  seq : t.seq = s.seq
  iphase : t.iphase = s.iphase
  txIdx : t.txIdx = s.txIdx
  lat : t.lat = s.lat
  rxq : t.rxq = s.rxq
  tmr : t.tmr = s.tmr
  params : t.params = s.params
  events : t.events = s.events
  wire : t.wire = s.wire
  hostReads : t.hostReads = s.hostReads

/-- The settle timer is armed in these states (10 R47). -/
def SeqState.waits (q : SeqState) : Bool :=
  match q with
  | .idle => false
  | .tx => false
  | .wait1 => true
  | .wait2 => true

/-- What R134 of 40_codec.md says of every built frame: its length byte, its preamble, its checksum. -/
structure FrameBuilt (f : List Byte) : Prop where
  length_byte : (byteAt f 3).toNat + 4 = f.length
  preamble : slice f 0 3 = Config.preamble
  checksum : xorfold (slice f 4 f.length) = 0x00

/-- The invariant. Each field names the rule it rests on. -/
structure State.Inv (s : State) : Prop where
  /-- The OPEN parameters are integers >= 1 (00 R6). -/
  params_legal : s.params.wellFormed = true
  /-- Memory is in canonical form (log 8). -/
  mem_wf : s.mem.wf = true
  /-- Memory lists only buffer cells (20 R76). -/
  mem_mapped : ∀ c ∈ s.mem, isBufferAddr c.1 = true
  /-- RX_COUNT is 0..260 (10 R36). -/
  rxCount_le : s.rxCount.toNat ≤ 260
  /-- TXLEN is 7..259, or 0 if no frame has been built since reset (10 R38). -/
  txLen_range : s.txLen.toNat = 0 ∨ (7 ≤ s.txLen.toNat ∧ s.txLen.toNat ≤ 259)
  /-- TX_FRAME[0 .. TXLEN) is a built frame (10 R38, 40 R134). -/
  frame_built : s.txLen.toNat ≠ 0 → FrameBuilt s.lastFrame
  /-- tx_idx is 0..259 (10 R43). -/
  txIdx_le : s.txIdx ≤ 259
  /-- In TX a byte of the frame is still to be sent (42 R196). -/
  tx_pending : s.seq = .tx → s.txIdx < s.txLen.toNat
  /-- In WAIT1 and WAIT2 the whole frame was sent (42 R196). -/
  tx_sent : s.seq.waits = true → s.txIdx = s.txLen.toNat
  /-- tmr is 1 exactly when seq is WAIT1 or WAIT2 (10 R47). -/
  tmr_armed : s.tmr = s.seq.waits
  /-- The frame of a running exchange carries the latched opcode (42 R193). -/
  frame_opcode : s.seq ≠ .idle → byteAt s.lastFrame 4 = s.lat.op0 ∧ byteAt s.lastFrame 5 = s.lat.op1
  /-- Only catalog opcodes are ever sent (30 R110). -/
  lat_catalog : s.seq ≠ .idle → (catalogOf s.lat.op0 s.lat.op1).isSome = true
  /-- Nothing is captured before the first read, and something after it (42 R193, R197). -/
  capture_empty : s.seq = .tx ∨ s.seq = .wait1 → s.rxCount = 0
  capture_some : s.seq = .wait2 → 1 ≤ s.rxCount.toNat
  /-- iphase is not NONE only while OPEN's init sequence runs, and then with its own context (10 R42, 42 R211, R212). -/
  iphase_busy : s.iphase ≠ .none → s.seq ≠ .idle ∧ s.devReady = false
  iphase_getInfo : s.iphase = .getInfo → s.lat = getInfoLatch
  iphase_setLed : s.iphase = .setLed → s.lat = setLedLatch
  /-- While BUSY = 1 there is no result: DONE is 0 and RES_CODE reads FF (10 R26, R39, 20 R78). -/
  busy_no_result : s.seq ≠ .idle → s.done = false ∧ s.resCode = .none ∧ s.noCard = false
  /-- DONE = 1 means that RES_CODE holds a result (10 R26). -/
  done_result : s.done = true → s.resCode ≠ .none
  /-- NO_CARD = 1 only for an OK result with five zero bytes extracted (60 R242). -/
  noCard_zero : s.noCard = true → s.resCode = .ok ∧ s.resPlen = 5 ∧ s.cells resPl 5 = [0x00, 0x00, 0x00, 0x00, 0x00]
  /-- RES_PLEN is 0..251 (10 R39). -/
  resPlen_le : s.resPlen.toNat ≤ 251
  /-- RXQ is 0..RXQ_DEPTH long (10 R46). -/
  rxq_bound : s.rxq.length ≤ s.params.rxqDepth

end Sys2Proof.Machine
end

