-- ==== Sys2Proof/Certificates/Slice0/Obligations.lean ====
section
/-! DEFINITION. The statements about the model, from the numbered rules of spec/. Reads of the register space are written with memRead (20
R71), which covers every register and buffer byte at its address. -/

open Sys2Proof Sys2Proof.Machine

/-- R52: every piece of state after a cold reset, for every value of the OPEN parameters. At each address of the register space MemRead gives
00, but for CFG = 01 and RES_CODE = FF. -/
def Obligations.ResetGivesEveryPieceItsValue : Prop :=
  (∀ p : Params,
    (∀ a : Addr, (State.resetWith p).memRead a = if a = 0x002 then 0x01 else if a = 0x007 then 0xFF else 0x00) ∧
      (State.resetWith p).seq = .idle ∧ (State.resetWith p).iphase = .none ∧ (State.resetWith p).txIdx = 0 ∧
      (State.resetWith p).lat = { op0 := 0x00, op1 := 0x00, chkEn := false, chkVal := 0x00 } ∧
      (State.resetWith p).rxq = [] ∧ (State.resetWith p).tmr = false ∧ (State.resetWith p).irq = false) ∧
    ∃ p, State.reset = State.resetWith p

/-- The state after reset meets the invariant of Safety.lean. -/
def Obligations.ResetMeetsTheInvariant : Prop := State.reset.Inv

/-- Every step, from every state that meets the invariant, keeps it and keeps the parameters. -/
def Obligations.EveryStepKeepsTheInvariant : Prop :=
  ∀ s t : State, s.Inv → step s = .next t → t.Inv ∧ t.params = s.params

/-- Decoding an encoded instruction gives it back, with every value of its ignored bits. -/
def Obligations.DecodeOfEncodeGivesTheInstruction : Prop :=
  ∀ i : Instr, i.wellFormed = true → decode (encode i) = .ok i

/-- Each word has one meaning: bytes that decode to an instruction are the encoder's. -/
def Obligations.DecodedBytesAreTheEncodersBytes : Prop :=
  ∀ (bytes : List Byte) (i : Instr), decode bytes = .ok i → bytes = encode i

/-- R113: a byte written to CTRL is decoded by the rows of the table, SRST first, and the bits that a row's mask leaves out have no effect. -/
def Obligations.CtrlBytesDecodeByTheTableRows : Prop :=
  (∀ v : Byte,
    decode [v] = .ok (decodeCtrl v) ∧
      (v &&& 0x80 = 0x80 → ∃ g, decodeCtrl v = .srst g) ∧
      (v &&& 0x87 = 0x00 → ∃ g, decodeCtrl v = .nop g) ∧
      (v &&& 0x87 = 0x01 → ∃ g, decodeCtrl v = .encodeFrame g) ∧
      (v &&& 0x87 = 0x02 → ∃ g, decodeCtrl v = .decodeFrame g) ∧
      (v &&& 0x87 = 0x03 → ∃ g, decodeCtrl v = .execute g) ∧
      (v &&& 0x87 = 0x04 → ∃ g, decodeCtrl v = .openSession g) ∧
      (v &&& 0x87 = 0x05 → ∃ g, decodeCtrl v = .rsvd5 g) ∧
      (v &&& 0x87 = 0x06 → ∃ g, decodeCtrl v = .rsvd6 g) ∧
      (v &&& 0x87 = 0x07 → ∃ g, decodeCtrl v = .rsvd7 g)) ∧
    ∀ (v w : Byte) (s : State),
      (v &&& 0x87 = w &&& 0x87 ∨ (v &&& 0x80 = 0x80 ∧ w &&& 0x80 = 0x80)) → exec (decodeCtrl v) s = exec (decodeCtrl w) s

/-- R108, R109: two opcode bytes decode to a catalog command exactly when all 16 bits match its row, and to no instruction otherwise. -/
def Obligations.OpcodesDecodeToTheSixCommands : Prop :=
  decode [0x01, 0x02] = .ok .getInfo ∧ decode [0x01, 0x03] = .ok .beep ∧ decode [0x01, 0x04] = .ok .setLed ∧
    decode [0x01, 0x0C] = .ok .readToken ∧ decode [0x02, 0x0C] = .ok .writeToken ∧ decode [0x03, 0x0C] = .ok .writeTokenReserve ∧
    ∀ op0 op1 : Byte, opcode16 op0 op1 ∉ [0x0102, 0x0103, 0x0104, 0x010C, 0x020C, 0x030C] →
      decode [op0, op1] = .error (.unknownOpcode op0 op1)

/-- Words written out from the encodings of 30 R108 and R113 decode to the instructions they stand for. -/
def Obligations.WrittenWordsDecodeAsTheSpecSays : Prop :=
  decodeTableWord 16 0x010C = some .readToken ∧ decodeTableWord 16 0x030C = some .writeTokenReserve ∧
    decodeTableWord 8 0x83 = some (.srst 3) ∧ decodeTableWord 8 0x7B = some (.execute 15) ∧
    decodeTableWord 8 0x78 = some (.nop 15) ∧ decodeTableWord 8 0x04 = some (.openSession 0) ∧
    decodeTableWord 16 0x1234 = none

/-- A step runs the decoded instruction: when the next event is a HOST write to CTRL whose byte decodes to i, step is exec of i at the state
with that event taken off. -/
def Obligations.StepRunsTheDecodedInstruction : Prop :=
  ∀ (s : State) (v : Byte) (rest : List Event) (i : Instr), s.events = .hostWrite 0x000 v :: rest → decode [v] = .ok i →
    step s = exec i { s with events := rest }

/-- An EXECUTE runs the catalog command that OPC0 and OPC1 decode to: step is exec of that command. -/
def Obligations.StepRunsTheSelectedCatalogCommand : Prop :=
  ∀ (s : State) (v : Byte) (rest : List Event) (i : Instr), s.events = .hostWrite 0x000 v :: rest → v &&& 0x87 = 0x03 →
    decode [s.opc0, s.opc1] = .ok i → step s = exec i { s with events := rest }

/-- The next step after withFetchWord runs the instruction of the table word, for every row of the table. -/
def Obligations.FetchedTableWordRunsNext : Prop :=
  ∀ (s : State) (nbits w : Nat) (i : Instr), tableWordWellFormed nbits w = true → decodeTableWord nbits w = some i →
    step (s.withFetchWord nbits w) = exec i (s.withOpcodeWord nbits w)

/-- R190: how a HOST write to CTRL is taken: SRST first, then NOP, then the drop while BUSY = 1, then acceptance (R191), after which the
operation either has completed in this step or its exchange runs. -/
def Obligations.CtrlWriteIsTakenInOrder : Prop :=
  ∀ (s : State) (v : Byte) (rest : List Event), s.events = .hostWrite 0x000 v :: rest →
    (v.getLsbD 7 = true → step s = .next { s with events := rest }.softReset) ∧
      (v.getLsbD 7 = false → v.extractLsb' 0 3 = 0 → step s = .next { s with events := rest }) ∧
      (v.getLsbD 7 = false → v.extractLsb' 0 3 ≠ 0 → s.seq ≠ .idle → step s = .next { s with events := rest, cmdDropped := true }) ∧
      (v.getLsbD 7 = false → v.extractLsb' 0 3 ≠ 0 → s.seq = .idle →
        ∃ t, step s = .next t ∧ t.cmdDropped = s.cmdDropped ∧
          ((t.done = true ∧ t.seq = .idle ∧ t.resCode ≠ .none) ∨
            (t.done = false ∧ t.seq = .tx ∧ t.resCode = .none ∧ t.csumOk = false ∧ t.noCard = false)))

/-- R223: NOP has no effect at all, whether or not BUSY = 1. -/
def Obligations.NopHasNoEffect : Prop :=
  ∀ (s : State) (g : BitVec 4), exec (.nop g) s = .next s

/-- R220, R222: SRST, whether or not BUSY = 1 and whatever the other CTRL bits, keeps DEV_READY, CFG, CHECK_VAL, OPC0, OPC1, PLEN and REQ_PL,
and leaves everything else of the block at its reset value, with irq = 0. -/
def Obligations.SoftResetKeepsOnlyTheCommandRegisters : Prop :=
  ∀ (s : State) (g : BitVec 7), ∃ t, exec (.srst g) s = .next t ∧
    (∀ a : Addr, t.memRead a =
      if a = 0x001 then (if s.devReady then 0x04 else 0x00)
      else if commandAddr a = true then s.memRead a
      else if a = 0x007 then 0xFF
      else 0x00) ∧
    t.seq = .idle ∧ t.iphase = .none ∧ t.txIdx = 0 ∧ t.lat = { op0 := 0x00, op1 := 0x00, chkEn := false, chkVal := 0x00 } ∧
    t.rxq = [] ∧ t.tmr = false ∧ t.irq = false

/-- R260: a cold reset leaves every piece of the block at its reset value, in one step. What is outside the block (the agents' events, the
wire, the HOST's reads) stays: that clause is the model's (log 10, 11). -/
def Obligations.ColdResetRestoresEveryPiece : Prop :=
  ∀ (s : State) (rest : List Event), s.events = .coldReset :: rest →
    step s = .next { State.resetWith s.params with events := rest, wire := s.wire, hostReads := s.hostReads }

/-- Every operation other than SRST and NOP, written while BUSY = 1, is dropped: CMD_DROPPED is set and nothing else changes. -/
def Obligations.BusyDropsEveryOperation : Prop :=
  ∀ (i : Instr) (s : State), (∀ g, i ≠ .nop g) → (∀ g, i ≠ .srst g) → s.seq ≠ .idle → exec i s = .next { s with cmdDropped := true }

/-- R133: ENCODE with PLEN <= 252 writes the frame into TX_FRAME and its length into TXLEN, and completes with OK in the same step. -/
def Obligations.EncodeBuildsTheRequestFrame : Prop :=
  ∀ (s : State) (g : BitVec 4), s.mem.wf = true → s.seq = .idle → s.plen.toNat ≤ 252 →
    ∃ t, exec (.encodeFrame g) s = .next t ∧
      t.cell txFrame 0 = 0xAA ∧ t.cell txFrame 1 = 0xDD ∧ t.cell txFrame 2 = 0x00 ∧
      (t.cell txFrame 3).toNat = s.plen.toNat + 3 ∧ t.cell txFrame 4 = s.opc0 ∧ t.cell txFrame 5 = s.opc1 ∧
      (∀ i, i < s.plen.toNat → t.cell txFrame (6 + i) = s.cell reqPl i) ∧
      t.cell txFrame (6 + s.plen.toNat) = xorfold ([s.opc0, s.opc1] ++ s.reqPayload) ∧
      t.txLen.toNat = 7 + s.plen.toNat ∧
      (∀ i, 7 + s.plen.toNat ≤ i → i < 259 → t.cell txFrame i = s.cell txFrame i) ∧
      t.resCode = .ok ∧ t.resStatus = 0x00 ∧ t.resPlen = 0x00 ∧ t.csumOk = false ∧ t.noCard = false ∧ t.done = true ∧ t.seq = .idle

/-- What a successful ENCODE leaves unchanged: every register and every buffer byte but STATUS (where DEV_READY, CMD_DROPPED and RX_OVF
stay), the result registers, TXLEN and the frame's own TX_FRAME cells, and everything inside the block. -/
def Obligations.EncodeLeavesTheRestUnchanged : Prop :=
  ∀ (s t : State) (g : BitVec 4), s.Inv → s.seq = .idle → s.plen.toNat ≤ 252 → exec (.encodeFrame g) s = .next t →
    (∀ a : Addr, resultAddr a = false → a ≠ 0x00C → a ≠ 0x00D → ¬ (0x200 ≤ a.toNat ∧ a.toNat < 0x200 + 7 + s.plen.toNat) →
      t.memRead a = s.memRead a) ∧
    t.devReady = s.devReady ∧ t.cmdDropped = s.cmdDropped ∧ t.rxOvf = s.rxOvf ∧ SameInside s t

/-- R131: ENCODE with PLEN > 252 is refused with ENCODING_ERROR and builds no frame: nothing but the completion's registers changes. -/
def Obligations.EncodeRefusesALongPayload : Prop :=
  ∀ (s : State) (g : BitVec 4), s.seq = .idle → 252 < s.plen.toNat →
    exec (.encodeFrame g) s = .next { s with
      done := true, csumOk := false, noCard := false, resCode := .encodingError, resStatus := 0x00, resPlen := 0x00
      tmr := false, iphase := .none }

/-- R151, R242: DECODE reports the decode of RX_BUF[0 .. RX_COUNT) against OPC0, OPC1, CFG and CHECK_VAL in the result registers, and NO_CARD
exactly for an OK decode of opcode 01 0C with five zero bytes. -/
def Obligations.DecodeReportsTheResponse : Prop :=
  ∀ (s : State) (g : BitVec 4) (r : DecodeResult), s.mem.wf = true → s.seq = .idle →
    r = decodeResponse
      { op0 := s.opc0, op1 := s.opc1, chkEn := s.checkEn, chkVal := s.checkVal, verify := s.verifyCsum }
      (s.cells rxBuf s.rxCount.toNat) →
    ∃ t, exec (.decodeFrame g) s = .next t ∧
      t.resCode = r.code ∧ t.resStatus = r.status ∧ t.resPlen.toNat = r.pl.length ∧
      (∀ i, i < r.pl.length → t.cell resPl i = byteAt r.pl i) ∧
      (∀ i, r.pl.length ≤ i → i < 251 → t.cell resPl i = s.cell resPl i) ∧
      t.csumOk = r.csumOk ∧ t.done = true ∧ t.seq = .idle ∧
      (t.noCard = true ↔ r.code = .ok ∧ s.opc0 = 0x01 ∧ s.opc1 = 0x0C ∧ r.pl = [0x00, 0x00, 0x00, 0x00, 0x00])

/-- What DECODE leaves unchanged: every register and buffer byte but STATUS (where DEV_READY, CMD_DROPPED and RX_OVF stay), the result
registers and the RES_PL cells of the payload it extracted (RX_BUF and RX_COUNT are not modified), and everything inside the block. -/
def Obligations.DecodeLeavesTheRestUnchanged : Prop :=
  ∀ (s t : State) (g : BitVec 4), s.Inv → s.seq = .idle → exec (.decodeFrame g) s = .next t →
    (∀ a : Addr, resultAddr a = false →
      ¬ (0x600 ≤ a.toNat ∧ a.toNat < 0x600 + (decodeResponse s.decodeCtx s.raw).pl.length) → t.memRead a = s.memRead a) ∧
    t.devReady = s.devReady ∧ t.cmdDropped = s.cmdDropped ∧ t.rxOvf = s.rxOvf ∧ SameInside s t

/-- R224: OP = 5, 6 or 7 completes at once with BAD_COMMAND while BUSY = 0, builds, sends and reads nothing, and is dropped while BUSY = 1. -/
def Obligations.ReservedOpsReportBadCommand : Prop :=
  ∀ (s : State) (g : BitVec 4) (i : Instr), i = .rsvd5 g ∨ i = .rsvd6 g ∨ i = .rsvd7 g →
    (s.seq = .idle → exec i s = .next { s with
      done := true, csumOk := false, noCard := false, resCode := .badCommand, resStatus := 0x00, resPlen := 0x00
      tmr := false, iphase := .none }) ∧
    (s.seq ≠ .idle → exec i s = .next { s with cmdDropped := true })

/-- R214: OPEN with DEV_READY = 1 completes at once with OK: no frame is built or sent, RES_STATUS and RES_PLEN are 0. -/
def Obligations.OpenWhenReadyCompletesAtOnce : Prop :=
  ∀ (s : State) (g : BitVec 4), s.seq = .idle → s.devReady = true →
    exec (.openSession g) s = .next { s with
      done := true, csumOk := false, noCard := false, resCode := .ok, resStatus := 0x00, resPlen := 0x00
      tmr := false, iphase := .none }

/-- R211: OPEN with DEV_READY = 0 starts the GetInfo exchange with its own opcode and check, whatever the command registers hold. It leaves
unchanged every register and buffer byte but STATUS (where DEV_READY and the sticky flags stay), RES_CODE, RX_COUNT, TXLEN, STATE, RXQLVL
and the frame's seven TX_FRAME cells, and it emits nothing. -/
def Obligations.OpenStartsTheGetInfoExchange : Prop :=
  ∀ (s : State) (g : BitVec 4), s.Inv → s.seq = .idle → s.devReady = false →
    ∃ t, exec (.openSession g) s = .next t ∧
      t.iphase = .getInfo ∧ t.seq = .tx ∧ t.txIdx = 0 ∧
      t.lat = { op0 := 0x01, op1 := 0x02, chkEn := true, chkVal := 0x00 } ∧
      t.lastFrame = [0xAA, 0xDD, 0x00, 0x03, 0x01, 0x02, 0x03] ∧
      t.rxCount = 0 ∧ t.rxq = (if s.flush then [] else s.rxq) ∧
      t.done = false ∧ t.resCode = .none ∧ t.csumOk = false ∧ t.noCard = false ∧ t.devReady = false ∧
      (∀ a : Addr, startAddr a = false → ¬ (0x200 ≤ a.toNat ∧ a.toNat < 0x207) → t.memRead a = s.memRead a) ∧
      t.cmdDropped = s.cmdDropped ∧ t.rxOvf = s.rxOvf ∧ t.tmr = s.tmr ∧ t.params = s.params ∧ t.events = s.events ∧
      t.wire = s.wire ∧ t.hostReads = s.hostReads

/-- R193, R171: each of the six catalog commands, with a payload of its shape and BUSY = 0, starts its exchange: the frame of its opcode and
payload, the context latched from CFG.CHECK_EN and CHECK_VAL, an empty capture, and RXQ flushed only if CFG.FLUSH = 1. -/
def Obligations.CatalogCommandStartsItsExchange : Prop :=
  ∀ (s : State) (c : Catalog), s.mem.wf = true → s.seq = .idle → CommandShape c s.plen.toNat →
    ∃ t, exec c.instr s = .next t ∧
      t.lastFrame = [0xAA, 0xDD, 0x00, BitVec.ofNat 8 (s.plen.toNat + 3), c.op0, c.op1] ++ s.reqPayload
        ++ [xorfold ([c.op0, c.op1] ++ s.reqPayload)] ∧
      t.txLen.toNat = 7 + s.plen.toNat ∧
      t.lat = { op0 := c.op0, op1 := c.op1, chkEn := s.checkEn, chkVal := s.checkVal } ∧
      t.rxCount = 0 ∧ t.rxq = (if s.flush then [] else s.rxq) ∧ t.txIdx = 0 ∧ t.seq = .tx ∧ t.iphase = .none ∧
      t.done = false ∧ t.resCode = .none ∧ t.csumOk = false ∧ t.noCard = false

/-- What the start of a catalog command, as itself or as the EXECUTE that selects it, leaves unchanged: the command registers, every buffer
byte but the frame's TX_FRAME cells (RX_BUF cells keep their old values), DEV_READY and the sticky flags, the wire. -/
def Obligations.CatalogStartLeavesTheRestUnchanged : Prop :=
  ∀ (s t : State) (c : Catalog) (i : Instr), s.Inv → s.seq = .idle → CommandShape c s.plen.toNat →
    (i = c.instr ∨ ∃ g, i = .execute g ∧ s.opc0 = c.op0 ∧ s.opc1 = c.op1) → exec i s = .next t →
    (∀ a : Addr, startAddr a = false → ¬ (0x200 ≤ a.toNat ∧ a.toNat < 0x200 + 7 + s.plen.toNat) → t.memRead a = s.memRead a) ∧
    t.devReady = s.devReady ∧ t.cmdDropped = s.cmdDropped ∧ t.rxOvf = s.rxOvf ∧ t.tmr = s.tmr ∧ t.params = s.params ∧
    t.events = s.events ∧ t.wire = s.wire ∧ t.hostReads = s.hostReads

/-- R171, R235: a catalog command whose payload length has not its shape completes at once with ENCODING_ERROR, and changes nothing but the
completion's registers: nothing is built or sent. -/
def Obligations.CatalogCommandRefusesAWrongShape : Prop :=
  ∀ (s : State) (c : Catalog), s.seq = .idle → ¬ CommandShape c s.plen.toNat →
    exec c.instr s = .next { s with
      done := true, csumOk := false, noCard := false, resCode := .encodingError, resStatus := 0x00, resPlen := 0x00
      tmr := false, iphase := .none }

/-- R170, R171: Dispatch's checks in their order, with the payload lengths of each opcode, and what EXECUTE does with its answer: a code other
than OK completes at once with that code and changes nothing but the completion's registers, and OK starts the exchange of OPC0, OPC1 and
REQ_PL[0 .. PLEN), its byte values unchanged. -/
def Obligations.ExecuteFollowsDispatch : Prop :=
  (∀ (op0 op1 : Byte) (n : Nat),
    (opcode16 op0 op1 ∉ [0x0102, 0x0103, 0x0104, 0x010C, 0x020C, 0x030C] → dispatch op0 op1 n = .unknownOpcode) ∧
    ∀ c : Catalog, op0 = c.op0 → op1 = c.op1 →
      (252 < n → dispatch op0 op1 n = .encodingError) ∧
      (n ≤ 252 → ¬ CommandShape c n → dispatch op0 op1 n = .encodingError) ∧
      (CommandShape c n → dispatch op0 op1 n = .ok)) ∧
  ∀ (s : State) (g : BitVec 4), s.mem.wf = true → s.seq = .idle →
    (dispatch s.opc0 s.opc1 s.plen.toNat ≠ .ok →
      exec (.execute g) s = .next { s with
        done := true, csumOk := false, noCard := false, resCode := dispatch s.opc0 s.opc1 s.plen.toNat
        resStatus := 0x00, resPlen := 0x00, tmr := false, iphase := .none }) ∧
    (dispatch s.opc0 s.opc1 s.plen.toNat = .ok →
      ∃ t, exec (.execute g) s = .next t ∧
        t.lastFrame = [0xAA, 0xDD, 0x00, BitVec.ofNat 8 (s.plen.toNat + 3), s.opc0, s.opc1] ++ s.reqPayload
          ++ [xorfold ([s.opc0, s.opc1] ++ s.reqPayload)] ∧
        t.lat = { op0 := s.opc0, op1 := s.opc1, chkEn := s.checkEn, chkVal := s.checkVal } ∧
        t.rxCount = 0 ∧ t.rxq = (if s.flush then [] else s.rxq) ∧ t.txIdx = 0 ∧ t.seq = .tx ∧ t.iphase = .none ∧ t.resCode = .none)

/-- R196: the TX step of LINK hands over TX_FRAME[tx_idx], after the last byte arms the settle timer in WAIT1, and changes nothing else. So
the bytes still to be sent reach the wire in index order, in exactly TXLEN - tx_idx steps. -/
def Obligations.TransmitPhaseSendsTheWholeFrame : Prop :=
  (∀ (s : State) (rest : List Event), s.events = .linkAccept :: rest → s.seq = .tx →
    step s = .next { s with
      events := rest
      wire := s.wire ++ [s.cell txFrame s.txIdx]
      txIdx := s.txIdx + 1
      seq := if s.txIdx + 1 = s.txLen.toNat then .wait1 else .tx
      tmr := if s.txIdx + 1 = s.txLen.toNat then true else s.tmr }) ∧
  ∀ (s : State) (rest : List Event), s.Inv → s.seq = .tx →
    s.events = List.replicate (s.txLen.toNat - s.txIdx) .linkAccept ++ rest →
    Host.Core.run Sys2Proof.core (s.txLen.toNat - s.txIdx) s = .next { s with
      events := rest
      wire := s.wire ++ s.lastFrame.drop s.txIdx
      txIdx := s.txLen.toNat
      seq := .wait1
      tmr := true }

/-- R201: only SRST or a cold reset cancels an exchange. From TX only its last LINK step leaves, to WAIT1, from WAIT1 and WAIT2 only a TIMER
step, and apart from a reset a step that leaves BUSY for IDLE completes the operation. While the exchange goes on, its latched context and
OPEN's phase stay. -/
def Obligations.OnlyAResetCancelsAnExchange : Prop :=
  ∀ (s t : State) (e : Event) (rest : List Event), s.Inv → s.events = e :: rest → step s = .next t → s.seq ≠ .idle →
    (∀ v, v.getLsbD 7 = true → e ≠ .hostWrite 0x000 v) → e ≠ .coldReset →
    ((t.seq = s.seq ∨ (s.seq = .tx ∧ e = .linkAccept ∧ t.seq = .wait1) ∨ (s.seq = .wait1 ∧ e = .timerExpire ∧ t.seq = .wait2)) ∧
        t.lat = s.lat ∧ t.iphase = s.iphase) ∨
      (s.seq.waits = true ∧ e = .timerExpire ∧ t.seq = .idle ∧ t.done = true ∧ t.resCode ≠ .none) ∨
      (s.seq = .wait2 ∧ e = .timerExpire ∧ s.iphase = .getInfo ∧ t.seq = .tx ∧ t.iphase = .setLed)

/-- R85: CaptureAppend puts the bytes that still fit at RX_BUF[RX_COUNT ..), saturates RX_COUNT at 260, and changes nothing else. -/
def Obligations.CaptureAppendSaturatesAt260 : Prop :=
  ∀ (s : State) (bytes : List Byte), s.mem.wf = true → s.rxCount.toNat ≤ 260 →
    (s.captureAppend bytes).rxCount.toNat = min 260 (s.rxCount.toNat + bytes.length) ∧
    (∀ i, i < 260 → (s.captureAppend bytes).cell rxBuf i =
      if s.rxCount.toNat ≤ i ∧ i < s.rxCount.toNat + bytes.length then byteAt bytes (i - s.rxCount.toNat) else s.cell rxBuf i) ∧
    (∀ a, rxBuf.holds a = false → (s.captureAppend bytes).mem.get a = s.mem.get a) ∧
    { s.captureAppend bytes with mem := s.mem, rxCount := s.rxCount } = s

/-- R197: the first read takes at most READ1_MAX bytes into the capture. With no byte read the exchange ends with TIMEOUT, else the second
settle delay starts. -/
def Obligations.FirstReadCapturesOrTimesOut : Prop :=
  ∀ (s : State) (rest : List Event), s.Inv → s.events = .timerExpire :: rest → s.seq = .wait1 →
    (s.rxq = [] →
      ∃ t, step s = .next t ∧ t.resCode = .timeout ∧ t.resStatus = 0x00 ∧ t.resPlen = 0x00 ∧ t.csumOk = false ∧ t.noCard = false ∧
        t.rxCount = 0 ∧ t.seq = .idle ∧ t.tmr = false ∧ t.iphase = .none ∧ t.done = true ∧ t.devReady = s.devReady ∧
        t.rxq = [] ∧ t.mem = s.mem ∧ t.wire = s.wire) ∧
    (s.rxq ≠ [] →
      ∃ t, step s = .next t ∧ t.seq = .wait2 ∧ t.tmr = true ∧ t.rxq = s.rxq.drop s.params.read1Max ∧
        t.raw = (s.rxq.take s.params.read1Max).take 260 ∧ t.resCode = .none ∧ t.done = false ∧ t.iphase = s.iphase ∧
        t.lat = s.lat ∧ t.wire = s.wire)

/-- The second read of an EXECUTE takes at most 1000 more bytes, decodes the capture against the latched context, and completes with the
decode's code, its status, payload and checksum flag, and NO_CARD exactly for a zero token. -/
def Obligations.SecondReadDecodesAndCompletes : Prop :=
  ∀ (s : State) (rest : List Event) (r : DecodeResult), s.Inv → s.events = .timerExpire :: rest → s.seq = .wait2 → s.iphase = .none →
    r = decodeResponse
      { op0 := s.lat.op0, op1 := s.lat.op1, chkEn := s.lat.chkEn, chkVal := s.lat.chkVal, verify := s.verifyCsum }
      ((s.raw ++ s.rxq.take 1000).take 260) →
    ∃ t, step s = .next t ∧ t.raw = (s.raw ++ s.rxq.take 1000).take 260 ∧ t.rxq = s.rxq.drop 1000 ∧
      t.resCode = r.code ∧ t.resStatus = r.status ∧ t.resPlen.toNat = r.pl.length ∧
      (∀ i, i < r.pl.length → t.cell resPl i = byteAt r.pl i) ∧
      (∀ i, r.pl.length ≤ i → i < 251 → t.cell resPl i = s.cell resPl i) ∧
      t.csumOk = r.csumOk ∧
      (t.noCard = true ↔ r.code = .ok ∧ s.lat.op0 = 0x01 ∧ s.lat.op1 = 0x0C ∧ r.pl = [0x00, 0x00, 0x00, 0x00, 0x00]) ∧
      t.seq = .idle ∧ t.tmr = false ∧ t.iphase = .none ∧ t.done = true ∧ t.devReady = s.devReady

/-- R212 with R199: when OPEN's GetInfo exchange ends OK, its decode r is committed, the SetLed(green) exchange starts in the same step, and no
completion is reported. The result registers and the RX_BUF cells show the GetInfo exchange until SetLed's overwrites them, RX_COUNT is 0, and
RXQ is what the read left, emptied if CFG.FLUSH = 1. -/
def Obligations.OpenGoesOnWithSetLedGreen : Prop :=
  ∀ (s : State) (rest : List Event) (r : DecodeResult), s.Inv → s.events = .timerExpire :: rest → s.seq = .wait2 → s.iphase = .getInfo →
    r = decodeResponse { op0 := 0x01, op1 := 0x02, chkEn := true, chkVal := 0x00, verify := s.verifyCsum }
      ((s.raw ++ s.rxq.take 1000).take 260) →
    r.code = .ok →
    ∃ t, step s = .next t ∧ t.iphase = .setLed ∧ t.seq = .tx ∧ t.txIdx = 0 ∧ t.tmr = false ∧
      t.lat = { op0 := 0x01, op1 := 0x04, chkEn := true, chkVal := 0x00 } ∧
      t.lastFrame = [0xAA, 0xDD, 0x00, 0x04, 0x01, 0x04, 0x02, 0x07] ∧
      t.rxCount = 0 ∧ t.done = false ∧ t.resCode = .none ∧ t.devReady = false ∧ t.noCard = false ∧
      t.rxq = (if s.flush then [] else s.rxq.drop 1000) ∧
      t.resStatus = r.status ∧ t.resPlen.toNat = r.pl.length ∧ t.csumOk = r.csumOk ∧
      (∀ i, i < r.pl.length → t.cell resPl i = byteAt r.pl i) ∧
      (∀ i, r.pl.length ≤ i → i < 251 → t.cell resPl i = s.cell resPl i) ∧
      (∀ i, i < 260 → t.cell rxBuf i =
        if s.rxCount.toNat ≤ i ∧ i < s.rxCount.toNat + (s.rxq.take 1000).length then byteAt s.rxq (i - s.rxCount.toNat)
        else s.cell rxBuf i) ∧
      (∀ i, 8 ≤ i → i < 259 → t.cell txFrame i = s.cell txFrame i) ∧ t.wire = s.wire

/-- R213 and the end of R199: an OPEN whose SetLed exchange ends OK sets DEV_READY and finishes with OK. An OPEN whose exchange fails finishes
with that exchange's code, sends nothing more and leaves DEV_READY 0. Either way the result registers and the capture show that exchange. -/
def Obligations.OpenEndsWithDevReadyOnlyOnSuccess : Prop :=
  ∀ (s : State) (rest : List Event) (r : DecodeResult), s.Inv → s.events = .timerExpire :: rest → s.seq = .wait2 →
    r = decodeResponse
      { op0 := s.lat.op0, op1 := s.lat.op1, chkEn := s.lat.chkEn, chkVal := s.lat.chkVal, verify := s.verifyCsum }
      ((s.raw ++ s.rxq.take 1000).take 260) →
    ((s.iphase = .setLed ∧ r.code = .ok) ∨ (s.iphase ≠ .none ∧ r.code ≠ .ok)) →
    ∃ t, step s = .next t ∧ t.devReady = decide (r.code = .ok) ∧ t.resCode = r.code ∧ t.resStatus = r.status ∧
      t.resPlen.toNat = r.pl.length ∧ (∀ i, i < r.pl.length → t.cell resPl i = byteAt r.pl i) ∧
      (∀ i, r.pl.length ≤ i → i < 251 → t.cell resPl i = s.cell resPl i) ∧
      t.csumOk = r.csumOk ∧ t.noCard = false ∧ t.raw = (s.raw ++ s.rxq.take 1000).take 260 ∧ t.rxq = s.rxq.drop 1000 ∧
      t.done = true ∧ t.seq = .idle ∧ t.tmr = false ∧ t.iphase = .none ∧ t.lastFrame = s.lastFrame ∧ t.wire = s.wire

/-- The frame of a TIMER step: which addresses may read differently after it, case by case. A first read that returns nothing completes the
operation. One that returns bytes touches the capture and RXQ only. A second read touches the capture, RXQ and the result registers with
the payload's RES_PL cells, and either completes or starts OPEN's second exchange, which builds its 8-byte frame. In every case the command
registers, the sticky flags, the parameters, the wire and the HOST's side stay. -/
def Obligations.TimerStepLeavesTheCommandUnchanged : Prop :=
  ∀ (s t : State) (rest : List Event) (r : DecodeResult), s.Inv → s.events = .timerExpire :: rest → step s = .next t →
    r = decodeResponse
      { op0 := s.lat.op0, op1 := s.lat.op1, chkEn := s.lat.chkEn, chkVal := s.lat.chkVal, verify := s.verifyCsum }
      ((s.raw ++ s.rxq.take 1000).take 260) →
    (∀ a : Addr, commandAddr a = true → t.memRead a = s.memRead a) ∧
    t.cmdDropped = s.cmdDropped ∧ t.rxOvf = s.rxOvf ∧ t.params = s.params ∧ t.events = rest ∧ t.wire = s.wire ∧
    t.hostReads = s.hostReads ∧
    (s.seq = .wait1 → s.rxq = [] → ∀ a : Addr, resultAddr a = false → a ≠ 0x00E → t.memRead a = s.memRead a) ∧
    (s.seq = .wait1 → s.rxq ≠ [] → ∀ a : Addr, captureAddr a = false → a ≠ 0x00E →
      ¬ (0x400 + s.rxCount.toNat ≤ a.toNat ∧ a.toNat < 0x400 + t.rxCount.toNat) → t.memRead a = s.memRead a) ∧
    (s.seq = .wait2 → t.seq = .idle → ∀ a : Addr, captureAddr a = false → resultAddr a = false → a ≠ 0x00E →
      ¬ (0x400 + s.rxCount.toNat ≤ a.toNat ∧ a.toNat < 0x400 + t.rxCount.toNat) →
      ¬ (0x600 ≤ a.toNat ∧ a.toNat < 0x600 + r.pl.length) → t.memRead a = s.memRead a) ∧
    (s.seq = .wait2 → t.seq ≠ .idle → ∀ a : Addr, startAddr a = false → a ≠ 0x008 → a ≠ 0x009 →
      ¬ (0x400 + s.rxCount.toNat ≤ a.toNat ∧ a.toNat < 0x400 + min 260 (s.rxCount.toNat + min 1000 s.rxq.length)) →
      ¬ (0x600 ≤ a.toNat ∧ a.toNat < 0x600 + r.pl.length) → ¬ (0x200 ≤ a.toNat ∧ a.toNat < 0x208) → t.memRead a = s.memRead a) ∧
    (t.seq ≠ .tx → t.txIdx = s.txIdx ∧ t.lat = s.lat)

/-- R82: a delivered byte joins RXQ, or is dropped with RX_OVF when RXQ is full, in every state of SEQ. Nothing else changes. -/
def Obligations.DeliveredByteJoinsTheQueue : Prop :=
  ∀ (s : State) (b : Byte) (rest : List Event), s.events = .devByte b :: rest →
    (s.rxq.length < s.params.rxqDepth → step s = .next { s with events := rest, rxq := s.rxq ++ [b] }) ∧
    (s.params.rxqDepth ≤ s.rxq.length → step s = .next { s with events := rest, rxOvf := true })

/-- R71: a HOST read returns the current value at the address and changes nothing of the block. The register map of R21, with its multi-byte
values low byte first (R74, R76), the fields of CFG (R33), the numbers of the result codes (R230) and the sequencer view STATE (R40). -/
def Obligations.HostReadReturnsTheValueAndChangesNothing : Prop :=
  ∀ s : State,
    (∀ (a : Addr) (rest : List Event), s.events = .hostRead a :: rest →
      step s = .next { s with events := rest, hostReads := s.hostReads ++ [s.memRead a] }) ∧
    ((s.memRead 0x002).getLsbD 0 = s.checkEn ∧ (s.memRead 0x002).getLsbD 1 = s.verifyCsum ∧ (s.memRead 0x002).getLsbD 2 = s.irqEn ∧
      (s.memRead 0x002).getLsbD 3 = s.flush ∧ (s.memRead 0x002).extractLsb' 4 4 = 0) ∧
    (s.memRead 0x003 = s.checkVal ∧ s.memRead 0x004 = s.opc0 ∧ s.memRead 0x005 = s.opc1 ∧ s.memRead 0x006 = s.plen ∧
      s.memRead 0x008 = s.resStatus ∧ s.memRead 0x009 = s.resPlen) ∧
    ((s.memRead 0x007 = 0x00 ↔ s.resCode = .ok) ∧ (s.memRead 0x007 = 0x01 ↔ s.resCode = .timeout) ∧
      (s.memRead 0x007 = 0x02 ↔ s.resCode = .badLength) ∧ (s.memRead 0x007 = 0x03 ↔ s.resCode = .badFormat) ∧
      (s.memRead 0x007 = 0x04 ↔ s.resCode = .deviceStatus) ∧ (s.memRead 0x007 = 0x05 ↔ s.resCode = .encodingError) ∧
      (s.memRead 0x007 = 0x06 ↔ s.resCode = .unknownOpcode) ∧ (s.memRead 0x007 = 0x07 ↔ s.resCode = .badChecksum) ∧
      (s.memRead 0x007 = 0x08 ↔ s.resCode = .badCommand) ∧ (s.memRead 0x007 = 0xFF ↔ s.resCode = .none)) ∧
    (((s.memRead 0x00E).extractLsb' 0 2 = 0 ↔ s.seq = .idle) ∧ ((s.memRead 0x00E).extractLsb' 0 2 = 1 ↔ s.seq = .tx) ∧
      ((s.memRead 0x00E).extractLsb' 0 2 = 2 ↔ s.seq = .wait1) ∧ ((s.memRead 0x00E).extractLsb' 0 2 = 3 ↔ s.seq = .wait2) ∧
      ((s.memRead 0x00E).extractLsb' 2 2 = 0 ↔ s.iphase = .none) ∧ ((s.memRead 0x00E).extractLsb' 2 2 = 1 ↔ s.iphase = .getInfo) ∧
      ((s.memRead 0x00E).extractLsb' 2 2 = 2 ↔ s.iphase = .setLed) ∧ (s.memRead 0x00E).extractLsb' 4 4 = 0) ∧
    (s.memRead 0x00A).toNat + 256 * (s.memRead 0x00B).toNat = s.rxCount.toNat ∧
    (s.memRead 0x00C).toNat + 256 * (s.memRead 0x00D).toNat = s.txLen.toNat ∧
    (s.memRead 0x010).toNat + 256 * (s.memRead 0x011).toNat = min s.rxq.length 65535 ∧
    (∀ i, i < 252 → s.memRead (BitVec.ofNat 12 (0x100 + i)) = s.cell reqPl i) ∧
    (∀ i, i < 259 → s.memRead (BitVec.ofNat 12 (0x200 + i)) = s.cell txFrame i) ∧
    (∀ i, i < 260 → s.memRead (BitVec.ofNat 12 (0x400 + i)) = s.cell rxBuf i) ∧
    (∀ i, i < 251 → s.memRead (BitVec.ofNat 12 (0x600 + i)) = s.cell resPl i)

/-- R72 and R21: an unmapped address reads 00 and its HOST writes change nothing, and neither do those to a read-only register or buffer. -/
def Obligations.UnmappedReadsZeroAndIgnoresWrites : Prop :=
  ∀ (s : State) (a : Addr),
    (unmappedAddr a = true → s.memRead a = 0x00) ∧
    ∀ (v : Byte) (rest : List Event), s.events = .hostWrite a v :: rest → unmappedAddr a = true ∨ readOnlyAddr a = true →
      step s = .next { s with events := rest }

/-- R73: reserved bits read 0, and HOST writes to them are ignored: the step of a write is the step of the same write with the reserved bits
cleared, or changes nothing. -/
def Obligations.ReservedBitsReadZeroAndIgnoreWrites : Prop :=
  ∀ (s : State) (v : Byte) (rest : List Event),
    (s.memRead 0x000 = 0x00 ∧ (s.memRead 0x001).getLsbD 7 = false ∧ (s.memRead 0x002).extractLsb' 4 4 = 0 ∧
      (s.memRead 0x00B).extractLsb' 1 7 = 0 ∧ (s.memRead 0x00D).extractLsb' 1 7 = 0 ∧ (s.memRead 0x00E).extractLsb' 4 4 = 0 ∧
      s.memRead 0x00F = 0x00) ∧
    step { s with events := .hostWrite 0x000 v :: rest } = step { s with events := .hostWrite 0x000 (v &&& 0x87) :: rest } ∧
    step { s with events := .hostWrite 0x001 v :: rest } = step { s with events := .hostWrite 0x001 (v &&& 0x7F) :: rest } ∧
    step { s with events := .hostWrite 0x002 v :: rest } = step { s with events := .hostWrite 0x002 (v &&& 0x0F) :: rest } ∧
    step { s with events := .hostWrite 0x00B v :: rest } = step { s with events := .hostWrite 0x00B (v &&& 0x01) :: rest } ∧
    step { s with events := .hostWrite 0x00D v :: rest } = .next { s with events := rest } ∧
    step { s with events := .hostWrite 0x00E v :: rest } = .next { s with events := rest } ∧
    step { s with events := .hostWrite 0x00F v :: rest } = .next { s with events := rest }

/-- R51: while BUSY = 1 a HOST write to an RW-L register or buffer is ignored and no flag is set, and reads are not blocked: RX_BUF and
RX_COUNT show the capture in progress. -/
def Obligations.BusyLocksTheCommandRegisters : Prop :=
  ∀ (s : State) (a : Addr) (rest : List Event), s.seq ≠ .idle →
    (∀ v, s.events = .hostWrite a v :: rest → lockedAddr a = true → step s = .next { s with events := rest }) ∧
    (s.events = .hostRead a :: rest → ∃ t, step s = .next t ∧ ∀ b, t.memRead b = s.memRead b) ∧
    (∀ i, i < 260 → s.memRead (BitVec.ofNat 12 (0x400 + i)) = s.cell rxBuf i) ∧
    (s.memRead 0x00A).toNat + 256 * (s.memRead 0x00B).toNat = s.rxCount.toNat

/-- The step of a HOST write to CHECK_VAL, OPC0, OPC1, PLEN, a REQ_PL or an RX_BUF cell while BUSY = 0: the value reads back, CFG reads back
its low four bits, every other address reads as before, and nothing inside the block changes. -/
def Obligations.IdleWriteReadsBackAndTouchesNothingElse : Prop :=
  ∀ (s : State) (a : Addr) (v : Byte) (rest : List Event), s.Inv → s.events = .hostWrite a v :: rest → s.seq = .idle →
    lockedAddr a = true → a ≠ 0x00A → a ≠ 0x00B →
    ∃ t, step s = .next t ∧ t.memRead a = (if a = 0x002 then v &&& 0x0F else v) ∧ (∀ b : Addr, b ≠ a → t.memRead b = s.memRead b) ∧
      SameInside { s with events := rest } t

/-- R37: a HOST write to RXCNT_L or RXCNT_H replaces those bits of RX_COUNT and clamps it to 260, while BUSY = 0. While BUSY = 1 it is
ignored. -/
def Obligations.RxCountWritesAreClamped : Prop :=
  ∀ (s : State) (v : Byte) (rest : List Event),
    (s.events = .hostWrite 0x00A v :: rest → s.seq = .idle →
      ∃ n : Count, step s = .next { s with events := rest, rxCount := n } ∧
        n.toNat = min 260 (s.rxCount.toNat / 256 * 256 + v.toNat)) ∧
    (s.events = .hostWrite 0x00B v :: rest → s.seq = .idle →
      ∃ n : Count, step s = .next { s with events := rest, rxCount := n } ∧
        n.toNat = min 260 (v.toNat % 2 * 256 + s.rxCount.toNat % 256)) ∧
    (s.events = .hostWrite 0x00A v :: rest ∨ s.events = .hostWrite 0x00B v :: rest → s.seq ≠ .idle →
      step s = .next { s with events := rest }) ∧
    (s.memRead 0x00A).toNat = s.rxCount.toNat % 256 ∧ (s.memRead 0x00B).toNat = s.rxCount.toNat / 256

/-- R32: a HOST write of v to STATUS clears DONE, CMD_DROPPED and RX_OVF as v[1], v[5] and v[6] say, whether or not BUSY = 1, and nothing
else. Clearing DONE lowers irq. -/
def Obligations.StatusWriteClearsOnlyTheNamedFlags : Prop :=
  ∀ (s : State) (v : Byte) (rest : List Event), s.events = .hostWrite 0x001 v :: rest →
    ∃ t, step s = .next t ∧
      t = { s with
        events := rest
        done := if v.getLsbD 1 then false else s.done
        cmdDropped := if v.getLsbD 5 then false else s.cmdDropped
        rxOvf := if v.getLsbD 6 then false else s.rxOvf } ∧
      (v.getLsbD 1 = true → t.irq = false)

/-- R48, and the bits of R24: what STATUS reads as, and irq = STATUS.DONE and CFG.IRQ_EN in terms of what the HOST reads. -/
def Obligations.StatusReadsItsFlagsAndIrqFollowsDone : Prop :=
  ∀ s : State,
    (s.memRead 0x001).getLsbD 0 = decide (s.seq ≠ .idle) ∧ (s.memRead 0x001).getLsbD 1 = s.done ∧
    (s.memRead 0x001).getLsbD 2 = s.devReady ∧ (s.memRead 0x001).getLsbD 3 = s.csumOk ∧ (s.memRead 0x001).getLsbD 4 = s.noCard ∧
    (s.memRead 0x001).getLsbD 5 = s.cmdDropped ∧ (s.memRead 0x001).getLsbD 6 = s.rxOvf ∧ (s.memRead 0x001).getLsbD 7 = false ∧
    s.irq = ((s.memRead 0x001).getLsbD 1 && (s.memRead 0x002).getLsbD 2)

/-- R141: Decode's checks in their order, first failure wins, with the record of a failure, and the status, payload and checksum flag of a
buffer that passes them. -/
def Obligations.DecodeChecksInOrder : Prop :=
  ∀ (ctx : DecodeCtx) (raw : List Byte),
    (raw.length < 4 → decodeResponse ctx raw = { code := .badLength, status := 0x00, pl := [], csumOk := false }) ∧
    (4 ≤ raw.length → (byteAt raw 3).toNat + 4 ≠ raw.length →
      decodeResponse ctx raw = { code := .badLength, status := 0x00, pl := [], csumOk := false }) ∧
    (4 ≤ raw.length → (byteAt raw 3).toNat + 4 = raw.length →
      (slice raw 0 3 ≠ [0xAA, 0xDD, 0x00] → decodeResponse ctx raw = { code := .badFormat, status := 0x00, pl := [], csumOk := false }) ∧
      (slice raw 0 3 = [0xAA, 0xDD, 0x00] →
        (raw.length < 6 ∨ byteAt raw 4 ≠ ctx.op0 ∨ byteAt raw 5 ≠ ctx.op1 →
          decodeResponse ctx raw = { code := .badFormat, status := 0x00, pl := [], csumOk := false }) ∧
        (byteAt raw 4 = ctx.op0 → byteAt raw 5 = ctx.op1 →
          (raw.length = 6 → decodeResponse ctx raw = { code := .badLength, status := 0x00, pl := [], csumOk := false }) ∧
          (7 ≤ raw.length →
            (ctx.verify = true → xorfold (slice raw 4 raw.length) ≠ 0x00 →
              decodeResponse ctx raw = { code := .badChecksum, status := 0x00, pl := [], csumOk := false }) ∧
            (ctx.verify = false ∨ xorfold (slice raw 4 raw.length) = 0x00 →
              decodeResponse ctx raw =
                { code := if ctx.chkEn = true ∧ byteAt raw 6 ≠ ctx.chkVal then .deviceStatus else .ok
                  status := byteAt raw 6
                  pl := if ctx.op0 = 0x01 ∧ ctx.op1 = 0x0C then slice raw (raw.length - 6) (raw.length - 1)
                    else slice raw 7 (raw.length - 1)
                  csumOk := decide (xorfold (slice raw 4 raw.length) = 0x00) })))))

/-- A buffer of 260 bytes or more fails with BAD_LENGTH whatever it holds, so a saturated capture decodes as the true one would. A decode that
reaches status extraction gives five payload bytes for 01 0C and n - 8 for every other opcode, never more than RES_PL holds. -/
def Obligations.LengthsOfBuffersAndExtractedPayloads : Prop :=
  ∀ (ctx : DecodeCtx) (raw : List Byte),
    (260 ≤ raw.length →
      decodeResponse ctx raw = { code := .badLength, status := 0x00, pl := [], csumOk := false } ∧
      decodeResponse ctx (raw.take 260) = decodeResponse ctx raw) ∧
    ((decodeResponse ctx raw).code = .ok ∨ (decodeResponse ctx raw).code = .deviceStatus →
      (ctx.op0 = 0x01 → ctx.op1 = 0x0C → (decodeResponse ctx raw).pl.length = 5) ∧
      (¬ (ctx.op0 = 0x01 ∧ ctx.op1 = 0x0C) → (decodeResponse ctx raw).pl.length = raw.length - 8) ∧
      (decodeResponse ctx raw).pl.length ≤ 251)

/-- The frame round trip: the response frame of an opcode and data, with status 00 and the XOR trailing byte, decodes to OK with that data,
with or without VERIFY_CSUM. For ReadToken it gives the last five bytes of echo, status and data when there are that many (log 13), which is
the data exactly when the data has five bytes. -/
def Obligations.ResponseFrameRoundTrips : Prop :=
  ∀ (o0 o1 : Byte) (d : List Byte) (v : Bool) (r : DecodeResult), d.length ≤ 251 →
    r = decodeResponse { op0 := o0, op1 := o1, chkEn := true, chkVal := 0x00, verify := v }
      ([0xAA, 0xDD, 0x00, BitVec.ofNat 8 (d.length + 4), o0, o1, 0x00] ++ d ++ [xorfold ([o0, o1, 0x00] ++ d)]) →
    r.code = .ok ∧ r.status = 0x00 ∧ r.csumOk = true ∧
    (¬ (o0 = 0x01 ∧ o1 = 0x0C) → r.pl = d) ∧
    (o0 = 0x01 ∧ o1 = 0x0C → 2 ≤ d.length → r.pl = ([o0, o1, 0x00] ++ d).drop (d.length - 2)) ∧
    (o0 = 0x01 ∧ o1 = 0x0C → (r.pl = d ↔ d.length = 5))

/-- A frame that ENCODE built passes the length, preamble and checksum checks of Decode: with a payload and an opcode other than ReadToken's,
decoding it against its own opcode gives payload[0] as the status and the rest as the payload. -/
def Obligations.BuiltFramePassesTheResponseChecks : Prop :=
  ∀ (s t : State) (g : BitVec 4), s.mem.wf = true → s.seq = .idle → s.plen.toNat ≤ 252 → exec (.encodeFrame g) s = .next t →
    FrameBuilt t.lastFrame ∧
    (1 ≤ s.plen.toNat → ¬ (s.opc0 = 0x01 ∧ s.opc1 = 0x0C) →
      decodeResponse { op0 := s.opc0, op1 := s.opc1, chkEn := false, chkVal := 0x00, verify := true } t.lastFrame =
        { code := .ok, status := s.cell reqPl 0, pl := s.reqPayload.drop 1, csumOk := true })

/-- R10: xorfold starts from 00 and takes in one byte after the other by exclusive-or. So it does not depend on the order of the bytes, and a
sequence followed by its own fold folds to 00. -/
def Obligations.XorFoldIsOrderIndependent : Prop :=
  xorfold [] = 0x00 ∧ (∀ (s : List Byte) (b : Byte), xorfold (s ++ [b]) = xorfold s ^^^ b) ∧
    ∀ s t : List Byte, (s.Perm t → xorfold s = xorfold t) ∧ xorfold (s ++ [xorfold s]) = 0x00

/-- Which events a rule enables: an enabled event of any agent always takes its step, and a LINK or TIMER event that is not enabled is no
step of the block. -/
def Obligations.EnabledEventsStepAndOthersFault : Prop :=
  ∀ (s : State) (e : Event) (rest : List Event), s.events = e :: rest →
    (enabled e s = true → ∃ t, step s = .next t) ∧
    (e = .linkAccept → s.seq ≠ .tx → step s = .fault .linkNotEnabled) ∧
    (e = .timerExpire → enabled e s = false → step s = .fault .timerNotArmed)

/-- R27: DEV_READY goes from 0 to 1 only at the successful end of OPEN and returns to 0 only by a cold reset: no other step of any agent
changes it. -/
def Obligations.DevReadyChangesOnlyByOpenAndColdReset : Prop :=
  ∀ s t : State, s.Inv → step s = .next t → t.devReady ≠ s.devReady →
    ∃ rest, (s.events = .coldReset :: rest ∧ t.devReady = false) ∨
      (s.events = .timerExpire :: rest ∧ s.seq = .wait2 ∧ s.iphase = .setLed ∧ t.devReady = true ∧ t.done = true ∧ t.resCode = .ok)

/-- R79: no HOST write can change a command after it has been accepted, and no agent but the HOST and a cold reset changes the command
registers at all: what is read at CFG, CHECK_VAL, OPC0, OPC1, PLEN and REQ_PL stays. -/
def Obligations.CommandRegistersChangeOnlyByIdleHostWrites : Prop :=
  ∀ (s t : State) (e : Event) (rest : List Event), s.Inv → s.events = e :: rest → step s = .next t → e ≠ .coldReset →
    (s.seq ≠ .idle ∨ ∀ a v, e ≠ .hostWrite a v) → ∀ a : Addr, commandAddr a = true → t.memRead a = s.memRead a

/-- The only step that emits a byte is LINK's in TX, and it emits exactly TX_FRAME[tx_idx]. -/
def Obligations.WireGrowsOnlyByTransmitSteps : Prop :=
  ∀ s t : State, step s = .next t →
    t.wire = s.wire ∨ ∃ rest, s.events = .linkAccept :: rest ∧ s.seq = .tx ∧ t.wire = s.wire ++ [s.cell txFrame s.txIdx]

/-- R38: TX_FRAME and TXLEN change only when a frame is built (TXLEN then is its length, 7..259, and TX_FRAME[0 .. TXLEN) is a built frame) or
by a reset: in every other step each TX_FRAME byte and TXLEN stay. -/
def Obligations.TxFrameChangesOnlyWithABuiltFrame : Prop :=
  ∀ s t : State, s.Inv → step s = .next t →
    ((∀ i, i < 259 → t.cell txFrame i = s.cell txFrame i) ∧ t.txLen = s.txLen) ∨
    (7 ≤ t.txLen.toNat ∧ t.txLen.toNat ≤ 259 ∧ FrameBuilt t.lastFrame ∧
      (∀ i, t.txLen.toNat ≤ i → i < 259 → t.cell txFrame i = s.cell txFrame i) ∧
      ∃ rest, (∃ v, s.events = .hostWrite 0x000 v :: rest ∧ s.seq = .idle ∧ (t.resCode = .ok ∨ t.seq = .tx)) ∨
        (s.events = .timerExpire :: rest ∧ s.seq = .wait2 ∧ s.iphase = .getInfo ∧ t.seq = .tx)) ∨
    ((∀ i, i < 259 → t.cell txFrame i = 0x00) ∧ t.txLen = 0 ∧
      ∃ rest, s.events = .coldReset :: rest ∨ ∃ v, v.getLsbD 7 = true ∧ s.events = .hostWrite 0x000 v :: rest)

/-- R84: RXQ loses bytes only by RxRead, by SRST, by a cold reset, and at the start of an exchange when CFG.FLUSH = 1. -/
def Obligations.ReceiveQueueIsEmptiedOnlyAsTheRulesSay : Prop :=
  ∀ (s t : State), s.Inv → step s = .next t →
    (∃ more, t.rxq = s.rxq ++ more) ∨
    (∃ rest, s.events = .coldReset :: rest ∧ t.rxq = []) ∨
    (∃ v rest, s.events = .hostWrite 0x000 v :: rest ∧ v.getLsbD 7 = true ∧ t.rxq = []) ∨
    (t.seq = .tx ∧ t.txIdx = 0 ∧ s.flush = true ∧ t.rxq = [] ∧
      ∃ rest, (∃ v, s.events = .hostWrite 0x000 v :: rest ∧ s.seq = .idle) ∨
        (s.events = .timerExpire :: rest ∧ s.seq = .wait2 ∧ s.iphase = .getInfo)) ∨
    (∃ rest, s.events = .timerExpire :: rest ∧ s.seq = .wait1 ∧ t.rxq = s.rxq.drop s.params.read1Max) ∨
    (∃ rest, s.events = .timerExpire :: rest ∧ s.seq = .wait2 ∧ (t.seq = .tx → s.flush = false) ∧ t.rxq = s.rxq.drop 1000)

/-- R240: a step that sets DONE completes the operation: in that same step RES_CODE holds a result, seq is IDLE, the timer is off, iphase is
NONE and irq is CFG.IRQ_EN. Only a command or a TIMER step completes. -/
def Obligations.CompletionIsOneAtomicStep : Prop :=
  ∀ s t : State, s.Inv → step s = .next t → s.done = false → t.done = true →
    t.resCode ≠ .none ∧ t.seq = .idle ∧ t.tmr = false ∧ t.iphase = .none ∧ t.irq = t.irqEn ∧
    ∃ rest, (∃ v, s.events = .hostWrite 0x000 v :: rest ∧ s.seq = .idle) ∨ (s.events = .timerExpire :: rest ∧ s.seq ≠ .idle)

/-- R242: NO_CARD becomes 1 only in a completion with OK that committed a decode for opcode 01 0C with five zero token bytes. -/
def Obligations.NoCardIsSetOnlyByAZeroToken : Prop :=
  ∀ s t : State, s.Inv → step s = .next t → s.noCard = false → t.noCard = true →
    t.done = true ∧ t.resCode = .ok ∧ t.resPlen = 5 ∧ t.cells resPl 5 = [0x00, 0x00, 0x00, 0x00, 0x00] ∧
    ((s.seq = .idle ∧ s.opc0 = 0x01 ∧ s.opc1 = 0x0C) ∨ (s.seq = .wait2 ∧ s.lat.op0 = 0x01 ∧ s.lat.op1 = 0x0C))

/-- A whole exchange: a catalog command taken with BUSY = 0 and an empty RXQ sends exactly its frame in TXLEN LINK steps, and after a reply of
n bytes and two TIMER steps completes with the decode of the bytes captured, whatever they are. -/
def Obligations.ExchangeDecodesTheReplyItCaptured : Prop :=
  ∀ (s : State) (c : Catalog) (reply : List Byte) (rest : List Event) (r : DecodeResult),
    s.Inv → s.seq = .idle → s.rxq = [] → s.opc0 = c.op0 → s.opc1 = c.op1 → CommandShape c s.plen.toNat →
    reply ≠ [] → reply.length ≤ s.params.rxqDepth →
    s.events = .hostWrite 0x000 0x03 :: (List.replicate (7 + s.plen.toNat) .linkAccept
      ++ (reply.map .devByte ++ (.timerExpire :: .timerExpire :: rest))) →
    r = decodeResponse
      { op0 := c.op0, op1 := c.op1, chkEn := s.checkEn, chkVal := s.checkVal, verify := s.verifyCsum }
      ((reply.take (s.params.read1Max + 1000)).take 260) →
    ∃ t, Host.Core.run Sys2Proof.core (1 + (7 + s.plen.toNat) + reply.length + 2) s = .next t ∧
      t.wire = s.wire ++ requestFrame c.op0 c.op1 s.reqPayload ∧
      t.resCode = r.code ∧ t.resStatus = r.status ∧ t.resPlen.toNat = r.pl.length ∧ t.csumOk = r.csumOk ∧
      (∀ i, i < r.pl.length → t.cell resPl i = byteAt r.pl i) ∧
      t.done = true ∧ t.seq = .idle ∧ t.rxq = reply.drop (s.params.read1Max + 1000) ∧ t.devReady = s.devReady ∧ t.events = rest

/-- SRST touches nothing outside the block: the parameters, the agents' pending events, the wire and the HOST's reads stay. That is the model's
choice (log 4, 10), no rule of the spec. -/
def Obligations.SoftResetLeavesTheAgentsSide : Prop :=
  ∀ (s t : State) (g : BitVec 7), exec (.srst g) s = .next t →
    t.params = s.params ∧ t.events = s.events ∧ t.wire = s.wire ∧ t.hostReads = s.hostReads
end

