-- ==== Sys2Proof/Laws/State.lean ====
section
/-! SUPPORT. What each named update leaves in each field of State, so that no proof unfolds a record update. -/

namespace Sys2Proof.Machine

theorem State.reset_eq : State.reset = State.resetWith Config.params := rfl

@[simp] theorem State.resetWith_params (p : Params) : (State.resetWith p).params = p := rfl
@[simp] theorem State.resetWith_done (p : Params) : (State.resetWith p).done = false := rfl
@[simp] theorem State.resetWith_devReady (p : Params) : (State.resetWith p).devReady = false := rfl
@[simp] theorem State.resetWith_csumOk (p : Params) : (State.resetWith p).csumOk = false := rfl
@[simp] theorem State.resetWith_noCard (p : Params) : (State.resetWith p).noCard = false := rfl
@[simp] theorem State.resetWith_cmdDropped (p : Params) : (State.resetWith p).cmdDropped = false := rfl
@[simp] theorem State.resetWith_rxOvf (p : Params) : (State.resetWith p).rxOvf = false := rfl
@[simp] theorem State.resetWith_cfg (p : Params) : (State.resetWith p).cfg = 0x1 := rfl
@[simp] theorem State.resetWith_checkVal (p : Params) : (State.resetWith p).checkVal = 0x00 := rfl
@[simp] theorem State.resetWith_opc0 (p : Params) : (State.resetWith p).opc0 = 0x00 := rfl
@[simp] theorem State.resetWith_opc1 (p : Params) : (State.resetWith p).opc1 = 0x00 := rfl
@[simp] theorem State.resetWith_plen (p : Params) : (State.resetWith p).plen = 0x00 := rfl
@[simp] theorem State.resetWith_resCode (p : Params) : (State.resetWith p).resCode = .none := rfl
@[simp] theorem State.resetWith_resStatus (p : Params) : (State.resetWith p).resStatus = 0x00 := rfl
@[simp] theorem State.resetWith_resPlen (p : Params) : (State.resetWith p).resPlen = 0x00 := rfl
@[simp] theorem State.resetWith_rxCount (p : Params) : (State.resetWith p).rxCount = 0 := rfl
@[simp] theorem State.resetWith_txLen (p : Params) : (State.resetWith p).txLen = 0 := rfl
@[simp] theorem State.resetWith_mem (p : Params) : (State.resetWith p).mem = [] := rfl
@[simp] theorem State.resetWith_seq (p : Params) : (State.resetWith p).seq = .idle := rfl
@[simp] theorem State.resetWith_iphase (p : Params) : (State.resetWith p).iphase = .none := rfl
@[simp] theorem State.resetWith_txIdx (p : Params) : (State.resetWith p).txIdx = 0 := rfl
@[simp] theorem State.resetWith_lat (p : Params) : (State.resetWith p).lat = { op0 := 0x00, op1 := 0x00, chkEn := false, chkVal := 0x00 } := rfl
@[simp] theorem State.resetWith_rxq (p : Params) : (State.resetWith p).rxq = [] := rfl
@[simp] theorem State.resetWith_tmr (p : Params) : (State.resetWith p).tmr = false := rfl
@[simp] theorem State.resetWith_events (p : Params) : (State.resetWith p).events = [] := rfl
@[simp] theorem State.resetWith_wire (p : Params) : (State.resetWith p).wire = [] := rfl
@[simp] theorem State.resetWith_hostReads (p : Params) : (State.resetWith p).hostReads = [] := rfl

@[simp] theorem State.accept_params (s : State) : s.accept.params = s.params := rfl
@[simp] theorem State.accept_done (s : State) : s.accept.done = false := rfl
@[simp] theorem State.accept_devReady (s : State) : s.accept.devReady = s.devReady := rfl
@[simp] theorem State.accept_csumOk (s : State) : s.accept.csumOk = false := rfl
@[simp] theorem State.accept_noCard (s : State) : s.accept.noCard = false := rfl
@[simp] theorem State.accept_cmdDropped (s : State) : s.accept.cmdDropped = s.cmdDropped := rfl
@[simp] theorem State.accept_rxOvf (s : State) : s.accept.rxOvf = s.rxOvf := rfl
@[simp] theorem State.accept_cfg (s : State) : s.accept.cfg = s.cfg := rfl
@[simp] theorem State.accept_checkVal (s : State) : s.accept.checkVal = s.checkVal := rfl
@[simp] theorem State.accept_opc0 (s : State) : s.accept.opc0 = s.opc0 := rfl
@[simp] theorem State.accept_opc1 (s : State) : s.accept.opc1 = s.opc1 := rfl
@[simp] theorem State.accept_plen (s : State) : s.accept.plen = s.plen := rfl
@[simp] theorem State.accept_resCode (s : State) : s.accept.resCode = .none := rfl
@[simp] theorem State.accept_resStatus (s : State) : s.accept.resStatus = s.resStatus := rfl
@[simp] theorem State.accept_resPlen (s : State) : s.accept.resPlen = s.resPlen := rfl
@[simp] theorem State.accept_rxCount (s : State) : s.accept.rxCount = s.rxCount := rfl
@[simp] theorem State.accept_txLen (s : State) : s.accept.txLen = s.txLen := rfl
@[simp] theorem State.accept_mem (s : State) : s.accept.mem = s.mem := rfl
@[simp] theorem State.accept_seq (s : State) : s.accept.seq = s.seq := rfl
@[simp] theorem State.accept_iphase (s : State) : s.accept.iphase = s.iphase := rfl
@[simp] theorem State.accept_txIdx (s : State) : s.accept.txIdx = s.txIdx := rfl
@[simp] theorem State.accept_lat (s : State) : s.accept.lat = s.lat := rfl
@[simp] theorem State.accept_rxq (s : State) : s.accept.rxq = s.rxq := rfl
@[simp] theorem State.accept_tmr (s : State) : s.accept.tmr = s.tmr := rfl
@[simp] theorem State.accept_events (s : State) : s.accept.events = s.events := rfl
@[simp] theorem State.accept_wire (s : State) : s.accept.wire = s.wire := rfl
@[simp] theorem State.accept_hostReads (s : State) : s.accept.hostReads = s.hostReads := rfl

@[simp] theorem State.dropCommand_params (s : State) : s.dropCommand.params = s.params := rfl
@[simp] theorem State.dropCommand_done (s : State) : s.dropCommand.done = s.done := rfl
@[simp] theorem State.dropCommand_devReady (s : State) : s.dropCommand.devReady = s.devReady := rfl
@[simp] theorem State.dropCommand_csumOk (s : State) : s.dropCommand.csumOk = s.csumOk := rfl
@[simp] theorem State.dropCommand_noCard (s : State) : s.dropCommand.noCard = s.noCard := rfl
@[simp] theorem State.dropCommand_cmdDropped (s : State) : s.dropCommand.cmdDropped = true := rfl
@[simp] theorem State.dropCommand_rxOvf (s : State) : s.dropCommand.rxOvf = s.rxOvf := rfl
@[simp] theorem State.dropCommand_cfg (s : State) : s.dropCommand.cfg = s.cfg := rfl
@[simp] theorem State.dropCommand_checkVal (s : State) : s.dropCommand.checkVal = s.checkVal := rfl
@[simp] theorem State.dropCommand_opc0 (s : State) : s.dropCommand.opc0 = s.opc0 := rfl
@[simp] theorem State.dropCommand_opc1 (s : State) : s.dropCommand.opc1 = s.opc1 := rfl
@[simp] theorem State.dropCommand_plen (s : State) : s.dropCommand.plen = s.plen := rfl
@[simp] theorem State.dropCommand_resCode (s : State) : s.dropCommand.resCode = s.resCode := rfl
@[simp] theorem State.dropCommand_resStatus (s : State) : s.dropCommand.resStatus = s.resStatus := rfl
@[simp] theorem State.dropCommand_resPlen (s : State) : s.dropCommand.resPlen = s.resPlen := rfl
@[simp] theorem State.dropCommand_rxCount (s : State) : s.dropCommand.rxCount = s.rxCount := rfl
@[simp] theorem State.dropCommand_txLen (s : State) : s.dropCommand.txLen = s.txLen := rfl
@[simp] theorem State.dropCommand_mem (s : State) : s.dropCommand.mem = s.mem := rfl
@[simp] theorem State.dropCommand_seq (s : State) : s.dropCommand.seq = s.seq := rfl
@[simp] theorem State.dropCommand_iphase (s : State) : s.dropCommand.iphase = s.iphase := rfl
@[simp] theorem State.dropCommand_txIdx (s : State) : s.dropCommand.txIdx = s.txIdx := rfl
@[simp] theorem State.dropCommand_lat (s : State) : s.dropCommand.lat = s.lat := rfl
@[simp] theorem State.dropCommand_rxq (s : State) : s.dropCommand.rxq = s.rxq := rfl
@[simp] theorem State.dropCommand_tmr (s : State) : s.dropCommand.tmr = s.tmr := rfl
@[simp] theorem State.dropCommand_events (s : State) : s.dropCommand.events = s.events := rfl
@[simp] theorem State.dropCommand_wire (s : State) : s.dropCommand.wire = s.wire := rfl
@[simp] theorem State.dropCommand_hostReads (s : State) : s.dropCommand.hostReads = s.hostReads := rfl

@[simp] theorem State.finish_params (s : State) (code : ResCode) (committed : Option Committed) : (s.finish code committed).params = s.params := rfl
@[simp] theorem State.finish_done (s : State) (code : ResCode) (committed : Option Committed) : (s.finish code committed).done = true := rfl
@[simp] theorem State.finish_devReady (s : State) (code : ResCode) (committed : Option Committed) : (s.finish code committed).devReady = s.devReady := rfl
@[simp] theorem State.finish_csumOk (s : State) (code : ResCode) (committed : Option Committed) : (s.finish code committed).csumOk = s.csumOk := rfl
@[simp] theorem State.finish_noCard (s : State) (code : ResCode) (committed : Option Committed) : (s.finish code committed).noCard = noCardFlag code committed := rfl
@[simp] theorem State.finish_cmdDropped (s : State) (code : ResCode) (committed : Option Committed) : (s.finish code committed).cmdDropped = s.cmdDropped := rfl
@[simp] theorem State.finish_rxOvf (s : State) (code : ResCode) (committed : Option Committed) : (s.finish code committed).rxOvf = s.rxOvf := rfl
@[simp] theorem State.finish_cfg (s : State) (code : ResCode) (committed : Option Committed) : (s.finish code committed).cfg = s.cfg := rfl
@[simp] theorem State.finish_checkVal (s : State) (code : ResCode) (committed : Option Committed) : (s.finish code committed).checkVal = s.checkVal := rfl
@[simp] theorem State.finish_opc0 (s : State) (code : ResCode) (committed : Option Committed) : (s.finish code committed).opc0 = s.opc0 := rfl
@[simp] theorem State.finish_opc1 (s : State) (code : ResCode) (committed : Option Committed) : (s.finish code committed).opc1 = s.opc1 := rfl
@[simp] theorem State.finish_plen (s : State) (code : ResCode) (committed : Option Committed) : (s.finish code committed).plen = s.plen := rfl
@[simp] theorem State.finish_resCode (s : State) (code : ResCode) (committed : Option Committed) : (s.finish code committed).resCode = code := rfl
@[simp] theorem State.finish_resStatus (s : State) (code : ResCode) (committed : Option Committed) : (s.finish code committed).resStatus = s.resStatus := rfl
@[simp] theorem State.finish_resPlen (s : State) (code : ResCode) (committed : Option Committed) : (s.finish code committed).resPlen = s.resPlen := rfl
@[simp] theorem State.finish_rxCount (s : State) (code : ResCode) (committed : Option Committed) : (s.finish code committed).rxCount = s.rxCount := rfl
@[simp] theorem State.finish_txLen (s : State) (code : ResCode) (committed : Option Committed) : (s.finish code committed).txLen = s.txLen := rfl
@[simp] theorem State.finish_mem (s : State) (code : ResCode) (committed : Option Committed) : (s.finish code committed).mem = s.mem := rfl
@[simp] theorem State.finish_seq (s : State) (code : ResCode) (committed : Option Committed) : (s.finish code committed).seq = .idle := rfl
@[simp] theorem State.finish_iphase (s : State) (code : ResCode) (committed : Option Committed) : (s.finish code committed).iphase = .none := rfl
@[simp] theorem State.finish_txIdx (s : State) (code : ResCode) (committed : Option Committed) : (s.finish code committed).txIdx = s.txIdx := rfl
@[simp] theorem State.finish_lat (s : State) (code : ResCode) (committed : Option Committed) : (s.finish code committed).lat = s.lat := rfl
@[simp] theorem State.finish_rxq (s : State) (code : ResCode) (committed : Option Committed) : (s.finish code committed).rxq = s.rxq := rfl
@[simp] theorem State.finish_tmr (s : State) (code : ResCode) (committed : Option Committed) : (s.finish code committed).tmr = false := rfl
@[simp] theorem State.finish_events (s : State) (code : ResCode) (committed : Option Committed) : (s.finish code committed).events = s.events := rfl
@[simp] theorem State.finish_wire (s : State) (code : ResCode) (committed : Option Committed) : (s.finish code committed).wire = s.wire := rfl
@[simp] theorem State.finish_hostReads (s : State) (code : ResCode) (committed : Option Committed) : (s.finish code committed).hostReads = s.hostReads := rfl

@[simp] theorem State.finishPlain_params (s : State) (code : ResCode) : (s.finishPlain code).params = s.params := rfl
@[simp] theorem State.finishPlain_done (s : State) (code : ResCode) : (s.finishPlain code).done = true := rfl
@[simp] theorem State.finishPlain_devReady (s : State) (code : ResCode) : (s.finishPlain code).devReady = s.devReady := rfl
@[simp] theorem State.finishPlain_csumOk (s : State) (code : ResCode) : (s.finishPlain code).csumOk = false := rfl
@[simp] theorem State.finishPlain_noCard (s : State) (code : ResCode) : (s.finishPlain code).noCard = false := rfl
@[simp] theorem State.finishPlain_cmdDropped (s : State) (code : ResCode) : (s.finishPlain code).cmdDropped = s.cmdDropped := rfl
@[simp] theorem State.finishPlain_rxOvf (s : State) (code : ResCode) : (s.finishPlain code).rxOvf = s.rxOvf := rfl
@[simp] theorem State.finishPlain_cfg (s : State) (code : ResCode) : (s.finishPlain code).cfg = s.cfg := rfl
@[simp] theorem State.finishPlain_checkVal (s : State) (code : ResCode) : (s.finishPlain code).checkVal = s.checkVal := rfl
@[simp] theorem State.finishPlain_opc0 (s : State) (code : ResCode) : (s.finishPlain code).opc0 = s.opc0 := rfl
@[simp] theorem State.finishPlain_opc1 (s : State) (code : ResCode) : (s.finishPlain code).opc1 = s.opc1 := rfl
@[simp] theorem State.finishPlain_plen (s : State) (code : ResCode) : (s.finishPlain code).plen = s.plen := rfl
@[simp] theorem State.finishPlain_resCode (s : State) (code : ResCode) : (s.finishPlain code).resCode = code := rfl
@[simp] theorem State.finishPlain_resStatus (s : State) (code : ResCode) : (s.finishPlain code).resStatus = 0x00 := rfl
@[simp] theorem State.finishPlain_resPlen (s : State) (code : ResCode) : (s.finishPlain code).resPlen = 0x00 := rfl
@[simp] theorem State.finishPlain_rxCount (s : State) (code : ResCode) : (s.finishPlain code).rxCount = s.rxCount := rfl
@[simp] theorem State.finishPlain_txLen (s : State) (code : ResCode) : (s.finishPlain code).txLen = s.txLen := rfl
@[simp] theorem State.finishPlain_mem (s : State) (code : ResCode) : (s.finishPlain code).mem = s.mem := rfl
@[simp] theorem State.finishPlain_seq (s : State) (code : ResCode) : (s.finishPlain code).seq = .idle := rfl
@[simp] theorem State.finishPlain_iphase (s : State) (code : ResCode) : (s.finishPlain code).iphase = .none := rfl
@[simp] theorem State.finishPlain_txIdx (s : State) (code : ResCode) : (s.finishPlain code).txIdx = s.txIdx := rfl
@[simp] theorem State.finishPlain_lat (s : State) (code : ResCode) : (s.finishPlain code).lat = s.lat := rfl
@[simp] theorem State.finishPlain_rxq (s : State) (code : ResCode) : (s.finishPlain code).rxq = s.rxq := rfl
@[simp] theorem State.finishPlain_tmr (s : State) (code : ResCode) : (s.finishPlain code).tmr = false := rfl
@[simp] theorem State.finishPlain_events (s : State) (code : ResCode) : (s.finishPlain code).events = s.events := rfl
@[simp] theorem State.finishPlain_wire (s : State) (code : ResCode) : (s.finishPlain code).wire = s.wire := rfl
@[simp] theorem State.finishPlain_hostReads (s : State) (code : ResCode) : (s.finishPlain code).hostReads = s.hostReads := rfl

@[simp] theorem State.finishDecoded_params (s : State) (code : ResCode) (op0 op1 : Byte) : (s.finishDecoded code op0 op1).params = s.params := rfl
@[simp] theorem State.finishDecoded_done (s : State) (code : ResCode) (op0 op1 : Byte) : (s.finishDecoded code op0 op1).done = true := rfl
@[simp] theorem State.finishDecoded_devReady (s : State) (code : ResCode) (op0 op1 : Byte) : (s.finishDecoded code op0 op1).devReady = s.devReady := rfl
@[simp] theorem State.finishDecoded_csumOk (s : State) (code : ResCode) (op0 op1 : Byte) : (s.finishDecoded code op0 op1).csumOk = s.csumOk := rfl
@[simp] theorem State.finishDecoded_noCard (s : State) (code : ResCode) (op0 op1 : Byte) : (s.finishDecoded code op0 op1).noCard = noCardFlag code (some { op0 := op0, op1 := op1, token := s.cells resPl 5 }) := rfl
@[simp] theorem State.finishDecoded_cmdDropped (s : State) (code : ResCode) (op0 op1 : Byte) : (s.finishDecoded code op0 op1).cmdDropped = s.cmdDropped := rfl
@[simp] theorem State.finishDecoded_rxOvf (s : State) (code : ResCode) (op0 op1 : Byte) : (s.finishDecoded code op0 op1).rxOvf = s.rxOvf := rfl
@[simp] theorem State.finishDecoded_cfg (s : State) (code : ResCode) (op0 op1 : Byte) : (s.finishDecoded code op0 op1).cfg = s.cfg := rfl
@[simp] theorem State.finishDecoded_checkVal (s : State) (code : ResCode) (op0 op1 : Byte) : (s.finishDecoded code op0 op1).checkVal = s.checkVal := rfl
@[simp] theorem State.finishDecoded_opc0 (s : State) (code : ResCode) (op0 op1 : Byte) : (s.finishDecoded code op0 op1).opc0 = s.opc0 := rfl
@[simp] theorem State.finishDecoded_opc1 (s : State) (code : ResCode) (op0 op1 : Byte) : (s.finishDecoded code op0 op1).opc1 = s.opc1 := rfl
@[simp] theorem State.finishDecoded_plen (s : State) (code : ResCode) (op0 op1 : Byte) : (s.finishDecoded code op0 op1).plen = s.plen := rfl
@[simp] theorem State.finishDecoded_resCode (s : State) (code : ResCode) (op0 op1 : Byte) : (s.finishDecoded code op0 op1).resCode = code := rfl
@[simp] theorem State.finishDecoded_resStatus (s : State) (code : ResCode) (op0 op1 : Byte) : (s.finishDecoded code op0 op1).resStatus = s.resStatus := rfl
@[simp] theorem State.finishDecoded_resPlen (s : State) (code : ResCode) (op0 op1 : Byte) : (s.finishDecoded code op0 op1).resPlen = s.resPlen := rfl
@[simp] theorem State.finishDecoded_rxCount (s : State) (code : ResCode) (op0 op1 : Byte) : (s.finishDecoded code op0 op1).rxCount = s.rxCount := rfl
@[simp] theorem State.finishDecoded_txLen (s : State) (code : ResCode) (op0 op1 : Byte) : (s.finishDecoded code op0 op1).txLen = s.txLen := rfl
@[simp] theorem State.finishDecoded_mem (s : State) (code : ResCode) (op0 op1 : Byte) : (s.finishDecoded code op0 op1).mem = s.mem := rfl
@[simp] theorem State.finishDecoded_seq (s : State) (code : ResCode) (op0 op1 : Byte) : (s.finishDecoded code op0 op1).seq = .idle := rfl
@[simp] theorem State.finishDecoded_iphase (s : State) (code : ResCode) (op0 op1 : Byte) : (s.finishDecoded code op0 op1).iphase = .none := rfl
@[simp] theorem State.finishDecoded_txIdx (s : State) (code : ResCode) (op0 op1 : Byte) : (s.finishDecoded code op0 op1).txIdx = s.txIdx := rfl
@[simp] theorem State.finishDecoded_lat (s : State) (code : ResCode) (op0 op1 : Byte) : (s.finishDecoded code op0 op1).lat = s.lat := rfl
@[simp] theorem State.finishDecoded_rxq (s : State) (code : ResCode) (op0 op1 : Byte) : (s.finishDecoded code op0 op1).rxq = s.rxq := rfl
@[simp] theorem State.finishDecoded_tmr (s : State) (code : ResCode) (op0 op1 : Byte) : (s.finishDecoded code op0 op1).tmr = false := rfl
@[simp] theorem State.finishDecoded_events (s : State) (code : ResCode) (op0 op1 : Byte) : (s.finishDecoded code op0 op1).events = s.events := rfl
@[simp] theorem State.finishDecoded_wire (s : State) (code : ResCode) (op0 op1 : Byte) : (s.finishDecoded code op0 op1).wire = s.wire := rfl
@[simp] theorem State.finishDecoded_hostReads (s : State) (code : ResCode) (op0 op1 : Byte) : (s.finishDecoded code op0 op1).hostReads = s.hostReads := rfl

@[simp] theorem State.clearStatus_params (s : State) (v : Byte) : (s.clearStatus v).params = s.params := rfl
@[simp] theorem State.clearStatus_done (s : State) (v : Byte) : (s.clearStatus v).done = (s.done && !v.getLsbD 1) := rfl
@[simp] theorem State.clearStatus_devReady (s : State) (v : Byte) : (s.clearStatus v).devReady = s.devReady := rfl
@[simp] theorem State.clearStatus_csumOk (s : State) (v : Byte) : (s.clearStatus v).csumOk = s.csumOk := rfl
@[simp] theorem State.clearStatus_noCard (s : State) (v : Byte) : (s.clearStatus v).noCard = s.noCard := rfl
@[simp] theorem State.clearStatus_cmdDropped (s : State) (v : Byte) : (s.clearStatus v).cmdDropped = (s.cmdDropped && !v.getLsbD 5) := rfl
@[simp] theorem State.clearStatus_rxOvf (s : State) (v : Byte) : (s.clearStatus v).rxOvf = (s.rxOvf && !v.getLsbD 6) := rfl
@[simp] theorem State.clearStatus_cfg (s : State) (v : Byte) : (s.clearStatus v).cfg = s.cfg := rfl
@[simp] theorem State.clearStatus_checkVal (s : State) (v : Byte) : (s.clearStatus v).checkVal = s.checkVal := rfl
@[simp] theorem State.clearStatus_opc0 (s : State) (v : Byte) : (s.clearStatus v).opc0 = s.opc0 := rfl
@[simp] theorem State.clearStatus_opc1 (s : State) (v : Byte) : (s.clearStatus v).opc1 = s.opc1 := rfl
@[simp] theorem State.clearStatus_plen (s : State) (v : Byte) : (s.clearStatus v).plen = s.plen := rfl
@[simp] theorem State.clearStatus_resCode (s : State) (v : Byte) : (s.clearStatus v).resCode = s.resCode := rfl
@[simp] theorem State.clearStatus_resStatus (s : State) (v : Byte) : (s.clearStatus v).resStatus = s.resStatus := rfl
@[simp] theorem State.clearStatus_resPlen (s : State) (v : Byte) : (s.clearStatus v).resPlen = s.resPlen := rfl
@[simp] theorem State.clearStatus_rxCount (s : State) (v : Byte) : (s.clearStatus v).rxCount = s.rxCount := rfl
@[simp] theorem State.clearStatus_txLen (s : State) (v : Byte) : (s.clearStatus v).txLen = s.txLen := rfl
@[simp] theorem State.clearStatus_mem (s : State) (v : Byte) : (s.clearStatus v).mem = s.mem := rfl
@[simp] theorem State.clearStatus_seq (s : State) (v : Byte) : (s.clearStatus v).seq = s.seq := rfl
@[simp] theorem State.clearStatus_iphase (s : State) (v : Byte) : (s.clearStatus v).iphase = s.iphase := rfl
@[simp] theorem State.clearStatus_txIdx (s : State) (v : Byte) : (s.clearStatus v).txIdx = s.txIdx := rfl
@[simp] theorem State.clearStatus_lat (s : State) (v : Byte) : (s.clearStatus v).lat = s.lat := rfl
@[simp] theorem State.clearStatus_rxq (s : State) (v : Byte) : (s.clearStatus v).rxq = s.rxq := rfl
@[simp] theorem State.clearStatus_tmr (s : State) (v : Byte) : (s.clearStatus v).tmr = s.tmr := rfl
@[simp] theorem State.clearStatus_events (s : State) (v : Byte) : (s.clearStatus v).events = s.events := rfl
@[simp] theorem State.clearStatus_wire (s : State) (v : Byte) : (s.clearStatus v).wire = s.wire := rfl
@[simp] theorem State.clearStatus_hostReads (s : State) (v : Byte) : (s.clearStatus v).hostReads = s.hostReads := rfl

@[simp] theorem State.rxReadRest_params (s : State) (max : Nat) : (s.rxReadRest max).params = s.params := rfl
@[simp] theorem State.rxReadRest_done (s : State) (max : Nat) : (s.rxReadRest max).done = s.done := rfl
@[simp] theorem State.rxReadRest_devReady (s : State) (max : Nat) : (s.rxReadRest max).devReady = s.devReady := rfl
@[simp] theorem State.rxReadRest_csumOk (s : State) (max : Nat) : (s.rxReadRest max).csumOk = s.csumOk := rfl
@[simp] theorem State.rxReadRest_noCard (s : State) (max : Nat) : (s.rxReadRest max).noCard = s.noCard := rfl
@[simp] theorem State.rxReadRest_cmdDropped (s : State) (max : Nat) : (s.rxReadRest max).cmdDropped = s.cmdDropped := rfl
@[simp] theorem State.rxReadRest_rxOvf (s : State) (max : Nat) : (s.rxReadRest max).rxOvf = s.rxOvf := rfl
@[simp] theorem State.rxReadRest_cfg (s : State) (max : Nat) : (s.rxReadRest max).cfg = s.cfg := rfl
@[simp] theorem State.rxReadRest_checkVal (s : State) (max : Nat) : (s.rxReadRest max).checkVal = s.checkVal := rfl
@[simp] theorem State.rxReadRest_opc0 (s : State) (max : Nat) : (s.rxReadRest max).opc0 = s.opc0 := rfl
@[simp] theorem State.rxReadRest_opc1 (s : State) (max : Nat) : (s.rxReadRest max).opc1 = s.opc1 := rfl
@[simp] theorem State.rxReadRest_plen (s : State) (max : Nat) : (s.rxReadRest max).plen = s.plen := rfl
@[simp] theorem State.rxReadRest_resCode (s : State) (max : Nat) : (s.rxReadRest max).resCode = s.resCode := rfl
@[simp] theorem State.rxReadRest_resStatus (s : State) (max : Nat) : (s.rxReadRest max).resStatus = s.resStatus := rfl
@[simp] theorem State.rxReadRest_resPlen (s : State) (max : Nat) : (s.rxReadRest max).resPlen = s.resPlen := rfl
@[simp] theorem State.rxReadRest_rxCount (s : State) (max : Nat) : (s.rxReadRest max).rxCount = s.rxCount := rfl
@[simp] theorem State.rxReadRest_txLen (s : State) (max : Nat) : (s.rxReadRest max).txLen = s.txLen := rfl
@[simp] theorem State.rxReadRest_mem (s : State) (max : Nat) : (s.rxReadRest max).mem = s.mem := rfl
@[simp] theorem State.rxReadRest_seq (s : State) (max : Nat) : (s.rxReadRest max).seq = s.seq := rfl
@[simp] theorem State.rxReadRest_iphase (s : State) (max : Nat) : (s.rxReadRest max).iphase = s.iphase := rfl
@[simp] theorem State.rxReadRest_txIdx (s : State) (max : Nat) : (s.rxReadRest max).txIdx = s.txIdx := rfl
@[simp] theorem State.rxReadRest_lat (s : State) (max : Nat) : (s.rxReadRest max).lat = s.lat := rfl
@[simp] theorem State.rxReadRest_rxq (s : State) (max : Nat) : (s.rxReadRest max).rxq = s.rxq.drop max := rfl
@[simp] theorem State.rxReadRest_tmr (s : State) (max : Nat) : (s.rxReadRest max).tmr = s.tmr := rfl
@[simp] theorem State.rxReadRest_events (s : State) (max : Nat) : (s.rxReadRest max).events = s.events := rfl
@[simp] theorem State.rxReadRest_wire (s : State) (max : Nat) : (s.rxReadRest max).wire = s.wire := rfl
@[simp] theorem State.rxReadRest_hostReads (s : State) (max : Nat) : (s.rxReadRest max).hostReads = s.hostReads := rfl

@[simp] theorem State.buildFrame_params (s : State) (op0 op1 : Byte) (pl : List Byte) : (s.buildFrame op0 op1 pl).params = s.params := rfl
@[simp] theorem State.buildFrame_done (s : State) (op0 op1 : Byte) (pl : List Byte) : (s.buildFrame op0 op1 pl).done = s.done := rfl
@[simp] theorem State.buildFrame_devReady (s : State) (op0 op1 : Byte) (pl : List Byte) : (s.buildFrame op0 op1 pl).devReady = s.devReady := rfl
@[simp] theorem State.buildFrame_csumOk (s : State) (op0 op1 : Byte) (pl : List Byte) : (s.buildFrame op0 op1 pl).csumOk = s.csumOk := rfl
@[simp] theorem State.buildFrame_noCard (s : State) (op0 op1 : Byte) (pl : List Byte) : (s.buildFrame op0 op1 pl).noCard = s.noCard := rfl
@[simp] theorem State.buildFrame_cmdDropped (s : State) (op0 op1 : Byte) (pl : List Byte) : (s.buildFrame op0 op1 pl).cmdDropped = s.cmdDropped := rfl
@[simp] theorem State.buildFrame_rxOvf (s : State) (op0 op1 : Byte) (pl : List Byte) : (s.buildFrame op0 op1 pl).rxOvf = s.rxOvf := rfl
@[simp] theorem State.buildFrame_cfg (s : State) (op0 op1 : Byte) (pl : List Byte) : (s.buildFrame op0 op1 pl).cfg = s.cfg := rfl
@[simp] theorem State.buildFrame_checkVal (s : State) (op0 op1 : Byte) (pl : List Byte) : (s.buildFrame op0 op1 pl).checkVal = s.checkVal := rfl
@[simp] theorem State.buildFrame_opc0 (s : State) (op0 op1 : Byte) (pl : List Byte) : (s.buildFrame op0 op1 pl).opc0 = s.opc0 := rfl
@[simp] theorem State.buildFrame_opc1 (s : State) (op0 op1 : Byte) (pl : List Byte) : (s.buildFrame op0 op1 pl).opc1 = s.opc1 := rfl
@[simp] theorem State.buildFrame_plen (s : State) (op0 op1 : Byte) (pl : List Byte) : (s.buildFrame op0 op1 pl).plen = s.plen := rfl
@[simp] theorem State.buildFrame_resCode (s : State) (op0 op1 : Byte) (pl : List Byte) : (s.buildFrame op0 op1 pl).resCode = s.resCode := rfl
@[simp] theorem State.buildFrame_resStatus (s : State) (op0 op1 : Byte) (pl : List Byte) : (s.buildFrame op0 op1 pl).resStatus = s.resStatus := rfl
@[simp] theorem State.buildFrame_resPlen (s : State) (op0 op1 : Byte) (pl : List Byte) : (s.buildFrame op0 op1 pl).resPlen = s.resPlen := rfl
@[simp] theorem State.buildFrame_rxCount (s : State) (op0 op1 : Byte) (pl : List Byte) : (s.buildFrame op0 op1 pl).rxCount = s.rxCount := rfl
@[simp] theorem State.buildFrame_txLen (s : State) (op0 op1 : Byte) (pl : List Byte) : (s.buildFrame op0 op1 pl).txLen = BitVec.ofNat 9 (7 + pl.length) := rfl
@[simp] theorem State.buildFrame_mem (s : State) (op0 op1 : Byte) (pl : List Byte) : (s.buildFrame op0 op1 pl).mem = s.mem.writeBlock txFrame.base (requestFrame op0 op1 pl) := rfl
@[simp] theorem State.buildFrame_seq (s : State) (op0 op1 : Byte) (pl : List Byte) : (s.buildFrame op0 op1 pl).seq = s.seq := rfl
@[simp] theorem State.buildFrame_iphase (s : State) (op0 op1 : Byte) (pl : List Byte) : (s.buildFrame op0 op1 pl).iphase = s.iphase := rfl
@[simp] theorem State.buildFrame_txIdx (s : State) (op0 op1 : Byte) (pl : List Byte) : (s.buildFrame op0 op1 pl).txIdx = s.txIdx := rfl
@[simp] theorem State.buildFrame_lat (s : State) (op0 op1 : Byte) (pl : List Byte) : (s.buildFrame op0 op1 pl).lat = s.lat := rfl
@[simp] theorem State.buildFrame_rxq (s : State) (op0 op1 : Byte) (pl : List Byte) : (s.buildFrame op0 op1 pl).rxq = s.rxq := rfl
@[simp] theorem State.buildFrame_tmr (s : State) (op0 op1 : Byte) (pl : List Byte) : (s.buildFrame op0 op1 pl).tmr = s.tmr := rfl
@[simp] theorem State.buildFrame_events (s : State) (op0 op1 : Byte) (pl : List Byte) : (s.buildFrame op0 op1 pl).events = s.events := rfl
@[simp] theorem State.buildFrame_wire (s : State) (op0 op1 : Byte) (pl : List Byte) : (s.buildFrame op0 op1 pl).wire = s.wire := rfl
@[simp] theorem State.buildFrame_hostReads (s : State) (op0 op1 : Byte) (pl : List Byte) : (s.buildFrame op0 op1 pl).hostReads = s.hostReads := rfl

@[simp] theorem State.decodeCommit_params (s : State) (r : DecodeResult) : (s.decodeCommit r).params = s.params := rfl
@[simp] theorem State.decodeCommit_done (s : State) (r : DecodeResult) : (s.decodeCommit r).done = s.done := rfl
@[simp] theorem State.decodeCommit_devReady (s : State) (r : DecodeResult) : (s.decodeCommit r).devReady = s.devReady := rfl
@[simp] theorem State.decodeCommit_csumOk (s : State) (r : DecodeResult) : (s.decodeCommit r).csumOk = r.csumOk := rfl
@[simp] theorem State.decodeCommit_noCard (s : State) (r : DecodeResult) : (s.decodeCommit r).noCard = s.noCard := rfl
@[simp] theorem State.decodeCommit_cmdDropped (s : State) (r : DecodeResult) : (s.decodeCommit r).cmdDropped = s.cmdDropped := rfl
@[simp] theorem State.decodeCommit_rxOvf (s : State) (r : DecodeResult) : (s.decodeCommit r).rxOvf = s.rxOvf := rfl
@[simp] theorem State.decodeCommit_cfg (s : State) (r : DecodeResult) : (s.decodeCommit r).cfg = s.cfg := rfl
@[simp] theorem State.decodeCommit_checkVal (s : State) (r : DecodeResult) : (s.decodeCommit r).checkVal = s.checkVal := rfl
@[simp] theorem State.decodeCommit_opc0 (s : State) (r : DecodeResult) : (s.decodeCommit r).opc0 = s.opc0 := rfl
@[simp] theorem State.decodeCommit_opc1 (s : State) (r : DecodeResult) : (s.decodeCommit r).opc1 = s.opc1 := rfl
@[simp] theorem State.decodeCommit_plen (s : State) (r : DecodeResult) : (s.decodeCommit r).plen = s.plen := rfl
@[simp] theorem State.decodeCommit_resCode (s : State) (r : DecodeResult) : (s.decodeCommit r).resCode = s.resCode := rfl
@[simp] theorem State.decodeCommit_resStatus (s : State) (r : DecodeResult) : (s.decodeCommit r).resStatus = r.status := rfl
@[simp] theorem State.decodeCommit_resPlen (s : State) (r : DecodeResult) : (s.decodeCommit r).resPlen = BitVec.ofNat 8 r.pl.length := rfl
@[simp] theorem State.decodeCommit_rxCount (s : State) (r : DecodeResult) : (s.decodeCommit r).rxCount = s.rxCount := rfl
@[simp] theorem State.decodeCommit_txLen (s : State) (r : DecodeResult) : (s.decodeCommit r).txLen = s.txLen := rfl
@[simp] theorem State.decodeCommit_mem (s : State) (r : DecodeResult) : (s.decodeCommit r).mem = s.mem.writeBlock resPl.base r.pl := rfl
@[simp] theorem State.decodeCommit_seq (s : State) (r : DecodeResult) : (s.decodeCommit r).seq = s.seq := rfl
@[simp] theorem State.decodeCommit_iphase (s : State) (r : DecodeResult) : (s.decodeCommit r).iphase = s.iphase := rfl
@[simp] theorem State.decodeCommit_txIdx (s : State) (r : DecodeResult) : (s.decodeCommit r).txIdx = s.txIdx := rfl
@[simp] theorem State.decodeCommit_lat (s : State) (r : DecodeResult) : (s.decodeCommit r).lat = s.lat := rfl
@[simp] theorem State.decodeCommit_rxq (s : State) (r : DecodeResult) : (s.decodeCommit r).rxq = s.rxq := rfl
@[simp] theorem State.decodeCommit_tmr (s : State) (r : DecodeResult) : (s.decodeCommit r).tmr = s.tmr := rfl
@[simp] theorem State.decodeCommit_events (s : State) (r : DecodeResult) : (s.decodeCommit r).events = s.events := rfl
@[simp] theorem State.decodeCommit_wire (s : State) (r : DecodeResult) : (s.decodeCommit r).wire = s.wire := rfl
@[simp] theorem State.decodeCommit_hostReads (s : State) (r : DecodeResult) : (s.decodeCommit r).hostReads = s.hostReads := rfl

@[simp] theorem State.startExchange_params (s : State) (lat : Latch) (pl : List Byte) : (s.startExchange lat pl).params = s.params := rfl
@[simp] theorem State.startExchange_done (s : State) (lat : Latch) (pl : List Byte) : (s.startExchange lat pl).done = s.done := rfl
@[simp] theorem State.startExchange_devReady (s : State) (lat : Latch) (pl : List Byte) : (s.startExchange lat pl).devReady = s.devReady := rfl
@[simp] theorem State.startExchange_csumOk (s : State) (lat : Latch) (pl : List Byte) : (s.startExchange lat pl).csumOk = s.csumOk := rfl
@[simp] theorem State.startExchange_noCard (s : State) (lat : Latch) (pl : List Byte) : (s.startExchange lat pl).noCard = s.noCard := rfl
@[simp] theorem State.startExchange_cmdDropped (s : State) (lat : Latch) (pl : List Byte) : (s.startExchange lat pl).cmdDropped = s.cmdDropped := rfl
@[simp] theorem State.startExchange_rxOvf (s : State) (lat : Latch) (pl : List Byte) : (s.startExchange lat pl).rxOvf = s.rxOvf := rfl
@[simp] theorem State.startExchange_cfg (s : State) (lat : Latch) (pl : List Byte) : (s.startExchange lat pl).cfg = s.cfg := rfl
@[simp] theorem State.startExchange_checkVal (s : State) (lat : Latch) (pl : List Byte) : (s.startExchange lat pl).checkVal = s.checkVal := rfl
@[simp] theorem State.startExchange_opc0 (s : State) (lat : Latch) (pl : List Byte) : (s.startExchange lat pl).opc0 = s.opc0 := rfl
@[simp] theorem State.startExchange_opc1 (s : State) (lat : Latch) (pl : List Byte) : (s.startExchange lat pl).opc1 = s.opc1 := rfl
@[simp] theorem State.startExchange_plen (s : State) (lat : Latch) (pl : List Byte) : (s.startExchange lat pl).plen = s.plen := rfl
@[simp] theorem State.startExchange_resCode (s : State) (lat : Latch) (pl : List Byte) : (s.startExchange lat pl).resCode = s.resCode := rfl
@[simp] theorem State.startExchange_resStatus (s : State) (lat : Latch) (pl : List Byte) : (s.startExchange lat pl).resStatus = s.resStatus := rfl
@[simp] theorem State.startExchange_resPlen (s : State) (lat : Latch) (pl : List Byte) : (s.startExchange lat pl).resPlen = s.resPlen := rfl
@[simp] theorem State.startExchange_rxCount (s : State) (lat : Latch) (pl : List Byte) : (s.startExchange lat pl).rxCount = 0 := rfl
@[simp] theorem State.startExchange_txLen (s : State) (lat : Latch) (pl : List Byte) : (s.startExchange lat pl).txLen = BitVec.ofNat 9 (7 + pl.length) := rfl
@[simp] theorem State.startExchange_mem (s : State) (lat : Latch) (pl : List Byte) : (s.startExchange lat pl).mem = s.mem.writeBlock txFrame.base (requestFrame lat.op0 lat.op1 pl) := rfl
@[simp] theorem State.startExchange_seq (s : State) (lat : Latch) (pl : List Byte) : (s.startExchange lat pl).seq = .tx := rfl
@[simp] theorem State.startExchange_iphase (s : State) (lat : Latch) (pl : List Byte) : (s.startExchange lat pl).iphase = s.iphase := rfl
@[simp] theorem State.startExchange_txIdx (s : State) (lat : Latch) (pl : List Byte) : (s.startExchange lat pl).txIdx = 0 := rfl
@[simp] theorem State.startExchange_lat (s : State) (lat : Latch) (pl : List Byte) : (s.startExchange lat pl).lat = lat := rfl
@[simp] theorem State.startExchange_rxq (s : State) (lat : Latch) (pl : List Byte) : (s.startExchange lat pl).rxq = (if s.flush then [] else s.rxq) := rfl
@[simp] theorem State.startExchange_tmr (s : State) (lat : Latch) (pl : List Byte) : (s.startExchange lat pl).tmr = s.tmr := rfl
@[simp] theorem State.startExchange_events (s : State) (lat : Latch) (pl : List Byte) : (s.startExchange lat pl).events = s.events := rfl
@[simp] theorem State.startExchange_wire (s : State) (lat : Latch) (pl : List Byte) : (s.startExchange lat pl).wire = s.wire := rfl
@[simp] theorem State.startExchange_hostReads (s : State) (lat : Latch) (pl : List Byte) : (s.startExchange lat pl).hostReads = s.hostReads := rfl

@[simp] theorem State.startSetLed_params (s : State) : s.startSetLed.params = s.params := rfl
@[simp] theorem State.startSetLed_done (s : State) : s.startSetLed.done = s.done := rfl
@[simp] theorem State.startSetLed_devReady (s : State) : s.startSetLed.devReady = s.devReady := rfl
@[simp] theorem State.startSetLed_csumOk (s : State) : s.startSetLed.csumOk = s.csumOk := rfl
@[simp] theorem State.startSetLed_noCard (s : State) : s.startSetLed.noCard = s.noCard := rfl
@[simp] theorem State.startSetLed_cmdDropped (s : State) : s.startSetLed.cmdDropped = s.cmdDropped := rfl
@[simp] theorem State.startSetLed_rxOvf (s : State) : s.startSetLed.rxOvf = s.rxOvf := rfl
@[simp] theorem State.startSetLed_cfg (s : State) : s.startSetLed.cfg = s.cfg := rfl
@[simp] theorem State.startSetLed_checkVal (s : State) : s.startSetLed.checkVal = s.checkVal := rfl
@[simp] theorem State.startSetLed_opc0 (s : State) : s.startSetLed.opc0 = s.opc0 := rfl
@[simp] theorem State.startSetLed_opc1 (s : State) : s.startSetLed.opc1 = s.opc1 := rfl
@[simp] theorem State.startSetLed_plen (s : State) : s.startSetLed.plen = s.plen := rfl
@[simp] theorem State.startSetLed_resCode (s : State) : s.startSetLed.resCode = s.resCode := rfl
@[simp] theorem State.startSetLed_resStatus (s : State) : s.startSetLed.resStatus = s.resStatus := rfl
@[simp] theorem State.startSetLed_resPlen (s : State) : s.startSetLed.resPlen = s.resPlen := rfl
@[simp] theorem State.startSetLed_rxCount (s : State) : s.startSetLed.rxCount = 0 := rfl
@[simp] theorem State.startSetLed_txLen (s : State) : s.startSetLed.txLen = 8 := rfl
@[simp] theorem State.startSetLed_mem (s : State) : s.startSetLed.mem = s.mem.writeBlock txFrame.base (requestFrame 0x01 0x04 [0x02]) := rfl
@[simp] theorem State.startSetLed_seq (s : State) : s.startSetLed.seq = .tx := rfl
@[simp] theorem State.startSetLed_iphase (s : State) : s.startSetLed.iphase = .setLed := rfl
@[simp] theorem State.startSetLed_txIdx (s : State) : s.startSetLed.txIdx = 0 := rfl
@[simp] theorem State.startSetLed_lat (s : State) : s.startSetLed.lat = setLedLatch := rfl
@[simp] theorem State.startSetLed_rxq (s : State) : s.startSetLed.rxq = (if s.flush then [] else s.rxq) := rfl
@[simp] theorem State.startSetLed_tmr (s : State) : s.startSetLed.tmr = s.tmr := rfl
@[simp] theorem State.startSetLed_events (s : State) : s.startSetLed.events = s.events := rfl
@[simp] theorem State.startSetLed_wire (s : State) : s.startSetLed.wire = s.wire := rfl
@[simp] theorem State.startSetLed_hostReads (s : State) : s.startSetLed.hostReads = s.hostReads := rfl

@[simp] theorem State.hostReadStep_params (s : State) (a : Addr) : (s.hostReadStep a).params = s.params := rfl
@[simp] theorem State.hostReadStep_done (s : State) (a : Addr) : (s.hostReadStep a).done = s.done := rfl
@[simp] theorem State.hostReadStep_devReady (s : State) (a : Addr) : (s.hostReadStep a).devReady = s.devReady := rfl
@[simp] theorem State.hostReadStep_csumOk (s : State) (a : Addr) : (s.hostReadStep a).csumOk = s.csumOk := rfl
@[simp] theorem State.hostReadStep_noCard (s : State) (a : Addr) : (s.hostReadStep a).noCard = s.noCard := rfl
@[simp] theorem State.hostReadStep_cmdDropped (s : State) (a : Addr) : (s.hostReadStep a).cmdDropped = s.cmdDropped := rfl
@[simp] theorem State.hostReadStep_rxOvf (s : State) (a : Addr) : (s.hostReadStep a).rxOvf = s.rxOvf := rfl
@[simp] theorem State.hostReadStep_cfg (s : State) (a : Addr) : (s.hostReadStep a).cfg = s.cfg := rfl
@[simp] theorem State.hostReadStep_checkVal (s : State) (a : Addr) : (s.hostReadStep a).checkVal = s.checkVal := rfl
@[simp] theorem State.hostReadStep_opc0 (s : State) (a : Addr) : (s.hostReadStep a).opc0 = s.opc0 := rfl
@[simp] theorem State.hostReadStep_opc1 (s : State) (a : Addr) : (s.hostReadStep a).opc1 = s.opc1 := rfl
@[simp] theorem State.hostReadStep_plen (s : State) (a : Addr) : (s.hostReadStep a).plen = s.plen := rfl
@[simp] theorem State.hostReadStep_resCode (s : State) (a : Addr) : (s.hostReadStep a).resCode = s.resCode := rfl
@[simp] theorem State.hostReadStep_resStatus (s : State) (a : Addr) : (s.hostReadStep a).resStatus = s.resStatus := rfl
@[simp] theorem State.hostReadStep_resPlen (s : State) (a : Addr) : (s.hostReadStep a).resPlen = s.resPlen := rfl
@[simp] theorem State.hostReadStep_rxCount (s : State) (a : Addr) : (s.hostReadStep a).rxCount = s.rxCount := rfl
@[simp] theorem State.hostReadStep_txLen (s : State) (a : Addr) : (s.hostReadStep a).txLen = s.txLen := rfl
@[simp] theorem State.hostReadStep_mem (s : State) (a : Addr) : (s.hostReadStep a).mem = s.mem := rfl
@[simp] theorem State.hostReadStep_seq (s : State) (a : Addr) : (s.hostReadStep a).seq = s.seq := rfl
@[simp] theorem State.hostReadStep_iphase (s : State) (a : Addr) : (s.hostReadStep a).iphase = s.iphase := rfl
@[simp] theorem State.hostReadStep_txIdx (s : State) (a : Addr) : (s.hostReadStep a).txIdx = s.txIdx := rfl
@[simp] theorem State.hostReadStep_lat (s : State) (a : Addr) : (s.hostReadStep a).lat = s.lat := rfl
@[simp] theorem State.hostReadStep_rxq (s : State) (a : Addr) : (s.hostReadStep a).rxq = s.rxq := rfl
@[simp] theorem State.hostReadStep_tmr (s : State) (a : Addr) : (s.hostReadStep a).tmr = s.tmr := rfl
@[simp] theorem State.hostReadStep_events (s : State) (a : Addr) : (s.hostReadStep a).events = s.events := rfl
@[simp] theorem State.hostReadStep_wire (s : State) (a : Addr) : (s.hostReadStep a).wire = s.wire := rfl
@[simp] theorem State.hostReadStep_hostReads (s : State) (a : Addr) : (s.hostReadStep a).hostReads = s.hostReads ++ [s.memRead a] := rfl

@[simp] theorem State.softReset_params (s : State) : s.softReset.params = s.params := rfl
@[simp] theorem State.softReset_done (s : State) : s.softReset.done = false := rfl
@[simp] theorem State.softReset_devReady (s : State) : s.softReset.devReady = s.devReady := rfl
@[simp] theorem State.softReset_csumOk (s : State) : s.softReset.csumOk = false := rfl
@[simp] theorem State.softReset_noCard (s : State) : s.softReset.noCard = false := rfl
@[simp] theorem State.softReset_cmdDropped (s : State) : s.softReset.cmdDropped = false := rfl
@[simp] theorem State.softReset_rxOvf (s : State) : s.softReset.rxOvf = false := rfl
@[simp] theorem State.softReset_cfg (s : State) : s.softReset.cfg = s.cfg := rfl
@[simp] theorem State.softReset_checkVal (s : State) : s.softReset.checkVal = s.checkVal := rfl
@[simp] theorem State.softReset_opc0 (s : State) : s.softReset.opc0 = s.opc0 := rfl
@[simp] theorem State.softReset_opc1 (s : State) : s.softReset.opc1 = s.opc1 := rfl
@[simp] theorem State.softReset_plen (s : State) : s.softReset.plen = s.plen := rfl
@[simp] theorem State.softReset_resCode (s : State) : s.softReset.resCode = .none := rfl
@[simp] theorem State.softReset_resStatus (s : State) : s.softReset.resStatus = 0x00 := rfl
@[simp] theorem State.softReset_resPlen (s : State) : s.softReset.resPlen = 0x00 := rfl
@[simp] theorem State.softReset_rxCount (s : State) : s.softReset.rxCount = 0 := rfl
@[simp] theorem State.softReset_txLen (s : State) : s.softReset.txLen = 0 := rfl
@[simp] theorem State.softReset_mem (s : State) : s.softReset.mem = s.mem.keepOnly reqPl := rfl
@[simp] theorem State.softReset_seq (s : State) : s.softReset.seq = .idle := rfl
@[simp] theorem State.softReset_iphase (s : State) : s.softReset.iphase = .none := rfl
@[simp] theorem State.softReset_txIdx (s : State) : s.softReset.txIdx = 0 := rfl
@[simp] theorem State.softReset_lat (s : State) : s.softReset.lat = { op0 := 0x00, op1 := 0x00, chkEn := false, chkVal := 0x00 } := rfl
@[simp] theorem State.softReset_rxq (s : State) : s.softReset.rxq = [] := rfl
@[simp] theorem State.softReset_tmr (s : State) : s.softReset.tmr = false := rfl
@[simp] theorem State.softReset_events (s : State) : s.softReset.events = s.events := rfl
@[simp] theorem State.softReset_wire (s : State) : s.softReset.wire = s.wire := rfl
@[simp] theorem State.softReset_hostReads (s : State) : s.softReset.hostReads = s.hostReads := rfl

@[simp] theorem State.powerOn_params (s : State) : s.powerOn.params = s.params := rfl
@[simp] theorem State.powerOn_done (s : State) : s.powerOn.done = false := rfl
@[simp] theorem State.powerOn_devReady (s : State) : s.powerOn.devReady = false := rfl
@[simp] theorem State.powerOn_csumOk (s : State) : s.powerOn.csumOk = false := rfl
@[simp] theorem State.powerOn_noCard (s : State) : s.powerOn.noCard = false := rfl
@[simp] theorem State.powerOn_cmdDropped (s : State) : s.powerOn.cmdDropped = false := rfl
@[simp] theorem State.powerOn_rxOvf (s : State) : s.powerOn.rxOvf = false := rfl
@[simp] theorem State.powerOn_cfg (s : State) : s.powerOn.cfg = 0x1 := rfl
@[simp] theorem State.powerOn_checkVal (s : State) : s.powerOn.checkVal = 0x00 := rfl
@[simp] theorem State.powerOn_opc0 (s : State) : s.powerOn.opc0 = 0x00 := rfl
@[simp] theorem State.powerOn_opc1 (s : State) : s.powerOn.opc1 = 0x00 := rfl
@[simp] theorem State.powerOn_plen (s : State) : s.powerOn.plen = 0x00 := rfl
@[simp] theorem State.powerOn_resCode (s : State) : s.powerOn.resCode = .none := rfl
@[simp] theorem State.powerOn_resStatus (s : State) : s.powerOn.resStatus = 0x00 := rfl
@[simp] theorem State.powerOn_resPlen (s : State) : s.powerOn.resPlen = 0x00 := rfl
@[simp] theorem State.powerOn_rxCount (s : State) : s.powerOn.rxCount = 0 := rfl
@[simp] theorem State.powerOn_txLen (s : State) : s.powerOn.txLen = 0 := rfl
@[simp] theorem State.powerOn_mem (s : State) : s.powerOn.mem = [] := rfl
@[simp] theorem State.powerOn_seq (s : State) : s.powerOn.seq = .idle := rfl
@[simp] theorem State.powerOn_iphase (s : State) : s.powerOn.iphase = .none := rfl
@[simp] theorem State.powerOn_txIdx (s : State) : s.powerOn.txIdx = 0 := rfl
@[simp] theorem State.powerOn_lat (s : State) : s.powerOn.lat = { op0 := 0x00, op1 := 0x00, chkEn := false, chkVal := 0x00 } := rfl
@[simp] theorem State.powerOn_rxq (s : State) : s.powerOn.rxq = [] := rfl
@[simp] theorem State.powerOn_tmr (s : State) : s.powerOn.tmr = false := rfl
@[simp] theorem State.powerOn_events (s : State) : s.powerOn.events = s.events := rfl
@[simp] theorem State.powerOn_wire (s : State) : s.powerOn.wire = s.wire := rfl
@[simp] theorem State.powerOn_hostReads (s : State) : s.powerOn.hostReads = s.hostReads := rfl

@[simp] theorem State.captureByte_params (s : State) (b : Byte) : (s.captureByte b).params = s.params := by
  unfold State.captureByte; split <;> rfl
@[simp] theorem State.captureByte_done (s : State) (b : Byte) : (s.captureByte b).done = s.done := by
  unfold State.captureByte; split <;> rfl
@[simp] theorem State.captureByte_devReady (s : State) (b : Byte) : (s.captureByte b).devReady = s.devReady := by
  unfold State.captureByte; split <;> rfl
@[simp] theorem State.captureByte_csumOk (s : State) (b : Byte) : (s.captureByte b).csumOk = s.csumOk := by
  unfold State.captureByte; split <;> rfl
@[simp] theorem State.captureByte_noCard (s : State) (b : Byte) : (s.captureByte b).noCard = s.noCard := by
  unfold State.captureByte; split <;> rfl
@[simp] theorem State.captureByte_cmdDropped (s : State) (b : Byte) : (s.captureByte b).cmdDropped = s.cmdDropped := by
  unfold State.captureByte; split <;> rfl
@[simp] theorem State.captureByte_rxOvf (s : State) (b : Byte) : (s.captureByte b).rxOvf = s.rxOvf := by
  unfold State.captureByte; split <;> rfl
@[simp] theorem State.captureByte_cfg (s : State) (b : Byte) : (s.captureByte b).cfg = s.cfg := by
  unfold State.captureByte; split <;> rfl
@[simp] theorem State.captureByte_checkVal (s : State) (b : Byte) : (s.captureByte b).checkVal = s.checkVal := by
  unfold State.captureByte; split <;> rfl
@[simp] theorem State.captureByte_opc0 (s : State) (b : Byte) : (s.captureByte b).opc0 = s.opc0 := by
  unfold State.captureByte; split <;> rfl
@[simp] theorem State.captureByte_opc1 (s : State) (b : Byte) : (s.captureByte b).opc1 = s.opc1 := by
  unfold State.captureByte; split <;> rfl
@[simp] theorem State.captureByte_plen (s : State) (b : Byte) : (s.captureByte b).plen = s.plen := by
  unfold State.captureByte; split <;> rfl
@[simp] theorem State.captureByte_resCode (s : State) (b : Byte) : (s.captureByte b).resCode = s.resCode := by
  unfold State.captureByte; split <;> rfl
@[simp] theorem State.captureByte_resStatus (s : State) (b : Byte) : (s.captureByte b).resStatus = s.resStatus := by
  unfold State.captureByte; split <;> rfl
@[simp] theorem State.captureByte_resPlen (s : State) (b : Byte) : (s.captureByte b).resPlen = s.resPlen := by
  unfold State.captureByte; split <;> rfl
@[simp] theorem State.captureByte_txLen (s : State) (b : Byte) : (s.captureByte b).txLen = s.txLen := by
  unfold State.captureByte; split <;> rfl
@[simp] theorem State.captureByte_seq (s : State) (b : Byte) : (s.captureByte b).seq = s.seq := by
  unfold State.captureByte; split <;> rfl
@[simp] theorem State.captureByte_iphase (s : State) (b : Byte) : (s.captureByte b).iphase = s.iphase := by
  unfold State.captureByte; split <;> rfl
@[simp] theorem State.captureByte_txIdx (s : State) (b : Byte) : (s.captureByte b).txIdx = s.txIdx := by
  unfold State.captureByte; split <;> rfl
@[simp] theorem State.captureByte_lat (s : State) (b : Byte) : (s.captureByte b).lat = s.lat := by
  unfold State.captureByte; split <;> rfl
@[simp] theorem State.captureByte_rxq (s : State) (b : Byte) : (s.captureByte b).rxq = s.rxq := by
  unfold State.captureByte; split <;> rfl
@[simp] theorem State.captureByte_tmr (s : State) (b : Byte) : (s.captureByte b).tmr = s.tmr := by
  unfold State.captureByte; split <;> rfl
@[simp] theorem State.captureByte_events (s : State) (b : Byte) : (s.captureByte b).events = s.events := by
  unfold State.captureByte; split <;> rfl
@[simp] theorem State.captureByte_wire (s : State) (b : Byte) : (s.captureByte b).wire = s.wire := by
  unfold State.captureByte; split <;> rfl
@[simp] theorem State.captureByte_hostReads (s : State) (b : Byte) : (s.captureByte b).hostReads = s.hostReads := by
  unfold State.captureByte; split <;> rfl

@[simp] theorem State.deliver_params (s : State) (b : Byte) : (s.deliver b).params = s.params := by
  unfold State.deliver; split <;> rfl
@[simp] theorem State.deliver_done (s : State) (b : Byte) : (s.deliver b).done = s.done := by
  unfold State.deliver; split <;> rfl
@[simp] theorem State.deliver_devReady (s : State) (b : Byte) : (s.deliver b).devReady = s.devReady := by
  unfold State.deliver; split <;> rfl
@[simp] theorem State.deliver_csumOk (s : State) (b : Byte) : (s.deliver b).csumOk = s.csumOk := by
  unfold State.deliver; split <;> rfl
@[simp] theorem State.deliver_noCard (s : State) (b : Byte) : (s.deliver b).noCard = s.noCard := by
  unfold State.deliver; split <;> rfl
@[simp] theorem State.deliver_cmdDropped (s : State) (b : Byte) : (s.deliver b).cmdDropped = s.cmdDropped := by
  unfold State.deliver; split <;> rfl
@[simp] theorem State.deliver_cfg (s : State) (b : Byte) : (s.deliver b).cfg = s.cfg := by
  unfold State.deliver; split <;> rfl
@[simp] theorem State.deliver_checkVal (s : State) (b : Byte) : (s.deliver b).checkVal = s.checkVal := by
  unfold State.deliver; split <;> rfl
@[simp] theorem State.deliver_opc0 (s : State) (b : Byte) : (s.deliver b).opc0 = s.opc0 := by
  unfold State.deliver; split <;> rfl
@[simp] theorem State.deliver_opc1 (s : State) (b : Byte) : (s.deliver b).opc1 = s.opc1 := by
  unfold State.deliver; split <;> rfl
@[simp] theorem State.deliver_plen (s : State) (b : Byte) : (s.deliver b).plen = s.plen := by
  unfold State.deliver; split <;> rfl
@[simp] theorem State.deliver_resCode (s : State) (b : Byte) : (s.deliver b).resCode = s.resCode := by
  unfold State.deliver; split <;> rfl
@[simp] theorem State.deliver_resStatus (s : State) (b : Byte) : (s.deliver b).resStatus = s.resStatus := by
  unfold State.deliver; split <;> rfl
@[simp] theorem State.deliver_resPlen (s : State) (b : Byte) : (s.deliver b).resPlen = s.resPlen := by
  unfold State.deliver; split <;> rfl
@[simp] theorem State.deliver_rxCount (s : State) (b : Byte) : (s.deliver b).rxCount = s.rxCount := by
  unfold State.deliver; split <;> rfl
@[simp] theorem State.deliver_txLen (s : State) (b : Byte) : (s.deliver b).txLen = s.txLen := by
  unfold State.deliver; split <;> rfl
@[simp] theorem State.deliver_mem (s : State) (b : Byte) : (s.deliver b).mem = s.mem := by
  unfold State.deliver; split <;> rfl
@[simp] theorem State.deliver_seq (s : State) (b : Byte) : (s.deliver b).seq = s.seq := by
  unfold State.deliver; split <;> rfl
@[simp] theorem State.deliver_iphase (s : State) (b : Byte) : (s.deliver b).iphase = s.iphase := by
  unfold State.deliver; split <;> rfl
@[simp] theorem State.deliver_txIdx (s : State) (b : Byte) : (s.deliver b).txIdx = s.txIdx := by
  unfold State.deliver; split <;> rfl
@[simp] theorem State.deliver_lat (s : State) (b : Byte) : (s.deliver b).lat = s.lat := by
  unfold State.deliver; split <;> rfl
@[simp] theorem State.deliver_tmr (s : State) (b : Byte) : (s.deliver b).tmr = s.tmr := by
  unfold State.deliver; split <;> rfl
@[simp] theorem State.deliver_events (s : State) (b : Byte) : (s.deliver b).events = s.events := by
  unfold State.deliver; split <;> rfl
@[simp] theorem State.deliver_wire (s : State) (b : Byte) : (s.deliver b).wire = s.wire := by
  unfold State.deliver; split <;> rfl
@[simp] theorem State.deliver_hostReads (s : State) (b : Byte) : (s.deliver b).hostReads = s.hostReads := by
  unfold State.deliver; split <;> rfl

@[simp] theorem State.txStep_params (s : State) : s.txStep.params = s.params := by
  unfold State.txStep; split <;> rfl
@[simp] theorem State.txStep_done (s : State) : s.txStep.done = s.done := by
  unfold State.txStep; split <;> rfl
@[simp] theorem State.txStep_devReady (s : State) : s.txStep.devReady = s.devReady := by
  unfold State.txStep; split <;> rfl
@[simp] theorem State.txStep_csumOk (s : State) : s.txStep.csumOk = s.csumOk := by
  unfold State.txStep; split <;> rfl
@[simp] theorem State.txStep_noCard (s : State) : s.txStep.noCard = s.noCard := by
  unfold State.txStep; split <;> rfl
@[simp] theorem State.txStep_cmdDropped (s : State) : s.txStep.cmdDropped = s.cmdDropped := by
  unfold State.txStep; split <;> rfl
@[simp] theorem State.txStep_rxOvf (s : State) : s.txStep.rxOvf = s.rxOvf := by
  unfold State.txStep; split <;> rfl
@[simp] theorem State.txStep_cfg (s : State) : s.txStep.cfg = s.cfg := by
  unfold State.txStep; split <;> rfl
@[simp] theorem State.txStep_checkVal (s : State) : s.txStep.checkVal = s.checkVal := by
  unfold State.txStep; split <;> rfl
@[simp] theorem State.txStep_opc0 (s : State) : s.txStep.opc0 = s.opc0 := by
  unfold State.txStep; split <;> rfl
@[simp] theorem State.txStep_opc1 (s : State) : s.txStep.opc1 = s.opc1 := by
  unfold State.txStep; split <;> rfl
@[simp] theorem State.txStep_plen (s : State) : s.txStep.plen = s.plen := by
  unfold State.txStep; split <;> rfl
@[simp] theorem State.txStep_resCode (s : State) : s.txStep.resCode = s.resCode := by
  unfold State.txStep; split <;> rfl
@[simp] theorem State.txStep_resStatus (s : State) : s.txStep.resStatus = s.resStatus := by
  unfold State.txStep; split <;> rfl
@[simp] theorem State.txStep_resPlen (s : State) : s.txStep.resPlen = s.resPlen := by
  unfold State.txStep; split <;> rfl
@[simp] theorem State.txStep_rxCount (s : State) : s.txStep.rxCount = s.rxCount := by
  unfold State.txStep; split <;> rfl
@[simp] theorem State.txStep_txLen (s : State) : s.txStep.txLen = s.txLen := by
  unfold State.txStep; split <;> rfl
@[simp] theorem State.txStep_mem (s : State) : s.txStep.mem = s.mem := by
  unfold State.txStep; split <;> rfl
@[simp] theorem State.txStep_iphase (s : State) : s.txStep.iphase = s.iphase := by
  unfold State.txStep; split <;> rfl
@[simp] theorem State.txStep_lat (s : State) : s.txStep.lat = s.lat := by
  unfold State.txStep; split <;> rfl
@[simp] theorem State.txStep_rxq (s : State) : s.txStep.rxq = s.rxq := by
  unfold State.txStep; split <;> rfl
@[simp] theorem State.txStep_events (s : State) : s.txStep.events = s.events := by
  unfold State.txStep; split <;> rfl
@[simp] theorem State.txStep_hostReads (s : State) : s.txStep.hostReads = s.hostReads := by
  unfold State.txStep; split <;> rfl

@[simp] theorem State.captureAppend_params (s : State) (bytes : List Byte) : (s.captureAppend bytes).params = s.params := by
  induction bytes generalizing s with
  | nil => rfl
  | cons b rest ih => simp [State.captureAppend, ih]
@[simp] theorem State.captureAppend_done (s : State) (bytes : List Byte) : (s.captureAppend bytes).done = s.done := by
  induction bytes generalizing s with
  | nil => rfl
  | cons b rest ih => simp [State.captureAppend, ih]
@[simp] theorem State.captureAppend_devReady (s : State) (bytes : List Byte) : (s.captureAppend bytes).devReady = s.devReady := by
  induction bytes generalizing s with
  | nil => rfl
  | cons b rest ih => simp [State.captureAppend, ih]
@[simp] theorem State.captureAppend_csumOk (s : State) (bytes : List Byte) : (s.captureAppend bytes).csumOk = s.csumOk := by
  induction bytes generalizing s with
  | nil => rfl
  | cons b rest ih => simp [State.captureAppend, ih]
@[simp] theorem State.captureAppend_noCard (s : State) (bytes : List Byte) : (s.captureAppend bytes).noCard = s.noCard := by
  induction bytes generalizing s with
  | nil => rfl
  | cons b rest ih => simp [State.captureAppend, ih]
@[simp] theorem State.captureAppend_cmdDropped (s : State) (bytes : List Byte) : (s.captureAppend bytes).cmdDropped = s.cmdDropped := by
  induction bytes generalizing s with
  | nil => rfl
  | cons b rest ih => simp [State.captureAppend, ih]
@[simp] theorem State.captureAppend_rxOvf (s : State) (bytes : List Byte) : (s.captureAppend bytes).rxOvf = s.rxOvf := by
  induction bytes generalizing s with
  | nil => rfl
  | cons b rest ih => simp [State.captureAppend, ih]
@[simp] theorem State.captureAppend_cfg (s : State) (bytes : List Byte) : (s.captureAppend bytes).cfg = s.cfg := by
  induction bytes generalizing s with
  | nil => rfl
  | cons b rest ih => simp [State.captureAppend, ih]
@[simp] theorem State.captureAppend_checkVal (s : State) (bytes : List Byte) : (s.captureAppend bytes).checkVal = s.checkVal := by
  induction bytes generalizing s with
  | nil => rfl
  | cons b rest ih => simp [State.captureAppend, ih]
@[simp] theorem State.captureAppend_opc0 (s : State) (bytes : List Byte) : (s.captureAppend bytes).opc0 = s.opc0 := by
  induction bytes generalizing s with
  | nil => rfl
  | cons b rest ih => simp [State.captureAppend, ih]
@[simp] theorem State.captureAppend_opc1 (s : State) (bytes : List Byte) : (s.captureAppend bytes).opc1 = s.opc1 := by
  induction bytes generalizing s with
  | nil => rfl
  | cons b rest ih => simp [State.captureAppend, ih]
@[simp] theorem State.captureAppend_plen (s : State) (bytes : List Byte) : (s.captureAppend bytes).plen = s.plen := by
  induction bytes generalizing s with
  | nil => rfl
  | cons b rest ih => simp [State.captureAppend, ih]
@[simp] theorem State.captureAppend_resCode (s : State) (bytes : List Byte) : (s.captureAppend bytes).resCode = s.resCode := by
  induction bytes generalizing s with
  | nil => rfl
  | cons b rest ih => simp [State.captureAppend, ih]
@[simp] theorem State.captureAppend_resStatus (s : State) (bytes : List Byte) : (s.captureAppend bytes).resStatus = s.resStatus := by
  induction bytes generalizing s with
  | nil => rfl
  | cons b rest ih => simp [State.captureAppend, ih]
@[simp] theorem State.captureAppend_resPlen (s : State) (bytes : List Byte) : (s.captureAppend bytes).resPlen = s.resPlen := by
  induction bytes generalizing s with
  | nil => rfl
  | cons b rest ih => simp [State.captureAppend, ih]
@[simp] theorem State.captureAppend_txLen (s : State) (bytes : List Byte) : (s.captureAppend bytes).txLen = s.txLen := by
  induction bytes generalizing s with
  | nil => rfl
  | cons b rest ih => simp [State.captureAppend, ih]
@[simp] theorem State.captureAppend_seq (s : State) (bytes : List Byte) : (s.captureAppend bytes).seq = s.seq := by
  induction bytes generalizing s with
  | nil => rfl
  | cons b rest ih => simp [State.captureAppend, ih]
@[simp] theorem State.captureAppend_iphase (s : State) (bytes : List Byte) : (s.captureAppend bytes).iphase = s.iphase := by
  induction bytes generalizing s with
  | nil => rfl
  | cons b rest ih => simp [State.captureAppend, ih]
@[simp] theorem State.captureAppend_txIdx (s : State) (bytes : List Byte) : (s.captureAppend bytes).txIdx = s.txIdx := by
  induction bytes generalizing s with
  | nil => rfl
  | cons b rest ih => simp [State.captureAppend, ih]
@[simp] theorem State.captureAppend_lat (s : State) (bytes : List Byte) : (s.captureAppend bytes).lat = s.lat := by
  induction bytes generalizing s with
  | nil => rfl
  | cons b rest ih => simp [State.captureAppend, ih]
@[simp] theorem State.captureAppend_rxq (s : State) (bytes : List Byte) : (s.captureAppend bytes).rxq = s.rxq := by
  induction bytes generalizing s with
  | nil => rfl
  | cons b rest ih => simp [State.captureAppend, ih]
@[simp] theorem State.captureAppend_tmr (s : State) (bytes : List Byte) : (s.captureAppend bytes).tmr = s.tmr := by
  induction bytes generalizing s with
  | nil => rfl
  | cons b rest ih => simp [State.captureAppend, ih]
@[simp] theorem State.captureAppend_events (s : State) (bytes : List Byte) : (s.captureAppend bytes).events = s.events := by
  induction bytes generalizing s with
  | nil => rfl
  | cons b rest ih => simp [State.captureAppend, ih]
@[simp] theorem State.captureAppend_wire (s : State) (bytes : List Byte) : (s.captureAppend bytes).wire = s.wire := by
  induction bytes generalizing s with
  | nil => rfl
  | cons b rest ih => simp [State.captureAppend, ih]
@[simp] theorem State.captureAppend_hostReads (s : State) (bytes : List Byte) : (s.captureAppend bytes).hostReads = s.hostReads := by
  induction bytes generalizing s with
  | nil => rfl
  | cons b rest ih => simp [State.captureAppend, ih]

@[simp] theorem State.receive_params (s : State) (max : Nat) : (s.receive max).params = s.params := by
  simp [State.receive]
@[simp] theorem State.receive_done (s : State) (max : Nat) : (s.receive max).done = s.done := by
  simp [State.receive]
@[simp] theorem State.receive_devReady (s : State) (max : Nat) : (s.receive max).devReady = s.devReady := by
  simp [State.receive]
@[simp] theorem State.receive_csumOk (s : State) (max : Nat) : (s.receive max).csumOk = s.csumOk := by
  simp [State.receive]
@[simp] theorem State.receive_noCard (s : State) (max : Nat) : (s.receive max).noCard = s.noCard := by
  simp [State.receive]
@[simp] theorem State.receive_cmdDropped (s : State) (max : Nat) : (s.receive max).cmdDropped = s.cmdDropped := by
  simp [State.receive]
@[simp] theorem State.receive_rxOvf (s : State) (max : Nat) : (s.receive max).rxOvf = s.rxOvf := by
  simp [State.receive]
@[simp] theorem State.receive_cfg (s : State) (max : Nat) : (s.receive max).cfg = s.cfg := by
  simp [State.receive]
@[simp] theorem State.receive_checkVal (s : State) (max : Nat) : (s.receive max).checkVal = s.checkVal := by
  simp [State.receive]
@[simp] theorem State.receive_opc0 (s : State) (max : Nat) : (s.receive max).opc0 = s.opc0 := by
  simp [State.receive]
@[simp] theorem State.receive_opc1 (s : State) (max : Nat) : (s.receive max).opc1 = s.opc1 := by
  simp [State.receive]
@[simp] theorem State.receive_plen (s : State) (max : Nat) : (s.receive max).plen = s.plen := by
  simp [State.receive]
@[simp] theorem State.receive_resCode (s : State) (max : Nat) : (s.receive max).resCode = s.resCode := by
  simp [State.receive]
@[simp] theorem State.receive_resStatus (s : State) (max : Nat) : (s.receive max).resStatus = s.resStatus := by
  simp [State.receive]
@[simp] theorem State.receive_resPlen (s : State) (max : Nat) : (s.receive max).resPlen = s.resPlen := by
  simp [State.receive]
@[simp] theorem State.receive_txLen (s : State) (max : Nat) : (s.receive max).txLen = s.txLen := by
  simp [State.receive]
@[simp] theorem State.receive_seq (s : State) (max : Nat) : (s.receive max).seq = s.seq := by
  simp [State.receive]
@[simp] theorem State.receive_iphase (s : State) (max : Nat) : (s.receive max).iphase = s.iphase := by
  simp [State.receive]
@[simp] theorem State.receive_txIdx (s : State) (max : Nat) : (s.receive max).txIdx = s.txIdx := by
  simp [State.receive]
@[simp] theorem State.receive_lat (s : State) (max : Nat) : (s.receive max).lat = s.lat := by
  simp [State.receive]
@[simp] theorem State.receive_rxq (s : State) (max : Nat) : (s.receive max).rxq = s.rxq.drop max := by
  simp [State.receive]
@[simp] theorem State.receive_tmr (s : State) (max : Nat) : (s.receive max).tmr = s.tmr := by
  simp [State.receive]
@[simp] theorem State.receive_events (s : State) (max : Nat) : (s.receive max).events = s.events := by
  simp [State.receive]
@[simp] theorem State.receive_wire (s : State) (max : Nat) : (s.receive max).wire = s.wire := by
  simp [State.receive]
@[simp] theorem State.receive_hostReads (s : State) (max : Nat) : (s.receive max).hostReads = s.hostReads := by
  simp [State.receive]

end Sys2Proof.Machine
end

