-- ==== Sys2Proof/Laws/Memory.lean ====
section
/-! SUPPORT. What the memory operations do: reads after writes, the canonical form they keep, and the addresses they list. -/

namespace Sys2Proof.Machine

theorem Memory.wf_iff (m : Memory) :
    m.wf = true ↔ m.Pairwise (fun p q => p.1 < q.1) ∧ ∀ c ∈ m, c.2 ≠ unlistedByte := by
  simp [Memory.wf]

@[simp] theorem Memory.wf_nil : Memory.wf [] = true := rfl

theorem Memory.wf_cons (c : Host.Cell) (m : Memory) :
    Memory.wf (c :: m) = true ↔ (∀ d ∈ m, c.1 < d.1) ∧ c.2 ≠ unlistedByte ∧ m.wf = true := by
  simp only [Memory.wf_iff, List.pairwise_cons, List.mem_cons, forall_eq_or_imp]
  tauto

@[simp] theorem Memory.get_nil (a : Nat) : Memory.get [] a = unlistedByte := rfl

theorem Memory.get_of_lt {m : Memory} {a : Nat} (h : ∀ d ∈ m, a < d.1) : m.get a = unlistedByte := by
  induction m with
  | nil => rfl
  | cons c m ih =>
    have hc := h c (List.mem_cons_self ..)
    simp only [Memory.get]
    rw [if_neg (by omega)]
    exact ih fun d hd => h d (List.mem_cons_of_mem _ hd)

/-- An address that is not listed reads as 00. -/
theorem Memory.get_of_not_listed {m : Memory} {a : Nat} (h : ∀ d ∈ m, d.1 ≠ a) : m.get a = unlistedByte := by
  induction m with
  | nil => rfl
  | cons c m ih =>
    simp only [Memory.get]
    rw [if_neg (h c (List.mem_cons_self ..))]
    exact ih fun d hd => h d (List.mem_cons_of_mem _ hd)

/-- A store lists no address but its own and those listed before. -/
theorem Memory.set_listed {m : Memory} {a : Nat} {b : Byte} {d : Host.Cell} (h : d ∈ m.set a b) : d.1 = a ∨ d ∈ m := by
  induction m with
  | nil =>
    simp only [Memory.set] at h
    split at h <;> simp_all
  | cons c m ih =>
    simp only [Memory.set] at h
    split at h
    · split at h <;> simp_all
      rcases h with rfl | h <;> simp_all
    · split at h
      · split at h <;> simp_all
        rcases h with rfl | h <;> simp_all
      · rcases List.mem_cons.1 h with rfl | h
        · exact .inr (List.mem_cons_self ..)
        · exact (ih h).imp id (List.mem_cons_of_mem _)

/-- Every store keeps the canonical form. -/
theorem Memory.set_wf {m : Memory} (a : Nat) (b : Byte) (h : m.wf = true) : (m.set a b).wf = true := by
  induction m with
  | nil =>
    simp only [Memory.set]
    split
    · rfl
    · next hb => simp [Memory.wf_cons, hb]
  | cons c m ih =>
    obtain ⟨hlt, hnz, hm⟩ := (Memory.wf_cons c m).1 h
    simp only [Memory.set]
    split
    · next hac =>
      split
      · exact h
      · next hb =>
        refine (Memory.wf_cons _ _).2 ⟨?_, hb, h⟩
        intro d hd
        rcases List.mem_cons.1 hd with rfl | hd
        · exact hac
        · exact lt_trans hac (hlt d hd)
    · next hac =>
      split
      · next hk =>
        split
        · exact hm
        · next hb => exact (Memory.wf_cons _ _).2 ⟨fun d hd => by simpa [hk] using hlt d hd, hb, hm⟩
      · next hk =>
        refine (Memory.wf_cons _ _).2 ⟨?_, hnz, ih hm⟩
        intro d hd
        rcases Memory.set_listed hd with h1 | h1
        · omega
        · exact hlt d h1

/-- A read after a store: the stored byte at its address, the old byte elsewhere. -/
theorem Memory.get_set {m : Memory} (h : m.wf = true) (a : Nat) (b : Byte) (x : Nat) :
    (m.set a b).get x = if x = a then b else m.get x := by
  induction m with
  | nil =>
    by_cases hb : b = unlistedByte
    · simp [Memory.set, hb]
    · simp [Memory.set, hb, Memory.get, eq_comm]
  | cons c m ih =>
    obtain ⟨hlt, hnz, hm⟩ := (Memory.wf_cons c m).1 h
    obtain ⟨k, v⟩ := c
    simp only at hlt
    have hmiss : ∀ y, y ≤ k → Memory.get m y = unlistedByte :=
      fun y hy => Memory.get_of_lt fun d hd => lt_of_le_of_lt hy (hlt d hd)
    simp only [Memory.set]
    by_cases h1 : a < k
    · rw [if_pos h1]
      by_cases hb : b = unlistedByte
      · rw [if_pos hb]
        by_cases hx : x = a
        · rw [if_pos hx, hb, hx]
          simp only [Memory.get]
          rw [if_neg (by omega), hmiss a (by omega)]
        · rw [if_neg hx]
      · rw [if_neg hb]
        simp only [Memory.get, eq_comm]
    · rw [if_neg h1]
      by_cases h2 : a = k
      · rw [if_pos h2]
        by_cases hb : b = unlistedByte
        · rw [if_pos hb]
          by_cases hx : x = a
          · rw [if_pos hx, hmiss x (by omega), hb]
          · rw [if_neg hx]
            simp only [Memory.get]
            rw [if_neg (by omega)]
        · rw [if_neg hb]
          by_cases hx : x = a
          · simp [Memory.get, hx]
          · simp only [Memory.get]
            rw [if_neg (by omega), if_neg hx, if_neg (by omega)]
      · rw [if_neg h2]
        simp only [Memory.get, ih hm]
        by_cases hx : x = a
        · rw [if_neg (by omega), if_pos hx, if_pos hx]
        · rw [if_neg hx, if_neg hx]

@[simp] theorem Memory.writeBlock_nil (m : Memory) (a : Nat) : m.writeBlock a [] = m := rfl

theorem Memory.writeBlock_wf {m : Memory} (a : Nat) (bytes : List Byte) (h : m.wf = true) : (m.writeBlock a bytes).wf = true := by
  induction bytes generalizing m a with
  | nil => exact h
  | cons b rest ih => exact ih (a + 1) (Memory.set_wf a b h)

theorem Memory.writeBlock_listed {m : Memory} {a : Nat} {bytes : List Byte} {d : Host.Cell} (h : d ∈ m.writeBlock a bytes) :
    (a ≤ d.1 ∧ d.1 < a + bytes.length) ∨ d ∈ m := by
  induction bytes generalizing m a with
  | nil => exact .inr h
  | cons b rest ih =>
    simp only [List.length_cons]
    rcases ih (m := m.set a b) (a := a + 1) h with h1 | h1
    · exact .inl ⟨by omega, by omega⟩
    · rcases Memory.set_listed h1 with h2 | h2
      · exact .inl ⟨by omega, by omega⟩
      · exact .inr h2

/-- A read after a block store: the block's byte inside it, the old byte outside. -/
theorem Memory.get_writeBlock {m : Memory} (h : m.wf = true) (a : Nat) (bytes : List Byte) (x : Nat) :
    (m.writeBlock a bytes).get x = if a ≤ x ∧ x < a + bytes.length then byteAt bytes (x - a) else m.get x := by
  induction bytes generalizing m a with
  | nil =>
    rw [if_neg (by simp), Memory.writeBlock_nil]
  | cons b rest ih =>
    simp only [Memory.writeBlock, List.length_cons]
    rw [ih (Memory.set_wf a b h), Memory.get_set h]
    by_cases hx : x = a
    · subst hx
      rw [if_neg (by omega), if_pos rfl, if_pos (by omega)]
      simp [byteAt]
    · by_cases hin : a + 1 ≤ x ∧ x < a + 1 + rest.length
      · rw [if_pos hin, if_pos (by omega)]
        have : x - a = (x - (a + 1)) + 1 := by omega
        simp [byteAt, this]
      · rw [if_neg hin, if_neg hx, if_neg (by omega)]

theorem Memory.get_writeBlock_outside {m : Memory} (h : m.wf = true) {a : Nat} {bytes : List Byte} {x : Nat}
    (hx : x < a ∨ a + bytes.length ≤ x) : (m.writeBlock a bytes).get x = m.get x := by
  rw [Memory.get_writeBlock h, if_neg (by omega)]

@[simp] theorem Memory.readBlock_length (m : Memory) (a n : Nat) : (m.readBlock a n).length = n := by
  induction n generalizing a with
  | zero => rfl
  | succ n ih => simp [Memory.readBlock, ih]

theorem Memory.byteAt_readBlock (m : Memory) (a n i : Nat) :
    byteAt (m.readBlock a n) i = if i < n then m.get (a + i) else 0x00 := by
  induction n generalizing a i with
  | zero => simp [Memory.readBlock, byteAt]
  | succ n ih =>
    cases i with
    | zero => simp [Memory.readBlock, byteAt]
    | succ i =>
      have h := ih (a + 1) i
      simp only [byteAt] at h
      simp only [Memory.readBlock, byteAt, List.getD_cons_succ, h]
      simp only [Nat.add_lt_add_iff_right, Nat.add_assoc, Nat.add_comm 1 i]

/-- Two blocks whose bytes agree are equal. -/
theorem Memory.readBlock_congr {m m' : Memory} {a a' n : Nat} (h : ∀ i, i < n → m.get (a + i) = m'.get (a' + i)) :
    m.readBlock a n = m'.readBlock a' n := by
  induction n generalizing a a' with
  | zero => rfl
  | succ n ih =>
    simp only [Memory.readBlock]
    have h0 := h 0 (by omega)
    simp only [Nat.add_zero] at h0
    rw [h0, ih]
    intro i hi
    have := h (i + 1) (by omega)
    simpa [Nat.add_assoc, Nat.add_comm 1 i] using this

/-- A block reads back as it was written. -/
theorem Memory.readBlock_writeBlock {m : Memory} (h : m.wf = true) (a : Nat) (bytes : List Byte) :
    (m.writeBlock a bytes).readBlock a bytes.length = bytes := by
  induction bytes generalizing m a with
  | nil => rfl
  | cons b rest ih =>
    simp only [Memory.writeBlock, List.length_cons, Memory.readBlock]
    rw [ih (Memory.set_wf a b h)]
    rw [Memory.get_writeBlock_outside (Memory.set_wf a b h) (by omega), Memory.get_set h, if_pos rfl]

theorem Memory.keepOnly_wf {m : Memory} (b : Buffer) (h : m.wf = true) : (m.keepOnly b).wf = true := by
  rw [Memory.wf_iff] at *
  exact ⟨h.1.filter _, fun c hc => h.2 c (List.mem_filter.1 hc).1⟩

theorem Memory.keepOnly_listed {m : Memory} {b : Buffer} {d : Host.Cell} (h : d ∈ m.keepOnly b) : d ∈ m ∧ b.holds d.1 = true :=
  List.mem_filter.1 h

/-- The kept buffer reads as before, and every other address reads 00. -/
theorem Memory.get_keepOnly (m : Memory) (b : Buffer) (a : Nat) :
    (m.keepOnly b).get a = if b.holds a then m.get a else unlistedByte := by
  induction m with
  | nil => simp [Memory.keepOnly]
  | cons c m ih =>
    obtain ⟨k, v⟩ := c
    by_cases hk : k = a
    · subst hk
      by_cases hb : b.holds k = true
      · simp [Memory.keepOnly, hb, Memory.get]
      · simp only [Memory.keepOnly, hb] at ih ⊢
        simp [hb, ih]
    · by_cases hb : b.holds k = true
      · simp only [Memory.keepOnly, List.filter_cons, hb, if_true, Memory.get, hk, if_false] at ih ⊢
        exact ih
      · simp only [Memory.keepOnly, List.filter_cons, hb, Memory.get, hk, if_false] at ih ⊢
        exact ih

theorem Memory.get_of_mem {m : Memory} (h : m.wf = true) {c : Host.Cell} (hc : c ∈ m) : m.get c.1 = c.2 := by
  induction m with
  | nil => cases hc
  | cons d m ih =>
    obtain ⟨hlt, -, hm⟩ := (Memory.wf_cons d m).1 h
    obtain ⟨k, v⟩ := d
    rcases List.mem_cons.1 hc with rfl | hc
    · simp [Memory.get]
    · have := hlt c hc
      simp only at this
      simp only [Memory.get]
      rw [if_neg (by omega)]
      exact ih hm hc

/-- Memories in canonical form that read alike are the same data. -/
theorem Memory.ext_get {m m' : Memory} (h : m.wf = true) (h' : m'.wf = true) (hg : ∀ a, m.get a = m'.get a) : m = m' := by
  have sub : ∀ {p q : Memory}, p.wf = true → q.wf = true → (∀ a, p.get a = q.get a) → ∀ c ∈ p, c ∈ q := by
    intro p q hp hq hpq c hc
    have hv : q.get c.1 = c.2 := by rw [← hpq, Memory.get_of_mem hp hc]
    have hnz : c.2 ≠ unlistedByte := ((Memory.wf_iff p).1 hp).2 c hc
    by_contra hno
    refine hnz (hv.symm.trans (Memory.get_of_not_listed fun d hd hda => hno ?_))
    have hd2 : d.2 = c.2 := by rw [← Memory.get_of_mem hq hd, hda, hv]
    have : d = c := Prod.ext hda hd2
    exact this ▸ hd
  have hp := ((Memory.wf_iff m).1 h).1
  have hp' := ((Memory.wf_iff m').1 h').1
  have nd : m.Nodup := hp.imp fun hlt heq => by simp [heq] at hlt
  have nd' : m'.Nodup := hp'.imp fun hlt heq => by simp [heq] at hlt
  have hperm : m.Perm m' :=
    (List.perm_ext_iff_of_nodup nd nd').2 fun c => ⟨sub h h' hg c, sub h' h (fun a => (hg a).symm) c⟩
  exact hperm.eq_of_pairwise (fun p q _ _ h1 h2 => absurd h1 (by omega)) hp hp'

end Sys2Proof.Machine
end

