-- ==== Sys2Proof/Laws/Codec.lean ====
section
/-! SUPPORT. The pure functions of the codec: the XOR fold, slices, request frames, and what each check of Decode lets through. -/

namespace Sys2Proof.Machine

@[simp] theorem xorfold_nil : xorfold [] = 0x00 := rfl

theorem foldl_xor (x : Byte) (s : List Byte) : s.foldl (fun y b => y ^^^ b) x = x ^^^ xorfold s := by
  induction s generalizing x with
  | nil => simp
  | cons b s ih =>
    have h0 : (0x00 : Byte) ^^^ b = b := BitVec.zero_xor
    simp only [xorfold, List.foldl_cons]
    rw [ih, ih (0x00 ^^^ b), h0, BitVec.xor_assoc]

@[simp] theorem xorfold_cons (b : Byte) (s : List Byte) : xorfold (b :: s) = b ^^^ xorfold s := by
  have h0 : (0x00 : Byte) ^^^ b = b := BitVec.zero_xor
  rw [xorfold, List.foldl_cons, foldl_xor, h0]

@[simp] theorem xorfold_append (s t : List Byte) : xorfold (s ++ t) = xorfold s ^^^ xorfold t := by
  induction s with
  | nil => simp
  | cons b s ih => simp [ih, BitVec.xor_assoc]

theorem slice_length (s : List Byte) (a b : Nat) : (slice s a b).length = min b s.length - a := by
  simp [slice]

theorem requestFrame_length (op0 op1 : Byte) (pl : List Byte) : (requestFrame op0 op1 pl).length = 7 + pl.length := by
  simp [requestFrame, Config.preamble]
  omega

/-- The bytes of a request frame, written out. -/
theorem requestFrame_eq (op0 op1 : Byte) (pl : List Byte) :
    requestFrame op0 op1 pl =
      0xAA :: 0xDD :: 0x00 :: BitVec.ofNat 8 (pl.length + 3) :: op0 :: op1 :: (pl ++ [csumGen op0 op1 pl]) := by
  simp [requestFrame, Config.preamble]

/-- Every byte from offset 4 of a request frame, written out. -/
theorem requestFrame_tail (op0 op1 : Byte) (pl : List Byte) :
    slice (requestFrame op0 op1 pl) 4 (requestFrame op0 op1 pl).length = op0 :: op1 :: (pl ++ [csumGen op0 op1 pl]) := by
  rw [slice, List.take_length, requestFrame_eq]
  rfl

/-- What the checksum byte does: it makes the fold over opcode, payload and checksum zero. -/
theorem xorfold_csumGen (op0 op1 : Byte) (pl : List Byte) : xorfold (op0 :: op1 :: (pl ++ [csumGen op0 op1 pl])) = 0x00 := by
  have h0 : ∀ x : Byte, x ^^^ 0x00 = x := fun _ => BitVec.xor_zero
  simp only [xorfold_cons, xorfold_append, csumGen, xorfold_nil, List.cons_append, List.nil_append, h0]
  rw [← BitVec.xor_assoc, ← BitVec.xor_assoc, BitVec.xor_assoc op0, BitVec.xor_self]
  rfl

theorem lengthOk_iff (raw : List Byte) : lengthOk raw = true ↔ 4 ≤ raw.length ∧ (byteAt raw 3).toNat + 4 = raw.length := by
  simp [lengthOk]

theorem preambleOk_iff (raw : List Byte) : preambleOk raw = true ↔ slice raw 0 3 = Config.preamble := by
  simp [preambleOk]

theorem echoOk_iff (op0 op1 : Byte) (raw : List Byte) :
    echoOk op0 op1 raw = true ↔ 6 ≤ raw.length ∧ byteAt raw 4 = op0 ∧ byteAt raw 5 = op1 := by
  simp [echoOk, and_assoc]

theorem checksumOk_iff (raw : List Byte) : checksumOk raw = true ↔ xorfold (slice raw 4 raw.length) = 0x00 := by
  simp [checksumOk]

@[simp] theorem decodeFail_code (c : ResCode) : (decodeFail c).code = c := rfl
@[simp] theorem decodeFail_status (c : ResCode) : (decodeFail c).status = 0x00 := rfl
@[simp] theorem decodeFail_pl (c : ResCode) : (decodeFail c).pl = [] := rfl
@[simp] theorem decodeFail_csumOk (c : ResCode) : (decodeFail c).csumOk = false := rfl

/-- The record of a decode that reached status extraction (40 R141). -/
def decodeReached (ctx : DecodeCtx) (raw : List Byte) : DecodeResult :=
  { code := if ctx.chkEn && decide (byteAt raw 6 ≠ ctx.chkVal) then .deviceStatus else .ok
    status := byteAt raw 6
    pl := payloadOf ctx.op0 ctx.op1 raw
    csumOk := checksumOk raw }

/-- The buffer passes every check of Decode before the status check (40 R141). -/
structure ReachesStatus (ctx : DecodeCtx) (raw : List Byte) : Prop where
  length : lengthOk raw = true
  preamble : preambleOk raw = true
  echo : echoOk ctx.op0 ctx.op1 raw = true
  status : 7 ≤ raw.length
  checksum : ctx.verify = true → checksumOk raw = true

/-- Everything Decode can answer: a failure of one of three codes, or the record of a buffer that reached status extraction. -/
theorem decodeResponse_cases (ctx : DecodeCtx) (raw : List Byte) :
    (∃ c, (c = .badLength ∨ c = .badFormat ∨ c = .badChecksum) ∧ decodeResponse ctx raw = decodeFail c) ∨
      (ReachesStatus ctx raw ∧ decodeResponse ctx raw = decodeReached ctx raw) := by
  unfold decodeResponse
  split
  · exact .inl ⟨_, .inl rfl, rfl⟩
  · next h1 =>
    split
    · exact .inl ⟨_, .inr (.inl rfl), rfl⟩
    · next h2 =>
      split
      · exact .inl ⟨_, .inr (.inl rfl), rfl⟩
      · next h3 =>
        split
        · exact .inl ⟨_, .inl rfl, rfl⟩
        · next h4 =>
          split
          · exact .inl ⟨_, .inr (.inr rfl), rfl⟩
          · next h5 =>
            refine .inr ⟨⟨by simpa using h1, by simpa using h2, by simpa using h3, by omega, ?_⟩, rfl⟩
            intro hv
            simpa [hv] using h5

/-- A buffer that passes every check gives the record of its status and payload. -/
theorem decodeResponse_reached {ctx : DecodeCtx} {raw : List Byte} (h : ReachesStatus ctx raw) :
    decodeResponse ctx raw = decodeReached ctx raw := by
  have h4 : ¬ raw.length < 7 := by have := h.status; omega
  simp only [decodeResponse, h.length, h.preamble, h.echo, Bool.not_true, Bool.false_eq_true, if_false, h4]
  rw [if_neg]
  · rfl
  · intro hv
    simp only [Bool.and_eq_true] at hv
    rw [h.checksum hv.1] at hv
    simp at hv

/-- A buffer that passes the length parser is shorter than 260 bytes (40 R142). -/
theorem length_lt_of_lengthOk {raw : List Byte} (h : lengthOk raw = true) : raw.length < 260 := by
  have := (lengthOk_iff raw).1 h
  have := (byteAt raw 3).isLt
  omega

/-- No extracted payload is longer than RES_PL (40 R149, R150). -/
theorem payloadOf_length_le (op0 op1 : Byte) {raw : List Byte} (h : lengthOk raw = true) (h7 : 7 ≤ raw.length) :
    (payloadOf op0 op1 raw).length ≤ 251 := by
  have := length_lt_of_lengthOk h
  unfold payloadOf
  split
  · simp only [tokenPayload, slice_length]; omega
  · simp only [genericPayload, slice_length]; omega

/-- The token window always has 5 bytes (40 R150). -/
theorem tokenPayload_length {raw : List Byte} (h7 : 7 ≤ raw.length) : (tokenPayload raw).length = 5 := by
  simp only [tokenPayload, slice_length]; omega

theorem decodeResponse_pl_length_le (ctx : DecodeCtx) (raw : List Byte) : (decodeResponse ctx raw).pl.length ≤ 251 := by
  rcases decodeResponse_cases ctx raw with ⟨c, -, h⟩ | ⟨hr, h⟩
  · simp [h]
  · rw [h]
    exact payloadOf_length_le _ _ hr.length hr.status

/-- Decode never answers NONE. -/
theorem decodeResponse_code_ne_none (ctx : DecodeCtx) (raw : List Byte) : (decodeResponse ctx raw).code ≠ .none := by
  rcases decodeResponse_cases ctx raw with ⟨c, hc, h⟩ | ⟨-, h⟩
  · rw [h]
    rcases hc with rfl | rfl | rfl <;> simp
  · rw [h]
    simp only [decodeReached]
    split <;> simp

end Sys2Proof.Machine
end

