-- ==== Sys2Proof/Laws/Ops.lean ====
section
/-! SUPPORT. Everything each shared operation can do: capture, buffers, taking a command. -/

namespace Sys2Proof.Machine

theorem Buffer.holds_iff (b : Buffer) (a : Nat) : b.holds a = true ↔ b.base ≤ a ∧ a < b.base + b.size := by
  simp [Buffer.holds]

/-- The dispatcher knows each opcode of the catalog (30 R108). -/
theorem catalogOf_opcode (c : Catalog) : catalogOf c.op0 c.op1 = some c := by
  cases c <;> decide

theorem State.captureByte_rxCount (s : State) (b : Byte) (h : s.rxCount.toNat ≤ 260) :
    (s.captureByte b).rxCount.toNat = min 260 (s.rxCount.toNat + 1) := by
  unfold State.captureByte
  split
  · next hlt =>
    simp only [Config.rxBufCap] at hlt
    have h1 : (1 : Count).toNat = 1 := rfl
    simp only [BitVec.toNat_add, h1]
    omega
  · next hlt =>
    simp only [Config.rxBufCap] at hlt
    omega

/-- RX_COUNT after CaptureAppend: it saturates at 260 (20 R85). -/
theorem State.captureAppend_rxCount (s : State) (bytes : List Byte) (h : s.rxCount.toNat ≤ 260) :
    (s.captureAppend bytes).rxCount.toNat = min 260 (s.rxCount.toNat + bytes.length) := by
  induction bytes generalizing s with
  | nil => simp [State.captureAppend]; omega
  | cons b rest ih =>
    have h1 := s.captureByte_rxCount b h
    rw [State.captureAppend, ih _ (by omega), h1, List.length_cons]
    omega

theorem State.captureByte_mem_wf (s : State) (b : Byte) (h : s.mem.wf = true) : (s.captureByte b).mem.wf = true := by
  unfold State.captureByte
  split
  · exact Memory.set_wf _ _ h
  · exact h

theorem State.captureAppend_mem_wf (s : State) (bytes : List Byte) (h : s.mem.wf = true) : (s.captureAppend bytes).mem.wf = true := by
  induction bytes generalizing s with
  | nil => exact h
  | cons b rest ih => exact ih _ (s.captureByte_mem_wf b h)

theorem State.captureByte_get (s : State) (b : Byte) (h : s.mem.wf = true) (x : Nat) :
    (s.captureByte b).mem.get x =
      if s.rxCount.toNat < 260 ∧ x = rxBuf.base + s.rxCount.toNat then b else s.mem.get x := by
  by_cases hlt : s.rxCount.toNat < 260
  · simp [State.captureByte, Config.rxBufCap, hlt, Memory.get_set h]
  · simp [State.captureByte, Config.rxBufCap, hlt]

/-- The cells CaptureAppend writes: the bytes that still fit, at RX_BUF[RX_COUNT ..), and no other (20 R85). -/
theorem State.captureAppend_get (s : State) (bytes : List Byte) (h : s.mem.wf = true) (hc : s.rxCount.toNat ≤ 260) (x : Nat) :
    (s.captureAppend bytes).mem.get x =
      if rxBuf.base + s.rxCount.toNat ≤ x ∧ x < rxBuf.base + min 260 (s.rxCount.toNat + bytes.length) then
        byteAt bytes (x - (rxBuf.base + s.rxCount.toNat))
      else s.mem.get x := by
  induction bytes generalizing s with
  | nil => rw [if_neg (by simp; omega)]; rfl
  | cons b rest ih =>
    have hn := s.captureByte_rxCount b hc
    rw [State.captureAppend, ih _ (s.captureByte_mem_wf b h) (by omega), s.captureByte_get b h, hn, List.length_cons]
    by_cases hlt : s.rxCount.toNat < 260
    · have hm : min 260 (s.rxCount.toNat + 1) = s.rxCount.toNat + 1 := by omega
      rw [hm]
      by_cases hx : x = rxBuf.base + s.rxCount.toNat
      · subst hx
        rw [if_neg (by omega), if_pos ⟨hlt, rfl⟩, if_pos (by omega), Nat.sub_self]
        simp [byteAt]
      · rw [if_neg (c := s.rxCount.toNat < 260 ∧ _) (by omega)]
        by_cases hin : rxBuf.base + (s.rxCount.toNat + 1) ≤ x ∧ x < rxBuf.base + min 260 (s.rxCount.toNat + 1 + rest.length)
        · rw [if_pos hin, if_pos (by omega)]
          have hsub : x - (rxBuf.base + s.rxCount.toNat) = (x - (rxBuf.base + (s.rxCount.toNat + 1))) + 1 := by omega
          rw [hsub]
          simp [byteAt]
        · rw [if_neg hin, if_neg (by omega)]
    · rw [if_neg (by omega), if_neg (by omega), if_neg (by omega)]

theorem State.captureAppend_get_outside (s : State) (bytes : List Byte) (h : s.mem.wf = true) (hc : s.rxCount.toNat ≤ 260) {x : Nat}
    (hx : rxBuf.holds x = false) : (s.captureAppend bytes).mem.get x = s.mem.get x := by
  have hb : rxBuf.base = 0x400 := rfl
  have hs : rxBuf.size = 260 := rfl
  have hx' : ¬ (rxBuf.base ≤ x ∧ x < rxBuf.base + rxBuf.size) := by
    intro h1
    simp [Buffer.holds, h1] at hx
  rw [s.captureAppend_get bytes h hc, if_neg (by omega)]

theorem State.cells_length (s : State) (b : Buffer) (n : Nat) : (s.cells b n).length = min n b.size := by
  simp [State.cells]

theorem State.byteAt_cells (s : State) (b : Buffer) (n i : Nat) :
    byteAt (s.cells b n) i = if i < min n b.size then s.cell b i else 0x00 := by
  rw [State.cells, Memory.byteAt_readBlock, State.cell]

/-- Two buffers read the same when their cells do. -/
theorem State.cells_congr {s t : State} {b : Buffer} {n : Nat} (h : ∀ a, b.holds a = true → s.mem.get a = t.mem.get a) :
    s.cells b n = t.cells b n := by
  refine Memory.readBlock_congr fun i hi => h _ ?_
  simp [Buffer.holds]
  omega

theorem getD_eq_of_lt {l : List Byte} {i : Nat} (h : i < l.length) : byteAt l i = l[i] := by
  simp [byteAt, h]

/-- Lists of bytes agree when their lengths and bytes do. -/
theorem ext_byteAt {l l' : List Byte} (hl : l.length = l'.length) (h : ∀ i, i < l.length → byteAt l i = byteAt l' i) : l = l' := by
  refine List.ext_getElem hl fun i h1 h2 => ?_
  have := h i h1
  rwa [getD_eq_of_lt h1, getD_eq_of_lt h2] at this

theorem byteAt_append (l l' : List Byte) (i : Nat) :
    byteAt (l ++ l') i = if i < l.length then byteAt l i else byteAt l' (i - l.length) := by
  simp only [byteAt, List.getD_eq_getElem?_getD, List.getElem?_append]
  split <;> rfl

theorem byteAt_take (l : List Byte) (n i : Nat) : byteAt (l.take n) i = if i < n then byteAt l i else 0x00 := by
  simp only [byteAt, List.getD_eq_getElem?_getD, List.getElem?_take]
  split <;> simp

/-- raw after CaptureAppend: the old bytes and the new ones, cut at 260 (20 R85, 10 R36). -/
theorem State.captureAppend_raw (s : State) (bytes : List Byte) (h : s.mem.wf = true) (hc : s.rxCount.toNat ≤ 260) :
    (s.captureAppend bytes).raw = (s.raw ++ bytes).take 260 := by
  have hn := s.captureAppend_rxCount bytes hc
  have hs : rxBuf.size = 260 := rfl
  have hb : rxBuf.base = 0x400 := rfl
  refine ext_byteAt ?_ fun i hi => ?_
  · simp only [State.raw, State.cells_length, hn, List.length_take, List.length_append, hs]
    omega
  · simp only [State.raw, State.cells_length, hs, hn] at hi
    have hL : byteAt (s.captureAppend bytes).raw i = (s.captureAppend bytes).cell rxBuf i := by
      rw [State.raw, State.byteAt_cells, if_pos (by omega)]
    have hR : byteAt ((s.raw ++ bytes).take 260) i =
        if i < s.rxCount.toNat then s.cell rxBuf i else byteAt bytes (i - s.rxCount.toNat) := by
      have hlen : s.raw.length = s.rxCount.toNat := by rw [State.raw, State.cells_length]; omega
      rw [byteAt_take, if_pos (by omega), byteAt_append, hlen]
      by_cases hlt : i < s.rxCount.toNat
      · rw [if_pos hlt, if_pos hlt, State.raw, State.byteAt_cells, if_pos (by omega)]
      · rw [if_neg hlt, if_neg hlt]
    rw [hL, hR, State.cell, s.captureAppend_get bytes h hc]
    by_cases hlt : i < s.rxCount.toNat
    · rw [if_neg (by omega), if_pos hlt, State.cell]
    · rw [if_pos (by omega), if_neg hlt]
      congr 1
      omega

/-- The frame BuildFrame leaves in TX_FRAME (40 R133). -/
theorem State.buildFrame_lastFrame (s : State) (op0 op1 : Byte) (pl : List Byte) (h : s.mem.wf = true) (hp : pl.length ≤ 252) :
    (s.buildFrame op0 op1 pl).lastFrame = requestFrame op0 op1 pl := by
  have hl := requestFrame_length op0 op1 pl
  have hn : min ((BitVec.ofNat 9 (7 + pl.length)).toNat) txFrame.size = (requestFrame op0 op1 pl).length := by
    simp only [BitVec.toNat_ofNat, txFrame, hl]
    omega
  rw [State.lastFrame, State.cells, State.buildFrame_txLen, State.buildFrame_mem, hn]
  exact Memory.readBlock_writeBlock h _ _

/-- Taking a command: dropped while BUSY = 1, else accepted and run (42 R190). -/
theorem State.take_of_busy {s : State} {run : State → State} (h : s.busy = true) : s.take run = s.dropCommand := by
  simp [State.take, h]

theorem State.take_of_idle {s : State} {run : State → State} (h : s.busy = false) : s.take run = run s.accept := by
  simp [State.take, h]

theorem State.busy_eq_false {s : State} : s.busy = false ↔ s.seq = .idle := by
  simp [State.busy]

theorem State.busy_eq_true {s : State} : s.busy = true ↔ s.seq ≠ .idle := by
  simp [State.busy]

theorem State.reqPayload_length (s : State) : s.reqPayload.length = min s.plen.toNat 252 := by
  simp [State.reqPayload, State.cells_length, reqPl]

/-- A catalog command passes its checks exactly for the shape of its opcode, and then P <= 252 (41 R170, R171). -/
theorem catalogCheck_cases (c : Catalog) (n : Nat) :
    (catalogCheck c n = .ok ∧ n ≤ 252 ∧ shapeOk c n = true) ∨
      (catalogCheck c n = .encodingError ∧ ¬ (n ≤ 252 ∧ shapeOk c n = true)) := by
  by_cases h1 : n > 252
  · exact .inr ⟨by simp [catalogCheck, Config.maxPayload, h1], by omega⟩
  · by_cases h2 : shapeOk c n = true
    · exact .inl ⟨by simp [catalogCheck, Config.maxPayload, h1, h2], by omega, h2⟩
    · exact .inr ⟨by simp [catalogCheck, Config.maxPayload, h1, h2], fun h => h2 h.2⟩

/-- Everything a catalog command does once accepted. -/
theorem State.runCatalog_cases (s : State) (c : Catalog) :
    (s.plen.toNat ≤ 252 ∧ shapeOk c s.plen.toNat = true ∧
        s.runCatalog c =
          ({ s with iphase := .none } : State).startExchange (s.executeLatch c.op0 c.op1) s.reqPayload) ∨
      (¬ (s.plen.toNat ≤ 252 ∧ shapeOk c s.plen.toNat = true) ∧ s.runCatalog c = s.finishPlain .encodingError) := by
  unfold State.runCatalog
  rcases catalogCheck_cases c s.plen.toNat with ⟨h, h1, h2⟩ | ⟨h, h1⟩
  · rw [h]; exact .inl ⟨h1, h2, rfl⟩
  · rw [h]; exact .inr ⟨h1, rfl⟩

end Sys2Proof.Machine
end

