-- ==== Sys2Proof/Laws/Invariant.lean ====
section
/-! SUPPORT. Each operation keeps the invariant of Safety.lean: one lemma per operation, for the invariant's step theorem to cite. -/

namespace Sys2Proof.Machine

theorem reqPl_holds_iff (a : Nat) : reqPl.holds a = true ↔ 0x100 ≤ a ∧ a < 0x1FC := by
  rw [Buffer.holds_iff]
  simp [reqPl]

theorem txFrame_holds_iff (a : Nat) : txFrame.holds a = true ↔ 0x200 ≤ a ∧ a < 0x303 := by
  rw [Buffer.holds_iff]
  simp [txFrame]

theorem rxBuf_holds_iff (a : Nat) : rxBuf.holds a = true ↔ 0x400 ≤ a ∧ a < 0x504 := by
  rw [Buffer.holds_iff]
  simp [rxBuf]

theorem resPl_holds_iff (a : Nat) : resPl.holds a = true ↔ 0x600 ≤ a ∧ a < 0x6FB := by
  rw [Buffer.holds_iff]
  simp [resPl]

/-- The buffer cells of the register space (20 R76). -/
theorem isBufferAddr_iff (a : Nat) :
    isBufferAddr a = true ↔
      (0x100 ≤ a ∧ a < 0x1FC) ∨ (0x200 ≤ a ∧ a < 0x303) ∨ (0x400 ≤ a ∧ a < 0x504) ∨ (0x600 ≤ a ∧ a < 0x6FB) := by
  simp only [isBufferAddr, Bool.or_eq_true, reqPl_holds_iff, txFrame_holds_iff, rxBuf_holds_iff, resPl_holds_iff, or_assoc]

/-- A request frame is what 40 R134 says of every built frame. -/
theorem requestFrame_built (op0 op1 : Byte) {pl : List Byte} (h : pl.length ≤ 252) : FrameBuilt (requestFrame op0 op1 pl) where
  length_byte := by
    rw [requestFrame_length, requestFrame_eq]
    simp [byteAt]
    omega
  preamble := by rw [requestFrame_eq]; rfl
  checksum := by rw [requestFrame_tail, xorfold_csumGen]

/-- Fields the invariant does not read. -/
theorem State.Inv.of_fields {s t : State} (h : s.Inv)
    (e1 : t.params = s.params) (e2 : t.mem = s.mem) (e3 : t.rxCount = s.rxCount) (e4 : t.txLen = s.txLen) (e5 : t.txIdx = s.txIdx)
    (e6 : t.seq = s.seq) (e7 : t.tmr = s.tmr) (e8 : t.lat = s.lat) (e9 : t.iphase = s.iphase) (e10 : t.devReady = s.devReady)
    (e11 : t.done = s.done) (e12 : t.resCode = s.resCode) (e13 : t.noCard = s.noCard) (e14 : t.resPlen = s.resPlen)
    (e15 : t.rxq = s.rxq) : t.Inv := by
  have hf : t.lastFrame = s.lastFrame := by rw [State.lastFrame, State.lastFrame, State.cells, State.cells, e2, e4]
  have hr : t.cells resPl 5 = s.cells resPl 5 := by rw [State.cells, State.cells, e2]
  constructor <;> simp only [e1, e2, e3, e4, e5, e6, e7, e8, e9, e10, e11, e12, e13, e14, e15, hf, hr]
  · exact h.params_legal
  · exact h.mem_wf
  · exact h.mem_mapped
  · exact h.rxCount_le
  · exact h.txLen_range
  · exact h.frame_built
  · exact h.txIdx_le
  · exact h.tx_pending
  · exact h.tx_sent
  · exact h.tmr_armed
  · exact h.frame_opcode
  · exact h.lat_catalog
  · exact h.capture_empty
  · exact h.capture_some
  · exact h.iphase_busy
  · exact h.iphase_getInfo
  · exact h.iphase_setLed
  · exact h.busy_no_result
  · exact h.done_result
  · exact h.noCard_zero
  · exact h.resPlen_le
  · exact h.rxq_bound

/-- The step's pop of an event. -/
theorem State.Inv.withEvents {s : State} (h : s.Inv) (es : List Event) : ({ s with events := es } : State).Inv :=
  h.of_fields rfl rfl rfl rfl rfl rfl rfl rfl rfl rfl rfl rfl rfl rfl rfl

theorem State.Inv.dropCommand {s : State} (h : s.Inv) : s.dropCommand.Inv :=
  h.of_fields rfl rfl rfl rfl rfl rfl rfl rfl rfl rfl rfl rfl rfl rfl rfl

theorem State.Inv.hostReadStep {s : State} (h : s.Inv) (a : Addr) : (s.hostReadStep a).Inv :=
  h.of_fields rfl rfl rfl rfl rfl rfl rfl rfl rfl rfl rfl rfl rfl rfl rfl

/-- What an idle state owes the invariant: everything about a running exchange is vacuous. -/
structure State.IdleInv (s : State) : Prop where
  params_legal : s.params.wellFormed = true
  mem_wf : s.mem.wf = true
  mem_mapped : ∀ c ∈ s.mem, isBufferAddr c.1 = true
  rxCount_le : s.rxCount.toNat ≤ 260
  txLen_range : s.txLen.toNat = 0 ∨ (7 ≤ s.txLen.toNat ∧ s.txLen.toNat ≤ 259)
  frame_built : s.txLen.toNat ≠ 0 → FrameBuilt s.lastFrame
  txIdx_le : s.txIdx ≤ 259
  done_result : s.done = true → s.resCode ≠ .none
  noCard_zero : s.noCard = true → s.resCode = .ok ∧ s.resPlen = 5 ∧ s.cells resPl 5 = [0x00, 0x00, 0x00, 0x00, 0x00]
  resPlen_le : s.resPlen.toNat ≤ 251
  rxq_bound : s.rxq.length ≤ s.params.rxqDepth

theorem State.Inv.idleInv {s : State} (h : s.Inv) : s.IdleInv :=
  { params_legal := h.params_legal, mem_wf := h.mem_wf, mem_mapped := h.mem_mapped, rxCount_le := h.rxCount_le
    txLen_range := h.txLen_range, frame_built := h.frame_built, txIdx_le := h.txIdx_le, done_result := h.done_result
    noCard_zero := h.noCard_zero, resPlen_le := h.resPlen_le, rxq_bound := h.rxq_bound }

theorem State.IdleInv.inv {s : State} (h : s.IdleInv) (hs : s.seq = .idle) (ht : s.tmr = false) (hi : s.iphase = .none) : s.Inv where
  params_legal := h.params_legal
  mem_wf := h.mem_wf
  mem_mapped := h.mem_mapped
  rxCount_le := h.rxCount_le
  txLen_range := h.txLen_range
  frame_built := h.frame_built
  txIdx_le := h.txIdx_le
  tx_pending := by simp [hs]
  tx_sent := by simp [hs, SeqState.waits]
  tmr_armed := by simp [hs, ht, SeqState.waits]
  frame_opcode := by simp [hs]
  lat_catalog := by simp [hs]
  capture_empty := by simp [hs]
  capture_some := by simp [hs]
  iphase_busy := by simp [hi]
  iphase_getInfo := by simp [hi]
  iphase_setLed := by simp [hi]
  busy_no_result := by simp [hs]
  done_result := h.done_result
  noCard_zero := h.noCard_zero
  resPlen_le := h.resPlen_le
  rxq_bound := h.rxq_bound

theorem State.Inv.iphase_of_idle {s : State} (h : s.Inv) (hs : s.seq = .idle) : s.iphase = .none := by
  by_contra hi
  exact (h.iphase_busy hi).1 hs

theorem State.Inv.tmr_of_idle {s : State} (h : s.Inv) (hs : s.seq = .idle) : s.tmr = false := by
  rw [h.tmr_armed, hs]; rfl

theorem State.IdleInv.accept {s : State} (h : s.IdleInv) : s.accept.IdleInv :=
  { h with done_result := by simp, noCard_zero := by simp }

theorem State.IdleInv.finishPlain {s : State} (h : s.IdleInv) {code : ResCode} (hc : code ≠ .none) : (s.finishPlain code).Inv :=
  State.IdleInv.inv { h with done_result := by simpa using hc, noCard_zero := by simp, resPlen_le := by simp } rfl rfl rfl

/-- Memory facts of a block stored inside one buffer. -/
theorem Memory.writeBlock_mapped {m : Memory} {b : Buffer} {bytes : List Byte} (hm : ∀ c ∈ m, isBufferAddr c.1 = true)
    (hb : ∀ a, b.holds a = true → isBufferAddr a = true) (hl : bytes.length ≤ b.size) :
    ∀ c ∈ m.writeBlock b.base bytes, isBufferAddr c.1 = true := by
  intro c hc
  rcases Memory.writeBlock_listed hc with h1 | h1
  · exact hb _ (by simp [Buffer.holds]; omega)
  · exact hm c h1

theorem State.IdleInv.buildFrame {s : State} (h : s.IdleInv) (op0 op1 : Byte) {pl : List Byte} (hp : pl.length ≤ 252) :
    (s.buildFrame op0 op1 pl).IdleInv := by
  have hlen := requestFrame_length op0 op1 pl
  refine { params_legal := h.params_legal, mem_wf := Memory.writeBlock_wf _ _ h.mem_wf, mem_mapped := ?_, rxCount_le := h.rxCount_le
           txLen_range := ?_, frame_built := ?_, txIdx_le := h.txIdx_le, done_result := h.done_result, noCard_zero := ?_
           resPlen_le := h.resPlen_le, rxq_bound := h.rxq_bound }
  · refine Memory.writeBlock_mapped h.mem_mapped (fun a ha => ?_) (by rw [hlen]; simp [txFrame]; omega)
    rw [txFrame_holds_iff] at ha
    rw [isBufferAddr_iff]
    omega
  · simp only [State.buildFrame_txLen, BitVec.toNat_ofNat]
    omega
  · intro _
    rw [s.buildFrame_lastFrame op0 op1 pl h.mem_wf hp]
    exact requestFrame_built op0 op1 hp
  · intro hn
    obtain ⟨h1, h2, h3⟩ := h.noCard_zero hn
    refine ⟨h1, h2, ?_⟩
    rw [← h3]
    refine State.cells_congr fun a ha => Memory.get_writeBlock_outside h.mem_wf (.inr ?_)
    rw [resPl_holds_iff] at ha
    rw [hlen]
    simp [txFrame]
    omega

theorem State.IdleInv.decodeCommit {s : State} (h : s.IdleInv) (hn : s.noCard = false) {r : DecodeResult} (hl : r.pl.length ≤ 251) :
    (s.decodeCommit r).IdleInv := by
  refine { params_legal := h.params_legal, mem_wf := Memory.writeBlock_wf _ _ h.mem_wf, mem_mapped := ?_, rxCount_le := h.rxCount_le
           txLen_range := h.txLen_range, frame_built := ?_, txIdx_le := h.txIdx_le, done_result := h.done_result
           noCard_zero := by simp [hn], resPlen_le := by simp; omega, rxq_bound := h.rxq_bound }
  · refine Memory.writeBlock_mapped h.mem_mapped (fun a ha => ?_) (by simpa [resPl] using hl)
    rw [resPl_holds_iff] at ha
    rw [isBufferAddr_iff]
    omega
  · intro h0
    have : (s.decodeCommit r).lastFrame = s.lastFrame :=
      State.cells_congr fun a ha => Memory.get_writeBlock_outside h.mem_wf (.inl (by rw [txFrame_holds_iff] at ha; simp [resPl]; omega))
    rw [this]
    exact h.frame_built h0

/-- A completion after a decode: a zero token stands in RES_PL when NO_CARD is set (60 R242). -/
theorem State.IdleInv.finishDecoded {s : State} (h : s.IdleInv) {code : ResCode} {op0 op1 : Byte} (hc : code ≠ .none)
    (hp : code = .ok → op0 = 0x01 → op1 = 0x0C → s.resPlen = 5) : (s.finishDecoded code op0 op1).Inv := by
  refine State.IdleInv.inv { h with done_result := by simpa using hc, noCard_zero := ?_ } rfl rfl rfl
  intro hn
  simp only [State.finishDecoded_noCard, noCardFlag, Bool.and_eq_true, decide_eq_true_eq] at hn
  exact ⟨hn.1.1.1, hp hn.1.1.1 hn.1.1.2 hn.1.2, hn.2⟩

/-- The start of an exchange from an idle state whose results are cleared. -/
theorem State.IdleInv.startExchange {s : State} (h : s.IdleInv) {lat : Latch} {pl : List Byte} {phase : InitPhase}
    (hd : s.done = false) (hr : s.resCode = .none) (hn : s.noCard = false) (ht : s.tmr = false) (hp : pl.length ≤ 252)
    (hcat : (catalogOf lat.op0 lat.op1).isSome = true) (hph : phase ≠ .none → s.devReady = false)
    (hg : phase = .getInfo → lat = getInfoLatch) (hl : phase = .setLed → lat = setLedLatch) :
    (({ s with iphase := phase } : State).startExchange lat pl).Inv := by
  have hb := h.buildFrame lat.op0 lat.op1 hp
  have hframe : (({ s with iphase := phase } : State).startExchange lat pl).lastFrame = requestFrame lat.op0 lat.op1 pl :=
    s.buildFrame_lastFrame lat.op0 lat.op1 pl h.mem_wf hp
  have hlen : (BitVec.ofNat 9 (7 + pl.length)).toNat = 7 + pl.length := by
    simp only [BitVec.toNat_ofNat]
    omega
  constructor
  · exact h.params_legal
  · exact hb.mem_wf
  · exact hb.mem_mapped
  · simp
  · exact hb.txLen_range
  · exact hb.frame_built
  · simp
  · simp only [State.startExchange_txIdx, State.startExchange_txLen, hlen]
    omega
  · simp [SeqState.waits]
  · simpa [SeqState.waits] using ht
  · rw [hframe, requestFrame_eq]
    simp [byteAt]
  · simpa using hcat
  · simp
  · simp
  · intro h1
    exact ⟨by simp, hph h1⟩
  · exact hg
  · exact hl
  · intro _
    exact ⟨hd, hr, hn⟩
  · simp [hd]
  · simp [hn]
  · exact h.resPlen_le
  · simp only [State.startExchange_rxq, State.startExchange_params]
    split
    · simp
    · exact h.rxq_bound

/-- A catalog command keeps the invariant. -/
theorem State.IdleInv.runCatalog {s : State} (h : s.IdleInv) (hd : s.done = false) (hr : s.resCode = .none) (hn : s.noCard = false)
    (ht : s.tmr = false) (c : Catalog) : (s.runCatalog c).Inv := by
  rcases s.runCatalog_cases c with ⟨-, -, h1⟩ | ⟨-, h1⟩ <;> rw [h1]
  · have hp := s.reqPayload_length
    exact h.startExchange hd hr hn ht (by omega) (by simp [State.executeLatch, catalogOf_opcode]) (by simp) (by simp) (by simp)
  · exact h.finishPlain (by simp)

/-- ENCODE keeps the invariant. -/
theorem State.IdleInv.runEncode {s : State} (h : s.IdleInv) : s.runEncode.Inv := by
  have hp := s.reqPayload_length
  unfold State.runEncode
  split
  · exact h.finishPlain (by simp)
  · exact (h.buildFrame s.opc0 s.opc1 (by omega)).finishPlain (by simp)

/-- A decode for 01 0C that ends OK extracted five bytes (40 R150). -/
theorem decodeResponse_token_length {ctx : DecodeCtx} {raw : List Byte} (hc : (decodeResponse ctx raw).code = .ok)
    (h0 : ctx.op0 = 0x01) (h1 : ctx.op1 = 0x0C) : (decodeResponse ctx raw).pl.length = 5 := by
  rcases decodeResponse_cases ctx raw with ⟨c, hcs, h⟩ | ⟨hr, h⟩
  · rw [h] at hc
    rcases hcs with rfl | rfl | rfl <;> simp at hc
  · rw [h]
    simp only [decodeReached, payloadOf, h0, h1, and_self, if_true]
    exact tokenPayload_length hr.status

/-- DECODE keeps the invariant. -/
theorem State.IdleInv.runDecode {s : State} (h : s.IdleInv) (hn : s.noCard = false) : s.runDecode.Inv := by
  refine (h.decodeCommit hn (decodeResponse_pl_length_le _ _)).finishDecoded (decodeResponse_code_ne_none _ _) ?_
  intro hc h0 h1
  have := decodeResponse_token_length (ctx := s.decodeCtx) hc h0 h1
  simp [this]

/-- OPEN keeps the invariant. -/
theorem State.IdleInv.runOpen {s : State} (h : s.IdleInv) (hd : s.done = false) (hr : s.resCode = .none) (hn : s.noCard = false)
    (ht : s.tmr = false) : s.runOpen.Inv := by
  unfold State.runOpen
  split
  · exact h.finishPlain (by simp)
  · next hdr => exact h.startExchange hd hr hn ht (by simp) (by decide) (fun _ => by simpa using hdr) (fun _ => rfl) (by simp)

/-- Taking a command keeps the invariant when its run does. -/
theorem State.Inv.take {s : State} (h : s.Inv) {run : State → State}
    (hrun : ∀ t : State, t.IdleInv → t.done = false → t.resCode = .none → t.noCard = false → t.tmr = false → (run t).Inv) :
    (s.take run).Inv := by
  unfold State.take
  split
  · exact h.dropCommand
  · next hb =>
    have hi : s.seq = .idle := State.busy_eq_false.1 (by simpa using hb)
    exact hrun _ h.idleInv.accept rfl rfl rfl (h.tmr_of_idle hi)

theorem State.resetWith_inv {p : Params} (hp : p.wellFormed = true) : (State.resetWith p).Inv := by
  refine State.IdleInv.inv ?_ rfl rfl rfl
  constructor <;> simp [hp]

theorem State.Inv.powerOn {s : State} (h : s.Inv) : s.powerOn.Inv :=
  (State.resetWith_inv h.params_legal).of_fields rfl rfl rfl rfl rfl rfl rfl rfl rfl rfl rfl rfl rfl rfl rfl

theorem State.Inv.softReset {s : State} (h : s.Inv) : s.softReset.Inv := by
  refine State.IdleInv.inv ?_ rfl rfl rfl
  constructor
  · exact h.params_legal
  · exact Memory.keepOnly_wf _ h.mem_wf
  · exact fun c hc => h.mem_mapped c (Memory.keepOnly_listed hc).1
  all_goals simp

theorem State.Inv.clearStatus {s : State} (h : s.Inv) (v : Byte) : (s.clearStatus v).Inv :=
  { h with
    busy_no_result := fun hs => by
      obtain ⟨h1, h2, h3⟩ := h.busy_no_result hs
      exact ⟨by simp [h1], h2, h3⟩
    done_result := fun hd => by
      simp only [State.clearStatus_done, Bool.and_eq_true] at hd
      exact h.done_result hd.1 }

theorem State.Inv.deliver {s : State} (h : s.Inv) (b : Byte) : (s.deliver b).Inv := by
  unfold State.deliver
  split
  · next hl => exact { h with rxq_bound := by simp; omega }
  · exact h.of_fields rfl rfl rfl rfl rfl rfl rfl rfl rfl rfl rfl rfl rfl rfl rfl

theorem clampCount_le (n : Count) : (clampCount n).toNat ≤ 260 := by
  by_cases h : n.toNat > 260
  · simp [clampCount, Config.rxBufCap, h]
  · simp only [clampCount, Config.rxBufCap, h, if_false]
    omega

theorem State.Inv.lockedWrite {s : State} (h : s.Inv) {write : State → State} (hw : s.seq = .idle → (write s).Inv) :
    (s.lockedWrite write).Inv := by
  unfold State.lockedWrite
  split
  · exact h
  · next hb => exact hw (State.busy_eq_false.1 (by simpa using hb))

/-- A HOST store to REQ_PL or RX_BUF keeps what the invariant says of memory. -/
theorem State.Inv.bufferWrite {s : State} (h : s.Inv) {a : Nat} (v : Byte) (ha : reqPl.holds a = true ∨ rxBuf.holds a = true) :
    ({ s with mem := s.mem.set a v } : State).Inv := by
  have hout : ∀ x, txFrame.holds x = true ∨ resPl.holds x = true → (s.mem.set a v).get x = s.mem.get x := by
    intro x hx
    rw [reqPl_holds_iff, rxBuf_holds_iff] at ha
    rw [txFrame_holds_iff, resPl_holds_iff] at hx
    rw [Memory.get_set h.mem_wf, if_neg (by omega)]
  have hf : ({ s with mem := s.mem.set a v } : State).lastFrame = s.lastFrame := State.cells_congr fun x hx => hout x (.inl hx)
  have hr : ({ s with mem := s.mem.set a v } : State).cells resPl 5 = s.cells resPl 5 :=
    State.cells_congr fun x hx => hout x (.inr hx)
  refine { h with mem_wf := Memory.set_wf _ _ h.mem_wf, mem_mapped := ?_, frame_built := ?_, frame_opcode := ?_, noCard_zero := ?_ }
  · intro c hc
    rcases Memory.set_listed hc with h1 | h1
    · rw [h1, isBufferAddr_iff]
      rw [reqPl_holds_iff, rxBuf_holds_iff] at ha
      omega
    · exact h.mem_mapped c h1
  · rw [hf]; exact h.frame_built
  · rw [hf]; exact h.frame_opcode
  · rw [hr]; exact h.noCard_zero

theorem State.Inv.rxCountWrite {s : State} (h : s.Inv) (hs : s.seq = .idle) (n : Count) :
    ({ s with rxCount := clampCount n } : State).Inv :=
  { h with rxCount_le := clampCount_le n, capture_empty := by simp [hs], capture_some := by simp [hs] }

theorem State.Inv.memWrite {s : State} (h : s.Inv) (a : Addr) (v : Byte) : (s.memWrite a v).Inv := by
  unfold State.memWrite
  split
  · exact h.clearStatus v
  · exact h.lockedWrite fun _ => h.of_fields rfl rfl rfl rfl rfl rfl rfl rfl rfl rfl rfl rfl rfl rfl rfl
  · exact h.lockedWrite fun _ => h.of_fields rfl rfl rfl rfl rfl rfl rfl rfl rfl rfl rfl rfl rfl rfl rfl
  · exact h.lockedWrite fun _ => h.of_fields rfl rfl rfl rfl rfl rfl rfl rfl rfl rfl rfl rfl rfl rfl rfl
  · exact h.lockedWrite fun _ => h.of_fields rfl rfl rfl rfl rfl rfl rfl rfl rfl rfl rfl rfl rfl rfl rfl
  · exact h.lockedWrite fun _ => h.of_fields rfl rfl rfl rfl rfl rfl rfl rfl rfl rfl rfl rfl rfl rfl rfl
  · exact h.lockedWrite fun hs => h.rxCountWrite hs _
  · exact h.lockedWrite fun hs => h.rxCountWrite hs _
  · split
    · next hb =>
      rw [Bool.or_eq_true] at hb
      exact h.lockedWrite fun _ => h.bufferWrite v hb
    · exact h

theorem State.Inv.txStep {s : State} (h : s.Inv) (hs : s.seq = .tx) : s.txStep.Inv := by
  have hp := h.tx_pending hs
  have ht : s.tmr = false := by rw [h.tmr_armed, hs]; rfl
  have h0 : s.seq ≠ .idle := by simp [hs]
  have hrx := h.capture_empty (.inl hs)
  have hle : s.txIdx + 1 ≤ 259 := by
    have := h.txLen_range
    omega
  unfold State.txStep
  split
  · next hlast =>
    exact
      { h with
        txIdx_le := hle
        tx_pending := by simp
        tx_sent := fun _ => hlast
        tmr_armed := rfl
        frame_opcode := fun _ => h.frame_opcode h0
        lat_catalog := fun _ => h.lat_catalog h0
        capture_empty := fun _ => hrx
        capture_some := by simp
        iphase_busy := fun hi => ⟨by simp, (h.iphase_busy hi).2⟩
        busy_no_result := fun _ => h.busy_no_result h0 }
  · next hmore =>
    exact
      { h with
        txIdx_le := hle
        tx_pending := fun _ => by simp only; omega
        tx_sent := by simp [hs, SeqState.waits] }

/-- What a read and its capture keep. -/
theorem State.Inv.receive_idleInv {s : State} (h : s.Inv) (max : Nat) : (s.receive max).IdleInv := by
  have hget : ∀ x, rxBuf.holds x = false → (s.receive max).mem.get x = s.mem.get x := fun x hx =>
    (s.rxReadRest max).captureAppend_get_outside _ h.mem_wf h.rxCount_le hx
  refine { params_legal := by simpa using h.params_legal, mem_wf := (s.rxReadRest max).captureAppend_mem_wf _ h.mem_wf
           mem_mapped := ?_, rxCount_le := ?_, txLen_range := by simpa using h.txLen_range, frame_built := ?_
           txIdx_le := by simpa using h.txIdx_le, done_result := by simpa using h.done_result, noCard_zero := ?_
           resPlen_le := by simpa using h.resPlen_le, rxq_bound := ?_ }
  · have key : ∀ (bytes : List Byte) (t : State), (∀ c ∈ t.mem, isBufferAddr c.1 = true) →
        ∀ c ∈ (t.captureAppend bytes).mem, isBufferAddr c.1 = true := by
      intro bytes
      induction bytes with
      | nil => exact fun t ht => ht
      | cons b rest ih =>
        intro t ht
        refine ih _ ?_
        intro c hc
        unfold State.captureByte at hc
        split at hc
        · next hlt =>
          simp only [Config.rxBufCap] at hlt
          rcases Memory.set_listed hc with h1 | h1
          · rw [h1, isBufferAddr_iff]
            simp only [rxBuf]
            omega
          · exact ht c h1
        · exact ht c hc
    exact key _ _ h.mem_mapped
  · have := (s.rxReadRest max).captureAppend_rxCount (s.rxReadBytes max) h.rxCount_le
    simp only [State.receive]
    omega
  · intro h0
    have hf : (s.receive max).lastFrame = s.lastFrame := by
      rw [State.lastFrame, State.lastFrame, State.receive_txLen]
      refine State.cells_congr fun x hx => hget x ?_
      rw [txFrame_holds_iff] at hx
      by_contra hb
      rw [Bool.not_eq_false, rxBuf_holds_iff] at hb
      omega
    rw [hf]
    exact h.frame_built (by simpa using h0)
  · intro hn
    have hr : (s.receive max).cells resPl 5 = s.cells resPl 5 := by
      refine State.cells_congr fun x hx => hget x ?_
      rw [resPl_holds_iff] at hx
      by_contra hb
      rw [Bool.not_eq_false, rxBuf_holds_iff] at hb
      omega
    rw [hr]
    simpa using h.noCard_zero (by simpa using hn)
  · have := h.rxq_bound
    simp only [State.receive_rxq, State.receive_params, List.length_drop]
    omega

/-- The end of an exchange keeps the invariant. -/
theorem State.IdleInv.exchangeEnd {s : State} (h : s.IdleInv) (hd : s.done = false) (hr : s.resCode = .none) (hn : s.noCard = false)
    (hph : s.iphase ≠ .none → s.devReady = false) {r : DecodeResult} (hl : r.pl.length ≤ 251) (hc : r.code ≠ .none)
    (htok : r.code = .ok → s.lat.op0 = 0x01 → s.lat.op1 = 0x0C → r.pl.length = 5) : (s.exchangeEnd r).Inv := by
  have hu := h.decodeCommit hn hl
  have hplen : r.code = .ok → s.lat.op0 = 0x01 → s.lat.op1 = 0x0C → (s.decodeCommit r).resPlen = 5 := by
    intro h1 h2 h3
    simp [htok h1 h2 h3]
  unfold State.exchangeEnd
  simp only
  split
  · next hg =>
    have hv : ({ s.decodeCommit r with seq := .idle, tmr := false } : State).IdleInv := { hu with }
    exact hv.startExchange hd hr hn rfl (by simp) (by decide) (fun _ => hph (by simp [hg.1])) (by simp) (fun _ => rfl)
  · split
    · next hg =>
      have hv : ({ s.decodeCommit r with seq := .idle, tmr := false, devReady := true } : State).IdleInv := { hu with }
      exact hv.finishDecoded (by simp) fun _ h2 h3 => hplen hg.2 h2 h3
    · have hv : ({ s.decodeCommit r with seq := .idle, tmr := false } : State).IdleInv := { hu with }
      exact hv.finishDecoded hc hplen

theorem State.Inv.secondRead {s : State} (h : s.Inv) (hs : s.seq = .wait2) : s.secondRead.Inv := by
  obtain ⟨hd, hr, hn⟩ := h.busy_no_result (by simp [hs])
  refine (h.receive_idleInv Config.read2Max).exchangeEnd (by simpa using hd) (by simpa using hr) (by simpa using hn) ?_
    (decodeResponse_pl_length_le _ _) (decodeResponse_code_ne_none _ _) ?_
  · intro hi
    simpa using (h.iphase_busy (by simpa using hi)).2
  · exact fun hc h0 h1 => decodeResponse_token_length hc h0 h1

theorem State.Inv.firstRead {s : State} (h : s.Inv) (hs : s.seq = .wait1) : s.firstRead.Inv := by
  have h0 : s.seq ≠ .idle := by simp [hs]
  obtain ⟨hd, hr, hn⟩ := h.busy_no_result h0
  have hi := h.receive_idleInv s.params.read1Max
  unfold State.firstRead
  split
  · refine hi.exchangeEnd (by simpa using hd) (by simpa using hr) (by simpa using hn) ?_ (by simp) (by simp) (by simp)
    intro hip
    simpa using (h.iphase_busy (by simpa using hip)).2
  · next hne =>
    have hcount := (s.rxReadRest s.params.read1Max).captureAppend_rxCount (s.rxReadBytes s.params.read1Max) h.rxCount_le
    have hpos : 1 ≤ (s.rxReadBytes s.params.read1Max).length := List.length_pos_iff.2 hne
    have hf : ({ s.receive s.params.read1Max with seq := .wait2 } : State).lastFrame = s.lastFrame := by
      rw [State.lastFrame, State.lastFrame]
      simp only [State.receive_txLen]
      refine State.cells_congr fun x hx => (s.rxReadRest s.params.read1Max).captureAppend_get_outside _ h.mem_wf h.rxCount_le ?_
      rw [txFrame_holds_iff] at hx
      by_contra hb
      rw [Bool.not_eq_false, rxBuf_holds_iff] at hb
      omega
    refine
      { params_legal := hi.params_legal, mem_wf := hi.mem_wf, mem_mapped := hi.mem_mapped, rxCount_le := hi.rxCount_le
        txLen_range := hi.txLen_range, frame_built := hi.frame_built, txIdx_le := hi.txIdx_le, tx_pending := by simp
        tx_sent := fun _ => by simpa using h.tx_sent (by simp [hs, SeqState.waits])
        tmr_armed := by simpa [hs, SeqState.waits] using h.tmr_armed
        frame_opcode := fun _ => by rw [hf]; simpa using h.frame_opcode h0
        lat_catalog := fun _ => by simpa using h.lat_catalog h0
        capture_empty := by simp, capture_some := fun _ => ?_
        iphase_busy := fun hip => ⟨by simp, by simpa using (h.iphase_busy (by simpa using hip)).2⟩
        iphase_getInfo := by simpa using h.iphase_getInfo
        iphase_setLed := by simpa using h.iphase_setLed
        busy_no_result := fun _ => by simpa using h.busy_no_result h0
        done_result := hi.done_result, noCard_zero := hi.noCard_zero, resPlen_le := hi.resPlen_le, rxq_bound := hi.rxq_bound }
    simp only [State.receive]
    omega

end Sys2Proof.Machine
end

