-- ==== Sys2Proof/Laws/Step.lean ====
section
/-! SUPPORT. Everything one step can do: the inversion of exec and of step. -/

namespace Sys2Proof.Machine

theorem step_nil {s : State} (h : s.events = []) : step s = .next s := by
  simp [step, h]

theorem commandWord_eq_some {e : Event} {v : Byte} : commandWord e = some v ↔ e = .hostWrite ctrlAddr v := by
  cases e <;> simp [commandWord]

/-- A HOST write to CTRL runs the decoded instruction. -/
theorem step_ctrl {s : State} {v : Byte} {rest : List Event} (h : s.events = .hostWrite ctrlAddr v :: rest) :
    step s = exec (decodeCtrl v) { s with events := rest } := by
  simp [step, h, commandWord]

/-- Every other event is its agent's step. -/
theorem step_agent {s : State} {e : Event} {rest : List Event} (h : s.events = e :: rest) (he : commandWord e = none) :
    step s = agentStep e { s with events := rest } := by
  simp [step, h, he]

/-- A HOST write outside CTRL is MemWrite at the state with the event taken off. -/
theorem step_hostWrite {s : State} {a : Addr} {v : Byte} {rest : List Event} (h : s.events = .hostWrite a v :: rest) (ha : a ≠ ctrlAddr) :
    step s = .next (({ s with events := rest } : State).memWrite a v) :=
  step_agent h (by simp [commandWord, ha])

/-- Everything an instruction can do: nothing (NOP), a soft reset (SRST), or a command taken with one of these runs. -/
theorem exec_cases (i : Instr) (s : State) :
    (∃ g, i = .nop g ∧ exec i s = .next s) ∨ (∃ g, i = .srst g ∧ exec i s = .next s.softReset) ∨
      ((∀ g, i ≠ .nop g) ∧ (∀ g, i ≠ .srst g) ∧
        ∃ run : State → State, exec i s = .next (s.take run) ∧
          (run = State.runEncode ∨ run = State.runDecode ∨ run = State.runOpen ∨ (∃ c, run = fun s => s.runCatalog c) ∨
            (run = fun s => s.finishPlain .badCommand) ∨ (run = fun s => s.finishPlain .unknownOpcode))) := by
  cases i with
  | nop g => exact .inl ⟨g, rfl, rfl⟩
  | srst g => exact .inr (.inl ⟨g, rfl, rfl⟩)
  | encodeFrame g => exact .inr (.inr ⟨by simp, by simp, _, rfl, .inl rfl⟩)
  | decodeFrame g => exact .inr (.inr ⟨by simp, by simp, _, rfl, .inr (.inl rfl)⟩)
  | openSession g => exact .inr (.inr ⟨by simp, by simp, _, rfl, .inr (.inr (.inl rfl))⟩)
  | getInfo => exact .inr (.inr ⟨by simp, by simp, _, rfl, .inr (.inr (.inr (.inl ⟨_, rfl⟩)))⟩)
  | beep => exact .inr (.inr ⟨by simp, by simp, _, rfl, .inr (.inr (.inr (.inl ⟨_, rfl⟩)))⟩)
  | setLed => exact .inr (.inr ⟨by simp, by simp, _, rfl, .inr (.inr (.inr (.inl ⟨_, rfl⟩)))⟩)
  | readToken => exact .inr (.inr ⟨by simp, by simp, _, rfl, .inr (.inr (.inr (.inl ⟨_, rfl⟩)))⟩)
  | writeToken => exact .inr (.inr ⟨by simp, by simp, _, rfl, .inr (.inr (.inr (.inl ⟨_, rfl⟩)))⟩)
  | writeTokenReserve => exact .inr (.inr ⟨by simp, by simp, _, rfl, .inr (.inr (.inr (.inl ⟨_, rfl⟩)))⟩)
  | rsvd5 g => exact .inr (.inr ⟨by simp, by simp, _, rfl, .inr (.inr (.inr (.inr (.inl rfl))))⟩)
  | rsvd6 g => exact .inr (.inr ⟨by simp, by simp, _, rfl, .inr (.inr (.inr (.inr (.inl rfl))))⟩)
  | rsvd7 g => exact .inr (.inr ⟨by simp, by simp, _, rfl, .inr (.inr (.inr (.inr (.inl rfl))))⟩)
  | execute g =>
    refine .inr (.inr ⟨by simp, by simp, ?_⟩)
    simp only [exec, execExecute]
    cases hc : catalogOf s.opc0 s.opc1 with
    | none => exact ⟨_, rfl, .inr (.inr (.inr (.inr (.inr rfl))))⟩
    | some c => cases c <;> exact ⟨_, rfl, .inr (.inr (.inr (.inl ⟨_, rfl⟩)))⟩

/-- Everything a step that answers a next state can be. -/
theorem step_cases {s t : State} (h : step s = .next t) :
    (s.events = [] ∧ t = s) ∨
      ∃ e rest, s.events = e :: rest ∧
        ((∃ v, e = .hostWrite ctrlAddr v ∧ exec (decodeCtrl v) { s with events := rest } = .next t) ∨
          (∃ a v, e = .hostWrite a v ∧ a ≠ ctrlAddr ∧ t = ({ s with events := rest } : State).memWrite a v) ∨
          (∃ a, e = .hostRead a ∧ t = ({ s with events := rest } : State).hostReadStep a) ∨
          (∃ b, e = .devByte b ∧ t = ({ s with events := rest } : State).deliver b) ∨
          (e = .linkAccept ∧ s.seq = .tx ∧ t = ({ s with events := rest } : State).txStep) ∨
          (e = .timerExpire ∧ s.tmr = true ∧ s.seq = .wait1 ∧ t = ({ s with events := rest } : State).firstRead) ∨
          (e = .timerExpire ∧ s.tmr = true ∧ s.seq = .wait2 ∧ t = ({ s with events := rest } : State).secondRead) ∨
          (e = .coldReset ∧ t = ({ s with events := rest } : State).powerOn)) := by
  cases hev : s.events with
  | nil =>
    rw [step_nil hev] at h
    exact .inl ⟨rfl, by injection h with h; exact h.symm⟩
  | cons e rest =>
    refine .inr ⟨e, rest, rfl, ?_⟩
    cases hcw : commandWord e with
    | some v =>
      have he := commandWord_eq_some.1 hcw
      subst he
      rw [step_ctrl hev] at h
      exact .inl ⟨v, rfl, h⟩
    | none =>
      rw [step_agent hev hcw] at h
      cases e with
      | hostWrite a v =>
        have ha : a ≠ ctrlAddr := by
          intro ha
          simp [commandWord, ha] at hcw
        simp only [agentStep, Host.Outcome.next.injEq] at h
        exact .inr (.inl ⟨a, v, rfl, ha, h.symm⟩)
      | hostRead a =>
        simp only [agentStep, Host.Outcome.next.injEq] at h
        exact .inr (.inr (.inl ⟨a, rfl, h.symm⟩))
      | devByte b =>
        simp only [agentStep, Host.Outcome.next.injEq] at h
        exact .inr (.inr (.inr (.inl ⟨b, rfl, h.symm⟩)))
      | linkAccept =>
        simp only [agentStep, linkStep] at h
        cases hs : s.seq <;> simp [hs] at h
        exact .inr (.inr (.inr (.inr (.inl ⟨rfl, rfl, h.symm⟩))))
      | timerExpire =>
        simp only [agentStep, timerStep] at h
        cases ht : s.tmr <;> cases hs : s.seq <;> simp [hs, ht] at h
        · exact .inr (.inr (.inr (.inr (.inr (.inl ⟨rfl, rfl, rfl, h.symm⟩)))))
        · exact .inr (.inr (.inr (.inr (.inr (.inr (.inl ⟨rfl, rfl, rfl, h.symm⟩))))))
      | coldReset =>
        simp only [agentStep, Host.Outcome.next.injEq] at h
        exact .inr (.inr (.inr (.inr (.inr (.inr (.inr ⟨rfl, h.symm⟩))))))

/-- Every instruction keeps the invariant. -/
theorem State.Inv.exec {s t : State} (h : s.Inv) {i : Instr} (hx : exec i s = .next t) : t.Inv := by
  rcases exec_cases i s with ⟨g, -, h1⟩ | ⟨g, -, h1⟩ | ⟨-, -, run, h1, hrun⟩ <;>
    rw [h1] at hx <;> injection hx with hx <;> subst hx
  · exact h
  · exact h.softReset
  · rcases hrun with rfl | rfl | rfl | ⟨c, rfl⟩ | rfl | rfl
    · exact h.take fun t ht _ _ _ _ => ht.runEncode
    · exact h.take fun t ht _ _ hn _ => ht.runDecode hn
    · exact h.take fun t ht hd hr hn htm => ht.runOpen hd hr hn htm
    · exact h.take fun t ht hd hr hn htm => ht.runCatalog hd hr hn htm c
    · exact h.take fun t ht _ _ _ _ => ht.finishPlain (by simp)
    · exact h.take fun t ht _ _ _ _ => ht.finishPlain (by simp)

end Sys2Proof.Machine
end

