-- ==== Sys2Proof/Laws/Registers.lean ====
section
/-! SUPPORT. The register map: what each address reads, and when two states read alike at an address. -/

namespace Sys2Proof.Machine

@[simp] theorem State.memRead_ctrl (s : State) : s.memRead 0x000#12 = 0x00 := rfl
@[simp] theorem State.memRead_status (s : State) : s.memRead 0x001#12 = s.statusByte := rfl
@[simp] theorem State.memRead_cfg (s : State) : s.memRead 0x002#12 = s.cfg.setWidth 8 := rfl
@[simp] theorem State.memRead_checkVal (s : State) : s.memRead 0x003#12 = s.checkVal := rfl
@[simp] theorem State.memRead_opc0 (s : State) : s.memRead 0x004#12 = s.opc0 := rfl
@[simp] theorem State.memRead_opc1 (s : State) : s.memRead 0x005#12 = s.opc1 := rfl
@[simp] theorem State.memRead_plen (s : State) : s.memRead 0x006#12 = s.plen := rfl
@[simp] theorem State.memRead_resCode (s : State) : s.memRead 0x007#12 = s.resCode.toByte := rfl
@[simp] theorem State.memRead_resStatus (s : State) : s.memRead 0x008#12 = s.resStatus := rfl
@[simp] theorem State.memRead_resPlen (s : State) : s.memRead 0x009#12 = s.resPlen := rfl
@[simp] theorem State.memRead_rxCountL (s : State) : s.memRead 0x00A#12 = countLow s.rxCount := rfl
@[simp] theorem State.memRead_rxCountH (s : State) : s.memRead 0x00B#12 = countHigh s.rxCount := rfl
@[simp] theorem State.memRead_txLenL (s : State) : s.memRead 0x00C#12 = countLow s.txLen := rfl
@[simp] theorem State.memRead_txLenH (s : State) : s.memRead 0x00D#12 = countHigh s.txLen := rfl
@[simp] theorem State.memRead_state (s : State) : s.memRead 0x00E#12 = s.stateByte := rfl
@[simp] theorem State.memRead_reserved (s : State) : s.memRead 0x00F#12 = 0x00 := rfl
@[simp] theorem State.memRead_rxqLevelL (s : State) : s.memRead 0x010#12 = BitVec.ofNat 8 (rxqLevel s.rxq) := rfl
@[simp] theorem State.memRead_rxqLevelH (s : State) : s.memRead 0x011#12 = BitVec.ofNat 8 (rxqLevel s.rxq / 256) := rfl

/-- Above the registers an address reads its buffer cell, or 00 (10 R21, 20 R72). -/
theorem State.memRead_high (s : State) (a : Addr) (h : 0x012 ≤ a.toNat) :
    s.memRead a = if isBufferAddr a.toNat then s.mem.get a.toNat else 0x00 := by
  unfold State.memRead
  split <;> first | rfl | omega

theorem State.memRead_buffer (s : State) (a : Addr) (h : isBufferAddr a.toNat = true) : s.memRead a = s.mem.get a.toNat := by
  rw [s.memRead_high a (by rw [isBufferAddr_iff] at h; omega), if_pos h]

/-- The eighteen addresses below 0x012. -/
theorem low_addr_cases (a : Addr) (h : a.toNat < 0x012) :
    a = 0x000 ∨ a = 0x001 ∨ a = 0x002 ∨ a = 0x003 ∨ a = 0x004 ∨ a = 0x005 ∨ a = 0x006 ∨ a = 0x007 ∨ a = 0x008 ∨ a = 0x009 ∨
      a = 0x00A ∨ a = 0x00B ∨ a = 0x00C ∨ a = 0x00D ∨ a = 0x00E ∨ a = 0x00F ∨ a = 0x010 ∨ a = 0x011 := by
  bv_omega

/-- Two states read alike at an address when what that address shows is alike. -/
theorem State.memRead_congr {s t : State} {a : Addr} (h1 : a = 0x001 → t.statusByte = s.statusByte) (h2 : a = 0x002 → t.cfg = s.cfg)
    (h3 : a = 0x003 → t.checkVal = s.checkVal) (h4 : a = 0x004 → t.opc0 = s.opc0) (h5 : a = 0x005 → t.opc1 = s.opc1)
    (h6 : a = 0x006 → t.plen = s.plen) (h7 : a = 0x007 → t.resCode = s.resCode) (h8 : a = 0x008 → t.resStatus = s.resStatus)
    (h9 : a = 0x009 → t.resPlen = s.resPlen) (hA : a = 0x00A ∨ a = 0x00B → t.rxCount = s.rxCount)
    (hC : a = 0x00C ∨ a = 0x00D → t.txLen = s.txLen) (hE : a = 0x00E → t.stateByte = s.stateByte)
    (hQ : a = 0x010 ∨ a = 0x011 → t.rxq = s.rxq) (hB : isBufferAddr a.toNat = true → t.mem.get a.toNat = s.mem.get a.toNat) :
    t.memRead a = s.memRead a := by
  by_cases hlow : a.toNat < 0x012
  · rcases low_addr_cases a hlow with
      rfl | rfl | rfl | rfl | rfl | rfl | rfl | rfl | rfl | rfl | rfl | rfl | rfl | rfl | rfl | rfl | rfl | rfl
    · rfl
    · simpa using h1 rfl
    · simp [h2 rfl]
    · simpa using h3 rfl
    · simpa using h4 rfl
    · simpa using h5 rfl
    · simpa using h6 rfl
    · simp [h7 rfl]
    · simpa using h8 rfl
    · simpa using h9 rfl
    · simp [hA (.inl rfl)]
    · simp [hA (.inr rfl)]
    · simp [hC (.inl rfl)]
    · simp [hC (.inr rfl)]
    · simpa using hE rfl
    · rfl
    · simp [hQ (.inl rfl)]
    · simp [hQ (.inr rfl)]
  · rw [t.memRead_high a (by omega), s.memRead_high a (by omega)]
    by_cases hb : isBufferAddr a.toNat = true
    · rw [if_pos hb, if_pos hb, hB hb]
    · rw [if_neg hb, if_neg hb]

@[simp] theorem State.memWrite_status (s : State) (v : Byte) : s.memWrite 0x001#12 v = s.clearStatus v := rfl
@[simp] theorem State.memWrite_cfg (s : State) (v : Byte) :
    s.memWrite 0x002#12 v = s.lockedWrite fun s => { s with cfg := v.setWidth 4 } := rfl
@[simp] theorem State.memWrite_checkVal (s : State) (v : Byte) :
    s.memWrite 0x003#12 v = s.lockedWrite fun s => { s with checkVal := v } := rfl
@[simp] theorem State.memWrite_opc0 (s : State) (v : Byte) : s.memWrite 0x004#12 v = s.lockedWrite fun s => { s with opc0 := v } := rfl
@[simp] theorem State.memWrite_opc1 (s : State) (v : Byte) : s.memWrite 0x005#12 v = s.lockedWrite fun s => { s with opc1 := v } := rfl
@[simp] theorem State.memWrite_plen (s : State) (v : Byte) : s.memWrite 0x006#12 v = s.lockedWrite fun s => { s with plen := v } := rfl
@[simp] theorem State.memWrite_rxCountL (s : State) (v : Byte) :
    s.memWrite 0x00A#12 v = s.lockedWrite fun s => { s with rxCount := clampCount (withCountLow s.rxCount v) } := rfl
@[simp] theorem State.memWrite_rxCountH (s : State) (v : Byte) :
    s.memWrite 0x00B#12 v = s.lockedWrite fun s => { s with rxCount := clampCount (withCountHigh s.rxCount v) } := rfl

/-- A write above the registers: a REQ_PL or RX_BUF cell while BUSY = 0, or nothing (10 R21, R51, 20 R72). -/
theorem State.memWrite_high (s : State) (a : Addr) (v : Byte) (h : 0x012 ≤ a.toNat) :
    s.memWrite a v =
      if reqPl.holds a.toNat || rxBuf.holds a.toNat then s.lockedWrite fun s => { s with mem := s.mem.set a.toNat v } else s := by
  unfold State.memWrite
  split <;> first | rfl | omega

theorem State.lockedWrite_of_busy {s : State} {write : State → State} (h : s.seq ≠ .idle) : s.lockedWrite write = s := by
  simp [State.lockedWrite, State.busy, h]

theorem State.lockedWrite_of_idle {s : State} {write : State → State} (h : s.seq = .idle) : s.lockedWrite write = write s := by
  simp [State.lockedWrite, State.busy, h]

end Sys2Proof.Machine
end

