-- ==== Sys2Proof/Laws/Cases.lean ====
section
/-! SUPPORT. Everything the agents' operations can do, case by case, and how runs compose. -/

namespace Sys2Proof.Machine

theorem State.take_of_seq_idle {s : State} {run : State → State} (h : s.seq = .idle) : s.take run = run s.accept :=
  State.take_of_idle (State.busy_eq_false.2 h)

theorem State.take_of_seq_busy {s : State} {run : State → State} (h : s.seq ≠ .idle) : s.take run = s.dropCommand :=
  State.take_of_busy (State.busy_eq_true.2 h)

/-- The only opcode of a catalog entry is its own (30 R109). -/
theorem catalogOf_eq_some {op0 op1 : Byte} {c : Catalog} (h : catalogOf op0 op1 = some c) : op0 = c.op0 ∧ op1 = c.op1 := by
  have key : opcode16 op0 op1 = opcode16 c.op0 c.op1 := by
    unfold catalogOf at h
    repeat' split at h
    all_goals first | (injection h with h; subst h; assumption) | cases h
  have := op0.isLt
  have := op1.isLt
  have := c.op0.isLt
  have := c.op1.isLt
  simp only [opcode16] at key
  constructor <;> apply BitVec.eq_of_toNat_eq <;> omega

/-- An EXECUTE is the catalog command its opcode selects (42 R192). -/
theorem exec_execute_catalog {s : State} {c : Catalog} (g : BitVec 4) (h : catalogOf s.opc0 s.opc1 = some c) :
    exec (.execute g) s = exec c.instr s := by
  simp only [exec, execExecute, h]
  cases c <;> rfl

/-- CommandShape is ShapeOK with the bound of 41 R170. -/
theorem commandShape_iff (c : Catalog) (n : Nat) : CommandShape c n ↔ n ≤ 252 ∧ shapeOk c n = true := by
  have h252 : Config.maxPayload = 252 := rfl
  cases c <;> simp [CommandShape, shapeOk] <;> omega

/-- Every catalog command is taken in one form (42 R190). -/
theorem exec_catalog (c : Catalog) (s : State) : exec c.instr s = .next (s.take fun s => s.runCatalog c) := by
  cases c <;> rfl

/-- A catalog command with its shape starts its exchange (41 R170, 42 R193). -/
theorem exec_catalog_of_shape {s : State} {c : Catalog} (hs : s.seq = .idle) (h : CommandShape c s.plen.toNat) :
    exec c.instr s =
      .next (({ s.accept with iphase := .none } : State).startExchange
        { op0 := c.op0, op1 := c.op1, chkEn := s.checkEn, chkVal := s.checkVal } s.reqPayload) := by
  rw [exec_catalog, State.take_of_seq_idle hs]
  rcases s.accept.runCatalog_cases c with ⟨-, -, h1⟩ | ⟨h0, -⟩
  · rw [h1]; rfl
  · exact absurd ((commandShape_iff _ _).1 h) h0

/-- A catalog command without its shape is refused (41 R171). -/
theorem exec_catalog_of_not_shape {s : State} {c : Catalog} (hs : s.seq = .idle) (h : ¬ CommandShape c s.plen.toNat) :
    exec c.instr s = .next (s.accept.finishPlain .encodingError) := by
  rw [exec_catalog, State.take_of_seq_idle hs]
  rcases s.accept.runCatalog_cases c with ⟨h1, h2, -⟩ | ⟨-, h1⟩
  · exact absurd ((commandShape_iff _ _).2 ⟨h1, h2⟩) h
  · rw [h1]

/-- Everything a HOST write outside CTRL can do (10 R21, R32, R51). -/
theorem State.memWrite_cases (s : State) (a : Addr) (v : Byte) :
    s.memWrite a v = s ∨ s.memWrite a v = s.clearStatus v ∨
      (s.seq = .idle ∧
        (s.memWrite a v = { s with cfg := v.setWidth 4 } ∨ s.memWrite a v = { s with checkVal := v } ∨
          s.memWrite a v = { s with opc0 := v } ∨ s.memWrite a v = { s with opc1 := v } ∨ s.memWrite a v = { s with plen := v } ∨
          (∃ n, s.memWrite a v = { s with rxCount := n }) ∨
          ((reqPl.holds a.toNat = true ∨ rxBuf.holds a.toNat = true) ∧ s.memWrite a v = { s with mem := s.mem.set a.toNat v }))) := by
  by_cases hs : s.seq = .idle
  · have hw : ∀ w, s.lockedWrite w = w s := fun w => State.lockedWrite_of_idle hs
    unfold State.memWrite
    simp only [hw]
    split
    · exact .inr (.inl rfl)
    · exact .inr (.inr ⟨hs, .inl rfl⟩)
    · exact .inr (.inr ⟨hs, .inr (.inl rfl)⟩)
    · exact .inr (.inr ⟨hs, .inr (.inr (.inl rfl))⟩)
    · exact .inr (.inr ⟨hs, .inr (.inr (.inr (.inl rfl)))⟩)
    · exact .inr (.inr ⟨hs, .inr (.inr (.inr (.inr (.inl rfl))))⟩)
    · exact .inr (.inr ⟨hs, .inr (.inr (.inr (.inr (.inr (.inl ⟨_, rfl⟩)))))⟩)
    · exact .inr (.inr ⟨hs, .inr (.inr (.inr (.inr (.inr (.inl ⟨_, rfl⟩)))))⟩)
    · split
      · next h => exact .inr (.inr ⟨hs, .inr (.inr (.inr (.inr (.inr (.inr ⟨by simpa using h, rfl⟩)))))⟩)
      · exact .inl rfl
  · have hw : ∀ w, s.lockedWrite w = s := fun w => State.lockedWrite_of_busy hs
    unfold State.memWrite
    simp only [hw]
    split
    · exact .inr (.inl rfl)
    all_goals first | exact .inl rfl | (split <;> exact .inl rfl)

/-- Everything the end of an exchange can do (42 R199). -/
theorem State.exchangeEnd_cases (s : State) (r : DecodeResult) :
    (s.iphase = .getInfo ∧ r.code = .ok ∧
        s.exchangeEnd r = ({ s.decodeCommit r with seq := .idle, tmr := false } : State).startSetLed) ∨
      (s.iphase = .setLed ∧ r.code = .ok ∧
        s.exchangeEnd r =
          ({ s.decodeCommit r with seq := .idle, tmr := false, devReady := true } : State).finishDecoded .ok s.lat.op0 s.lat.op1) ∨
      (¬ (s.iphase ≠ .none ∧ r.code = .ok) ∧
        s.exchangeEnd r =
          ({ s.decodeCommit r with seq := .idle, tmr := false } : State).finishDecoded r.code s.lat.op0 s.lat.op1) := by
  unfold State.exchangeEnd
  simp only
  by_cases h1 : s.iphase = .getInfo ∧ r.code = .ok
  · rw [if_pos h1]
    exact .inl ⟨h1.1, h1.2, rfl⟩
  rw [if_neg h1]
  by_cases h2 : s.iphase = .setLed ∧ r.code = .ok
  · rw [if_pos h2]
    exact .inr (.inl ⟨h2.1, h2.2, rfl⟩)
  rw [if_neg h2]
  refine .inr (.inr ⟨?_, rfl⟩)
  rintro ⟨h3, h4⟩
  cases hp : s.iphase <;> simp_all

/-- Everything the first read can do (42 R197). -/
theorem State.firstRead_cases (s : State) :
    s.firstRead = (s.receive s.params.read1Max).exchangeEnd (decodeFail .timeout) ∨
      s.firstRead = { s.receive s.params.read1Max with seq := .wait2 } := by
  unfold State.firstRead
  split
  · exact .inl rfl
  · exact .inr rfl

/-- RX_COUNT after RxRead and CaptureAppend (20 R83, R85). -/
theorem State.receive_rxCount {s : State} (hc : s.rxCount.toNat ≤ 260) (max : Nat) :
    (s.receive max).rxCount.toNat = min 260 (s.rxCount.toNat + min max s.rxq.length) := by
  have h := (s.rxReadRest max).captureAppend_rxCount (s.rxReadBytes max) hc
  rw [State.receive, h]
  simp [State.rxReadBytes, State.rxReadRest]

/-- A read changes the capture and RXQ only (20 R83, R85): every other address reads as before. -/
theorem State.memRead_receive {s : State} (hm : s.mem.wf = true) (hc : s.rxCount.toNat ≤ 260) (max : Nat) {a : Addr}
    (h1 : captureAddr a = false)
    (h2 : ¬ (rxBuf.base + s.rxCount.toNat ≤ a.toNat ∧ a.toNat < rxBuf.base + min 260 (s.rxCount.toNat + min max s.rxq.length))) :
    (s.receive max).memRead a = s.memRead a := by
  simp only [captureAddr, Bool.or_eq_false_iff, decide_eq_false_iff_not] at h1
  refine State.memRead_congr (fun _ => ?_) (fun _ => ?_) (fun _ => ?_) (fun _ => ?_) (fun _ => ?_) (fun _ => ?_) (fun _ => ?_)
    (fun _ => ?_) (fun _ => ?_) (fun h => ?_) (fun _ => ?_) (fun _ => ?_) (fun h => ?_) (fun _ => ?_)
  · simp [State.statusByte, State.busy]
  any_goals simp [State.stateByte]
  · rcases h with h | h <;> simp [h] at h1
  · rcases h with h | h <;> simp [h] at h1
  · have h3 := (s.rxReadRest max).captureAppend_get (s.rxReadBytes max) hm hc a.toNat
    have hl : (s.rxReadBytes max).length = min max s.rxq.length := by simp [State.rxReadBytes]
    rw [State.receive, h3, if_neg (by rw [hl]; exact h2)]
    rfl

/-- One cell of TX_FRAME after BuildFrame (40 R133). -/
theorem State.cell_buildFrame {s : State} (h : s.mem.wf = true) (op0 op1 : Byte) (pl : List Byte) (i : Nat) :
    (s.buildFrame op0 op1 pl).cell txFrame i =
      if i < 7 + pl.length then byteAt (requestFrame op0 op1 pl) i else s.cell txFrame i := by
  rw [State.cell, State.buildFrame_mem, Memory.get_writeBlock h, requestFrame_length]
  by_cases hi : i < 7 + pl.length
  · rw [if_pos (by omega), if_pos hi, Nat.add_sub_cancel_left]
  · rw [if_neg (by omega), if_neg hi]
    rfl

/-- One cell of RES_PL after DecodeCommit (40 R151). -/
theorem State.cell_decodeCommit {s : State} (h : s.mem.wf = true) (r : DecodeResult) (i : Nat) :
    (s.decodeCommit r).cell resPl i = if i < r.pl.length then byteAt r.pl i else s.cell resPl i := by
  rw [State.cell, State.decodeCommit_mem, Memory.get_writeBlock h]
  by_cases hi : i < r.pl.length
  · rw [if_pos (by omega), if_pos hi, Nat.add_sub_cancel_left]
  · rw [if_neg (by omega), if_neg hi]
    rfl

/-- A run of k + 1 steps is a step and a run. -/
theorem run_succ (k : Nat) {s t : State} (h : step s = .next t) :
    Host.Core.run Sys2Proof.core (k + 1) s = Host.Core.run Sys2Proof.core k t := by
  have h' : Sys2Proof.core.step s = .next t := h
  simp [Host.Core.run, h']

/-- Two runs, one after the other. -/
theorem run_add (m k : Nat) {s t : State} (h : Host.Core.run Sys2Proof.core m s = .next t) :
    Host.Core.run Sys2Proof.core (m + k) s = Host.Core.run Sys2Proof.core k t := by
  have key : ∀ (M : Host.Core) (m : Nat) (s t : M.State), M.run m s = .next t → M.run (m + k) s = M.run k t := by
    intro M m
    induction m with
    | zero =>
      intro s t h
      simp only [Host.Core.run, Host.Outcome.next.injEq] at h
      rw [h, Nat.zero_add]
    | succ m ih =>
      intro s t h
      rw [Nat.succ_add]
      simp only [Host.Core.run] at h ⊢
      cases hs : M.step s with
      | next u => rw [hs] at h; exact ih u t h
      | fault r => rw [hs] at h; cases h
      | refused r => rw [hs] at h; cases h
  exact key Sys2Proof.core m s t h

end Sys2Proof.Machine
end

