-- ==== Sys2Proof/Laws/PerInstr.lean ====
section
/-! SUPPORT. Statements about every instruction as syntax, one lemma per constructor. Family TableRow: the encoder's word meets the row of
spec/opcode_table.json, (word and mask) = match, with the row's width. -/

namespace Sys2Proof.Laws

/-- The rows of spec/opcode_table.json: width in bits, match, mask. -/
def tableRow (i : Instr) : Nat × BitVec 16 × BitVec 16 :=
  match i with
  | .getInfo => (16, 0x0102, 0xFFFF)
  | .beep => (16, 0x0103, 0xFFFF)
  | .setLed => (16, 0x0104, 0xFFFF)
  | .readToken => (16, 0x010C, 0xFFFF)
  | .writeToken => (16, 0x020C, 0xFFFF)
  | .writeTokenReserve => (16, 0x030C, 0xFFFF)
  | .srst _ => (8, 0x80, 0x80)
  | .nop _ => (8, 0x00, 0x87)
  | .encodeFrame _ => (8, 0x01, 0x87)
  | .decodeFrame _ => (8, 0x02, 0x87)
  | .execute _ => (8, 0x03, 0x87)
  | .openSession _ => (8, 0x04, 0x87)
  | .rsvd5 _ => (8, 0x05, 0x87)
  | .rsvd6 _ => (8, 0x06, 0x87)
  | .rsvd7 _ => (8, 0x07, 0x87)

/-- The bytes of an encoded instruction as one number, first byte most significant (the table's opcode16, 00_scope.md R12). -/
def wordOf (bytes : List Byte) : BitVec 16 := bytes.foldl (fun w b => w <<< 8 ||| b.setWidth 16) 0

/-- The encoder's word has the row's width and meets the row's match under its mask. -/
def TableRow.Statement (i : Instr) : Prop :=
  (encode i).length * 8 = (tableRow i).1 ∧ wordOf (encode i) &&& (tableRow i).2.2 = (tableRow i).2.1

theorem TableRow.getInfo : TableRow.Statement .getInfo := by unfold TableRow.Statement; decide

theorem TableRow.beep : TableRow.Statement .beep := by unfold TableRow.Statement; decide

theorem TableRow.setLed : TableRow.Statement .setLed := by unfold TableRow.Statement; decide

theorem TableRow.readToken : TableRow.Statement .readToken := by unfold TableRow.Statement; decide

theorem TableRow.writeToken : TableRow.Statement .writeToken := by unfold TableRow.Statement; decide

theorem TableRow.writeTokenReserve : TableRow.Statement .writeTokenReserve := by unfold TableRow.Statement; decide

theorem TableRow.srst (g : BitVec 7) : TableRow.Statement (.srst g) := by
  unfold TableRow.Statement; revert g; decide

theorem TableRow.nop (g : BitVec 4) : TableRow.Statement (.nop g) := by
  unfold TableRow.Statement; revert g; decide

theorem TableRow.encodeFrame (g : BitVec 4) : TableRow.Statement (.encodeFrame g) := by
  unfold TableRow.Statement; revert g; decide

theorem TableRow.decodeFrame (g : BitVec 4) : TableRow.Statement (.decodeFrame g) := by
  unfold TableRow.Statement; revert g; decide

theorem TableRow.execute (g : BitVec 4) : TableRow.Statement (.execute g) := by
  unfold TableRow.Statement; revert g; decide

theorem TableRow.openSession (g : BitVec 4) : TableRow.Statement (.openSession g) := by
  unfold TableRow.Statement; revert g; decide

theorem TableRow.rsvd5 (g : BitVec 4) : TableRow.Statement (.rsvd5 g) := by
  unfold TableRow.Statement; revert g; decide

theorem TableRow.rsvd6 (g : BitVec 4) : TableRow.Statement (.rsvd6 g) := by
  unfold TableRow.Statement; revert g; decide

theorem TableRow.rsvd7 (g : BitVec 4) : TableRow.Statement (.rsvd7 g) := by
  unfold TableRow.Statement; revert g; decide

end Sys2Proof.Laws
end

