-- ==== Sys2Proof/Tests/Slice0.lean ====
section
/-! SUPPORT. The model's own tests: the WellFormed smoke tests, one decoded word per constructor, single steps whose results are the vectors
of 95_test_vectors.md, and for every obligation with hypotheses a witness that meets them. -/

namespace Sys2Proof.Tests

open Sys2Proof.Machine

/-- The next state of an outcome. -/
def nextOf (o : Host.Outcome State Fault Refusal) : Option State :=
  match o with
  | .next s => some s
  | .fault _ => none
  | .refused _ => none

/-- Reset with READ1_MAX 4 and RXQ_DEPTH 16. -/
def base : State := State.resetWith { read1Max := 4, rxqDepth := 16 }

/-- `SETOP`, `SETPL` (30 R116) on the reset state. -/
def command (op0 op1 : Byte) (pl : List Byte) : State :=
  { base with opc0 := op0, opc1 := op1, plen := BitVec.ofNat 8 pl.length, mem := Memory.writeBlock [] 0x100 pl }

/-- `SETOP`, `SETRX` (30 R116) on the reset state. -/
def received (op0 op1 : Byte) (raw : List Byte) : State :=
  { base with opc0 := op0, opc1 := op1, rxCount := BitVec.ofNat 9 raw.length, mem := Memory.writeBlock [] 0x400 raw }

/-- The GetInfo exchange of 95 section 2.4 in TX, with a number of its bytes sent. -/
def sending (sent : Nat) : State :=
  { base with
    opc0 := 0x01, opc1 := 0x02, txLen := 7, txIdx := sent, seq := .tx
    lat := { op0 := 0x01, op1 := 0x02, chkEn := true, chkVal := 0x00 }
    mem := Memory.writeBlock [] 0x200 [0xAA, 0xDD, 0x00, 0x03, 0x01, 0x02, 0x03] }

/-- The same exchange in WAIT1, with bytes pending in RXQ. -/
def waiting (pending : List Byte) : State := { sending 7 with seq := .wait1, tmr := true, rxq := pending }

/-- The same exchange in WAIT2: the first read captured three bytes. -/
def half (pending : List Byte) : State :=
  { waiting pending with seq := .wait2, rxCount := 3, mem := (sending 7).mem.writeBlock 0x400 [0xAA, 0xDD, 0x00] }

/-- OPEN's SetLed exchange in WAIT2, three bytes captured. -/
def greening (pending : List Byte) : State :=
  { base with
    txLen := 8, txIdx := 8, seq := .wait2, tmr := true, iphase := .setLed, rxCount := 3, rxq := pending
    lat := { op0 := 0x01, op1 := 0x04, chkEn := true, chkVal := 0x00 }
    mem := (Memory.writeBlock [] 0x200 [0xAA, 0xDD, 0x00, 0x04, 0x01, 0x04, 0x02, 0x07]).writeBlock 0x400 [0xAA, 0xDD, 0x00] }

/-- OPEN's GetInfo exchange in WAIT2. -/
def initing (pending : List Byte) : State := { half pending with iphase := .getInfo, opc0 := 0x00, opc1 := 0x00 }

/-- A ReadToken exchange in WAIT2, three bytes captured. -/
def reading (pending : List Byte) : State :=
  { base with
    txLen := 7, txIdx := 7, seq := .wait2, tmr := true, rxCount := 3, rxq := pending
    lat := { op0 := 0x01, op1 := 0x0C, chkEn := true, chkVal := 0x00 }
    mem := (Memory.writeBlock [] 0x200 [0xAA, 0xDD, 0x00, 0x03, 0x01, 0x0C, 0x0D]).writeBlock 0x400 [0xAA, 0xDD, 0x00] }

/-! ### WellFormed -/

/-- 00 R6: both OPEN parameters are at least 1. -/
theorem test_params_zero_refused :
    Params.wellFormed { read1Max := 0, rxqDepth := 1 } = false ∧ Params.wellFormed { read1Max := 1, rxqDepth := 0 } = false ∧
      Params.wellFormed { read1Max := 1, rxqDepth := 1 } = true := by decide

/-- 30 R108, R113: a table word is one or two bytes, and fits them. -/
theorem test_table_word_refused :
    tableWordWellFormed 8 256 = false ∧ tableWordWellFormed 16 65536 = false ∧ tableWordWellFormed 12 0 = false ∧
      tableWordWellFormed 8 255 = true ∧ tableWordWellFormed 16 65535 = true := by decide

/-- Memory's canonical form refuses a repeated address, a falling one and a listed 00. -/
theorem test_memory_form_refused :
    Memory.wf [(0x100, 1), (0x100, 2)] = false ∧ Memory.wf [(0x101, 1), (0x100, 2)] = false ∧ Memory.wf [(0x100, 0)] = false ∧
      Memory.wf [(0x100, 1), (0x101, 2)] = true := by decide

/-! ### Decoding, words from the tables of 30 R108 and R113 -/

theorem test_decode_getInfo : decode [0x01, 0x02] = .ok .getInfo := by decide
theorem test_decode_beep : decode [0x01, 0x03] = .ok .beep := by decide
theorem test_decode_setLed : decode [0x01, 0x04] = .ok .setLed := by decide
theorem test_decode_readToken : decode [0x01, 0x0C] = .ok .readToken := by decide
theorem test_decode_writeToken : decode [0x02, 0x0C] = .ok .writeToken := by decide
theorem test_decode_writeTokenReserve : decode [0x03, 0x0C] = .ok .writeTokenReserve := by decide
theorem test_decode_srst : decode [0b10000011] = .ok (.srst 0b0000011) := by decide
theorem test_decode_nop : decode [0b01111000] = .ok (.nop 0b1111) := by decide
theorem test_decode_encodeFrame : decode [0b00000001] = .ok (.encodeFrame 0) := by decide
theorem test_decode_decodeFrame : decode [0b01000010] = .ok (.decodeFrame 0b1000) := by decide
theorem test_decode_execute : decode [0b01111011] = .ok (.execute 0b1111) := by decide
theorem test_decode_openSession : decode [0b00001100] = .ok (.openSession 0b0001) := by decide
theorem test_decode_rsvd5 : decode [0b00000101] = .ok (.rsvd5 0) := by decide
theorem test_decode_rsvd6 : decode [0b00010110] = .ok (.rsvd6 0b0010) := by decide
theorem test_decode_rsvd7 : decode [0b00100111] = .ok (.rsvd7 0b0100) := by decide

/-- 30 R110: the swapped bytes of an opcode and opcode 12 34 are no instruction, and no instruction is 0 or 3 bytes long. -/
theorem test_decode_rejects :
    decode [0x02, 0x01] = .error (.unknownOpcode 0x02 0x01) ∧ decode [0x12, 0x34] = .error (.unknownOpcode 0x12 0x34) ∧
      decode [] = .error .noWord ∧ decode [0x01, 0x02, 0x00] = .error (.tooLong 3) := by decide

/-- The table's words: opcode16 = OPC0 * 256 + OPC1 (00 R12). -/
theorem test_decodeTableWord :
    decodeTableWord 16 0x020C = some .writeToken ∧ decodeTableWord 16 0x0C02 = none ∧ decodeTableWord 8 0x80 = some (.srst 0) := by
  decide

/-! ### One step each, results from 95_test_vectors.md -/

/-- V-E1. -/
theorem test_getInfo_frame :
    (nextOf (exec .getInfo (command 0x01 0x02 []))).map (fun t => (t.lastFrame, t.seq, t.statusByte)) =
      some ([0xAA, 0xDD, 0x00, 0x03, 0x01, 0x02, 0x03], .tx, 0x01) := by decide
/-- V-C4. -/
theorem test_getInfo_shape :
    (nextOf (exec .getInfo (command 0x01 0x02 [0x00]))).map (fun t => (t.memRead 0x007, t.statusByte)) = some (0x05, 0x02) := by decide
/-- P2, events 3 and 4. -/
theorem test_beep_frame :
    (nextOf (exec .beep (command 0x01 0x03 [0x05]))).map (fun t => (t.lastFrame, t.memRead 0x00E, t.memRead 0x00C)) =
      some ([0xAA, 0xDD, 0x00, 0x04, 0x01, 0x03, 0x05, 0x07], 0x01, 0x08) := by decide
/-- V-C5. -/
theorem test_beep_shape :
    (nextOf (exec .beep (command 0x01 0x03 []))).map (fun t => (t.memRead 0x007, t.lastFrame)) = some (0x05, []) := by decide
/-- V-C11. -/
theorem test_setLed_frame :
    (nextOf (exec .setLed (command 0x01 0x04 [0x09]))).map State.lastFrame =
      some [0xAA, 0xDD, 0x00, 0x04, 0x01, 0x04, 0x09, 0x0C] := by decide
/-- V-C6. -/
theorem test_setLed_shape :
    (nextOf (exec .setLed (command 0x01 0x04 [0x00, 0x00]))).map (fun t => t.memRead 0x007) = some 0x05 := by decide
/-- V-E8. -/
theorem test_readToken_frame :
    (nextOf (exec .readToken (command 0x01 0x0C []))).map State.lastFrame = some [0xAA, 0xDD, 0x00, 0x03, 0x01, 0x0C, 0x0D] := by decide
/-- V-C7. -/
theorem test_readToken_shape :
    (nextOf (exec .readToken (command 0x01 0x0C [0x00]))).map (fun t => t.memRead 0x007) = some 0x05 := by decide
/-- V-E11. -/
theorem test_writeToken_frame :
    (nextOf (exec .writeToken (command 0x02 0x0C [0x00, 0x56, 0x5A, 0x9F, 0xEA, 0xC9]))).map State.lastFrame =
      some [0xAA, 0xDD, 0x00, 0x09, 0x02, 0x0C, 0x00, 0x56, 0x5A, 0x9F, 0xEA, 0xC9, 0xBE] := by decide
/-- V-C8. -/
theorem test_writeToken_shape :
    (nextOf (exec .writeToken (command 0x02 0x0C []))).map (fun t => t.memRead 0x007) = some 0x05 := by decide
set_option maxRecDepth 20000 in
/-- V-C10: PLEN 252, all payload bytes 00. -/
theorem test_writeTokenReserve_longest :
    (nextOf (exec .writeTokenReserve { base with opc0 := 0x03, opc1 := 0x0C, plen := 252 })).map
      (fun t => (t.txLen, t.memRead 0x203, t.memRead 0x302, t.busy)) = some (259, 0xFF, 0x0F, true) := by decide
/-- V-E9. -/
theorem test_writeTokenReserve_frame :
    (nextOf (exec .writeTokenReserve (command 0x03 0x0C [0x00, 0x56, 0x5A, 0x9F, 0xEA, 0xC9]))).map State.lastFrame =
      some [0xAA, 0xDD, 0x00, 0x09, 0x03, 0x0C, 0x00, 0x56, 0x5A, 0x9F, 0xEA, 0xC9, 0xBF] := by decide
/-- V-R14. -/
theorem test_srst_keeps :
    (nextOf (exec (.srst 3) { command 0x01 0x02 [0x07] with devReady := true, cfg := 0xD, resCode := .ok, done := true, rxCount := 9 })).map
      (fun t => (t.statusByte, t.memRead 0x002, t.memRead 0x007, t.rxCount, t.memRead 0x100)) =
      some (0x04, 0x0D, 0xFF, 0, 0x07) := by decide
/-- P6, events 6 and 7. -/
theorem test_srst_aborts :
    (nextOf (exec (.srst 0) { sending 3 with cmdDropped := true })).map
      (fun t => (t.statusByte, t.memRead 0x007, t.memRead 0x00C, t.memRead 0x004)) = some (0x00, 0xFF, 0x00, 0x01) := by decide
/-- V-R12, while BUSY. -/
theorem test_nop_busy : nextOf (exec (.nop 15) (sending 3)) = some (sending 3) := by decide
/-- V-E13. -/
theorem test_encode_generic :
    (nextOf (exec (.encodeFrame 0) (command 0x12 0x34 [0xAB, 0xCD]))).map (fun t => (t.lastFrame, t.statusByte)) =
      some ([0xAA, 0xDD, 0x00, 0x05, 0x12, 0x34, 0xAB, 0xCD, 0x40], 0x02) := by decide
/-- V-E17: TX_FRAME and TXLEN unchanged. -/
theorem test_encode_too_long :
    (nextOf (exec (.encodeFrame 0) { base with plen := 253, txLen := 7 })).map (fun t => (t.memRead 0x007, t.txLen, t.mem)) =
      some (0x05, 7, []) := by decide
/-- V-D25, P4 events 6 and 7. -/
theorem test_decode_zero_token :
    (nextOf (exec (.decodeFrame 0) (received 0x01 0x0C
      [0xAA, 0xDD, 0x00, 0x0B, 0x01, 0x0C, 0x00, 0x00, 0x00, 0x00, 0x00, 0x00, 0x00, 0x00, 0x0D]))).map
      (fun t => (t.memRead 0x007, t.statusByte, t.memRead 0x009)) = some (0x00, 0x1A, 0x05) := by decide
/-- V-D15 with VERIFY_CSUM = 1: the checksum check comes before the status check. -/
theorem test_decode_checksum_first :
    (nextOf (exec (.decodeFrame 0) { received 0x01 0x02 [0xAA, 0xDD, 0x00, 0x03, 0x01, 0x02, 0x55] with cfg := 0x3 })).map
      (fun t => (t.memRead 0x007, t.memRead 0x008, t.statusByte)) = some (0x07, 0x00, 0x02) := by decide
/-- V-D26: a device error with a payload, checksum not matching. -/
theorem test_decodeResponse_token_error :
    decodeResponse { op0 := 0x01, op1 := 0x0C, chkEn := true, chkVal := 0x00, verify := false }
      [0xAA, 0xDD, 0x00, 0x0B, 0x01, 0x0C, 0x07, 0x00, 0x00, 0x11, 0x22, 0x33, 0x44, 0x55, 0x0D] =
      { code := .deviceStatus, status := 0x07, pl := [0x11, 0x22, 0x33, 0x44, 0x55], csumOk := false } := by decide
/-- V-D28: the token window reaches into the header. -/
theorem test_decodeResponse_short_token :
    decodeResponse { op0 := 0x01, op1 := 0x0C, chkEn := true, chkVal := 0x00, verify := false }
      [0xAA, 0xDD, 0x00, 0x04, 0x01, 0x0C, 0x00, 0x0D] =
      { code := .ok, status := 0x00, pl := [0x00, 0x04, 0x01, 0x0C, 0x00], csumOk := true } := by decide
/-- V-C2: the catalog is checked before the length. -/
theorem test_execute_unknown :
    (nextOf (exec (.execute 0) { base with opc0 := 0x12, opc1 := 0x34, plen := 253 })).map (fun t => (t.memRead 0x007, t.statusByte)) =
      some (0x06, 0x02) := by decide
/-- P5, event 3: the selected command's frame. -/
theorem test_execute_selects :
    (nextOf (exec (.execute 0) (command 0x03 0x0C [0x01, 0x56, 0x5A, 0x9F, 0xEA, 0xC9]))).map (fun t => (t.lastFrame, t.seq)) =
      some ([0xAA, 0xDD, 0x00, 0x09, 0x03, 0x0C, 0x01, 0x56, 0x5A, 0x9F, 0xEA, 0xC9, 0xBE], .tx) := by decide
/-- P1, event 1. -/
theorem test_open_starts :
    (nextOf (exec (.openSession 0) (command 0x12 0x34 [0xAB]))).map (fun t => (t.lastFrame, t.memRead 0x00E, t.statusByte)) =
      some ([0xAA, 0xDD, 0x00, 0x03, 0x01, 0x02, 0x03], 0x05, 0x01) := by decide
/-- V-O2. -/
theorem test_open_ready :
    (nextOf (exec (.openSession 0) { base with devReady := true })).map (fun t => (t.memRead 0x007, t.statusByte)) =
      some (0x00, 0x06) := by decide
/-- V-R10. -/
theorem test_rsvd5 : (nextOf (exec (.rsvd5 0) base)).map (fun t => (t.memRead 0x007, t.statusByte)) = some (0x08, 0x02) := by decide
/-- V-R10. -/
theorem test_rsvd6 : (nextOf (exec (.rsvd6 0) base)).map (fun t => (t.memRead 0x007, t.statusByte)) = some (0x08, 0x02) := by decide
/-- V-R10, and R190 while BUSY. -/
theorem test_rsvd7 :
    (nextOf (exec (.rsvd7 0) base)).map (fun t => (t.memRead 0x007, t.statusByte)) = some (0x08, 0x02) ∧
      nextOf (exec (.rsvd7 0) (sending 3)) = some { sending 3 with cmdDropped := true } := by decide

/-! ### The agents' steps -/

/-- V-R1, V-R2. -/
theorem test_reset_reads :
    (base.memRead 0x000, base.memRead 0x001, base.memRead 0x002, base.memRead 0x007, base.memRead 0x00E) =
      (0x00, 0x00, 0x01, 0xFF, 0x00) := by decide
/-- V-R4. -/
theorem test_cfg_reserved_bits : (base.memWrite 0x002 0xFF).memRead 0x002 = 0x0F := by decide
/-- V-R5, V-R6: the clamp. -/
theorem test_rxCount_clamp :
    (({ base with rxCount := 0x100 }).memWrite 0x00A 0xFF).rxCount = 260 ∧
      (({ base with rxCount := 0x010 }).memWrite 0x00B 0x01).rxCount = 260 := by decide
/-- V-R8. -/
theorem test_status_w1c :
    (({ base with done := true, csumOk := true, cmdDropped := true, rxOvf := true }).memWrite 0x001 0xFF).statusByte = 0x08 := by decide
/-- V-R9. -/
theorem test_irq :
    ({ base with done := true, cfg := 0x5 } : State).irq = true ∧ (({ base with done := true, cfg := 0x5 }).memWrite 0x001 0x02).irq = false := by
  decide
/-- P6, event 4. -/
theorem test_locked_cfg : (sending 3).memWrite 0x002 0x08 = sending 3 := by decide
/-- The last LINK step of V-X1. -/
theorem test_link_last :
    (nextOf (step { sending 6 with events := [.linkAccept] })).map (fun t => (t.wire, t.seq, t.tmr)) =
      some ([0x03], .wait1, true) := by decide
/-- V-X2. -/
theorem test_first_read_timeout :
    (nextOf (step { waiting [] with events := [.timerExpire] })).map (fun t => (t.memRead 0x007, t.rxCount, t.statusByte)) =
      some (0x01, 0, 0x02) := by decide
/-- The first read with READ1_MAX 4. -/
theorem test_first_read_takes :
    (nextOf (step { waiting [0xAA, 0xDD, 0x00, 0x04, 0x01, 0x02, 0x00, 0x03] with events := [.timerExpire] })).map
      (fun t => (t.raw, t.rxq, t.seq)) = some ([0xAA, 0xDD, 0x00, 0x04], [0x01, 0x02, 0x00, 0x03], .wait2) := by decide
/-- V-X3: the reply spans both reads. -/
theorem test_second_read_ok :
    (nextOf (step { half [0x04, 0x01, 0x02, 0x00, 0x03] with events := [.timerExpire] })).map
      (fun t => (t.memRead 0x007, t.rxCount, t.statusByte)) = some (0x00, 8, 0x0A) := by decide
/-- V-X4: nothing more comes in time. -/
theorem test_second_read_short :
    (nextOf (step { half [] with events := [.timerExpire] })).map (fun t => (t.memRead 0x007, t.rxCount)) = some (0x02, 3) := by decide
/-- P1, event 5. -/
theorem test_open_second_exchange :
    (nextOf (step { initing [0x04, 0x01, 0x02, 0x00, 0x03] with events := [.timerExpire] })).map
      (fun t => (t.lastFrame, t.rxCount, t.memRead 0x00E)) =
      some ([0xAA, 0xDD, 0x00, 0x04, 0x01, 0x04, 0x02, 0x07], 0, 0x09) := by decide
/-- P1, events 8 to 10. -/
theorem test_open_ends :
    (nextOf (step { greening [0x04, 0x01, 0x04, 0x00, 0x05] with events := [.timerExpire] })).map
      (fun t => (t.memRead 0x001, t.memRead 0x007)) = some (0x0E, 0x00) := by decide
/-- V-O6. -/
theorem test_open_fails :
    (nextOf (step { greening [0x04, 0x01, 0x04, 0x01, 0x04] with events := [.timerExpire] })).map
      (fun t => (t.memRead 0x007, t.memRead 0x008, t.devReady)) = some (0x04, 0x01, false) := by decide
/-- V-X11: the fifth byte at a full RXQ. -/
theorem test_overflow :
    (nextOf (step { State.resetWith { read1Max := 1, rxqDepth := 4 } with rxq := [1, 2, 3, 4], events := [.devByte 5] })).map
      (fun t => (t.rxq, t.statusByte)) = some ([1, 2, 3, 4], 0x40) := by decide
/-- withFetchWord: the next step runs the word. -/
theorem test_fetch_word :
    (nextOf (step (base.withFetchWord 16 0x010C))).map State.lastFrame = some [0xAA, 0xDD, 0x00, 0x03, 0x01, 0x0C, 0x0D] ∧
      (nextOf (step (base.withFetchWord 8 0x05))).map (fun t => t.memRead 0x007) = some 0x08 := by decide

/-! ### The states above meet the invariant -/

theorem base_inv : base.Inv := State.resetWith_inv (by decide)
theorem command_inv : (command 0x01 0x02 []).Inv := by
  constructor <;> first | decide | exact fun h => absurd rfl h
theorem longest_inv : ({ base with plen := 252 } : State).Inv := by
  constructor <;> first | decide | exact fun h => absurd rfl h
theorem sending_inv : (sending 3).Inv ∧ (sending 6).Inv ∧ (sending 0).Inv := by
  refine ⟨?_, ?_, ?_⟩ <;> constructor <;> first | decide | exact fun _ => ⟨by decide, by decide, by decide⟩
theorem waiting_inv : (waiting []).Inv ∧ (waiting [0xAA]).Inv := by
  refine ⟨?_, ?_⟩ <;> constructor <;> first | decide | exact fun _ => ⟨by decide, by decide, by decide⟩
theorem half_inv : (half []).Inv := by
  constructor <;> first | decide | exact fun _ => ⟨by decide, by decide, by decide⟩
theorem initing_inv : (initing [0x04, 0x01, 0x02, 0x00, 0x03]).Inv := by
  constructor <;> first | decide | exact fun _ => ⟨by decide, by decide, by decide⟩
theorem greening_inv : (greening [0x04, 0x01, 0x04, 0x00, 0x05]).Inv ∧ (greening []).Inv := by
  refine ⟨?_, ?_⟩ <;> constructor <;> first | decide | exact fun _ => ⟨by decide, by decide, by decide⟩
theorem reading_inv : (reading [0x0B, 0x01, 0x0C, 0x00, 0x00, 0x00, 0x00, 0x00, 0x00, 0x00, 0x00, 0x0D]).Inv := by
  constructor <;> first | decide | exact fun _ => ⟨by decide, by decide, by decide⟩

/-! ### Witnesses: the hypotheses of each obligation are met together -/

theorem witness_EveryStepKeepsTheInvariant :
    ∃ s t : State, s.Inv ∧ s.seq = .tx ∧ step s = .next t :=
  ⟨{ sending 6 with events := [.linkAccept] }, _, sending_inv.2.1.withEvents _, rfl, rfl⟩

theorem witness_DecodeOfEncodeGivesTheInstruction : Instr.wellFormed (.srst 0x7F) = true ∧ Instr.wellFormed .readToken = true := by decide

theorem witness_DecodedBytesAreTheEncodersBytes : decode [0x7B] = .ok (.execute 15) ∧ decode [0x02, 0x0C] = .ok .writeToken := by decide

/-- Both ends of the ignored bits for every row. -/
theorem witness_CtrlBytesDecodeByTheTableRows :
    (0xFF : Byte) &&& 0x80 = 0x80 ∧ (0x78 : Byte) &&& 0x87 = 0x00 ∧ (0x79 : Byte) &&& 0x87 = 0x01 ∧ (0x7A : Byte) &&& 0x87 = 0x02 ∧
      (0x7B : Byte) &&& 0x87 = 0x03 ∧ (0x04 : Byte) &&& 0x87 = 0x04 ∧ (0x05 : Byte) &&& 0x87 = 0x05 ∧ (0x7E : Byte) &&& 0x87 = 0x06 ∧
      (0x07 : Byte) &&& 0x87 = 0x07 ∧ (0x7F : Byte) &&& 0x87 = 0x07 &&& 0x87 ∧ (0x80 : Byte) &&& 0x80 = 0x80 := by decide

theorem witness_OpcodesDecodeToTheSixCommands :
    opcode16 0x01 0x01 ∉ [0x0102, 0x0103, 0x0104, 0x010C, 0x020C, 0x030C] ∧
      opcode16 0x01 0x05 ∉ [0x0102, 0x0103, 0x0104, 0x010C, 0x020C, 0x030C] ∧
      opcode16 0x03 0x0D ∉ [0x0102, 0x0103, 0x0104, 0x010C, 0x020C, 0x030C] := by decide

theorem witness_StepRunsTheDecodedInstruction :
    ({ base with events := [.hostWrite 0x000 0x7B] } : State).events = .hostWrite 0x000 0x7B :: [] ∧ decode [0x7B] = .ok (.execute 15) := by
  decide

theorem witness_StepRunsTheSelectedCatalogCommand :
    ∃ s : State, s.events = .hostWrite 0x000 0x7B :: [] ∧ (0x7B : Byte) &&& 0x87 = 0x03 ∧ decode [s.opc0, s.opc1] = .ok .getInfo :=
  ⟨{ command 0x01 0x02 [] with events := [.hostWrite 0x000 0x7B] }, rfl, by decide, by decide⟩

theorem witness_FetchedTableWordRunsNext :
    (tableWordWellFormed 16 0x030C = true ∧ decodeTableWord 16 0x030C = some .writeTokenReserve) ∧
      tableWordWellFormed 8 0xFF = true ∧ decodeTableWord 8 0xFF = some (.srst 0x7F) := by decide

/-- One byte for each clause: SRST, NOP, an operation while BUSY = 1 and while BUSY = 0. -/
theorem witness_CtrlWriteIsTakenInOrder :
    (0x80 : Byte).getLsbD 7 = true ∧ ((0x78 : Byte).getLsbD 7 = false ∧ (0x78 : Byte).extractLsb' 0 3 = 0) ∧
      ((0x7F : Byte).getLsbD 7 = false ∧ (0x7F : Byte).extractLsb' 0 3 ≠ 0 ∧ (sending 3).seq ≠ .idle) ∧
      (0x01 : Byte).getLsbD 7 = false ∧ (0x01 : Byte).extractLsb' 0 3 ≠ 0 ∧ base.seq = .idle ∧
      ({ sending 3 with events := [.hostWrite 0x000 0x7F] } : State).events = .hostWrite 0x000 0x7F :: [] := by decide

theorem witness_ColdResetRestoresEveryPiece :
    ({ sending 3 with events := [.coldReset] } : State).events = .coldReset :: [] := rfl

theorem witness_BusyDropsEveryOperation :
    (∀ g, Instr.getInfo ≠ .nop g) ∧ (∀ g, Instr.getInfo ≠ .srst g) ∧ (sending 3).seq ≠ .idle := by
  refine ⟨?_, ?_, ?_⟩ <;> simp [sending]

theorem witness_EncodeBuildsTheRequestFrame :
    (base.mem.wf = true ∧ base.seq = .idle ∧ base.plen.toNat ≤ 252) ∧
      ∃ s : State, s.mem.wf = true ∧ s.seq = .idle ∧ s.plen.toNat = 252 :=
  ⟨by decide, { base with plen := 252 }, by decide⟩

theorem witness_EncodeLeavesTheRestUnchanged :
    ∃ s t : State, s.Inv ∧ s.seq = .idle ∧ s.plen.toNat = 252 ∧ exec (.encodeFrame 0) s = .next t :=
  ⟨{ base with plen := 252 }, _, longest_inv, rfl, rfl, rfl⟩

theorem witness_EncodeRefusesALongPayload :
    ∃ s : State, s.seq = .idle ∧ s.plen.toNat = 253 := ⟨{ base with plen := 253 }, rfl, rfl⟩

theorem witness_DecodeReportsTheResponse :
    ∃ (s : State) (r : DecodeResult), s.mem.wf = true ∧ s.seq = .idle ∧ r.code = .ok ∧
      r = decodeResponse { op0 := s.opc0, op1 := s.opc1, chkEn := s.checkEn, chkVal := s.checkVal, verify := s.verifyCsum }
        (s.cells rxBuf s.rxCount.toNat) :=
  ⟨received 0x01 0x02 [0xAA, 0xDD, 0x00, 0x04, 0x01, 0x02, 0x00, 0x03], { code := .ok, status := 0, pl := [], csumOk := true },
    by decide, rfl, rfl, by decide⟩

theorem witness_DecodeLeavesTheRestUnchanged :
    ∃ s t : State, s.Inv ∧ s.seq = .idle ∧ exec (.decodeFrame 0) s = .next t := ⟨base, _, base_inv, rfl, rfl⟩

theorem witness_ReservedOpsReportBadCommand :
    base.seq = .idle ∧ (sending 3).seq ≠ .idle ∧
      ((Instr.rsvd7 0 : Instr) = .rsvd5 0 ∨ (Instr.rsvd7 0 : Instr) = .rsvd6 0 ∨ (Instr.rsvd7 0 : Instr) = .rsvd7 0) := by decide

theorem witness_OpenWhenReadyCompletesAtOnce : ∃ s : State, s.seq = .idle ∧ s.devReady = true := ⟨{ base with devReady := true }, rfl, rfl⟩

theorem witness_OpenStartsTheGetInfoExchange : base.Inv ∧ base.seq = .idle ∧ base.devReady = false := ⟨base_inv, rfl, rfl⟩

/-- Every opcode at both ends of its shape. -/
theorem witness_CatalogCommandStartsItsExchange :
    CommandShape .getInfo 0 ∧ CommandShape .beep 1 ∧ CommandShape .setLed 1 ∧ CommandShape .readToken 0 ∧
      (CommandShape .writeToken 1 ∧ CommandShape .writeToken 252) ∧
      (CommandShape .writeTokenReserve 1 ∧ CommandShape .writeTokenReserve 252) ∧
      ∃ s : State, s.mem.wf = true ∧ s.seq = .idle ∧ CommandShape .writeToken s.plen.toNat ∧ s.plen.toNat = 252 := by
  refine ⟨rfl, rfl, rfl, rfl, ⟨?_, ?_⟩, ⟨?_, ?_⟩, { base with plen := 252 }, by decide, rfl, ⟨by decide, by decide⟩, rfl⟩ <;>
    exact ⟨by decide, by decide⟩

theorem witness_CatalogStartLeavesTheRestUnchanged :
    ∃ s t : State, s.Inv ∧ s.seq = .idle ∧ CommandShape .getInfo s.plen.toNat ∧ s.opc0 = Catalog.op0 .getInfo ∧
      s.opc1 = Catalog.op1 .getInfo ∧ exec (.execute 0) s = .next t := by
  have hc : catalogOf (command 0x01 0x02 []).opc0 (command 0x01 0x02 []).opc1 = some .getInfo := by decide
  have hx := exec_execute_catalog 0 hc
  rw [exec_catalog] at hx
  exact ⟨_, _, command_inv, by decide, by unfold CommandShape; decide, by decide, by decide, hx⟩

/-- Each wrong length next to a right one. -/
theorem witness_CatalogCommandRefusesAWrongShape :
    ¬ CommandShape .getInfo 1 ∧ ¬ CommandShape .beep 0 ∧ ¬ CommandShape .beep 2 ∧ ¬ CommandShape .setLed 2 ∧ ¬ CommandShape .readToken 1 ∧
      ¬ CommandShape .writeToken 0 ∧ ¬ CommandShape .writeTokenReserve 253 ∧
      ∃ s : State, s.seq = .idle ∧ ¬ CommandShape .getInfo s.plen.toNat := by
  refine ⟨?_, ?_, ?_, ?_, ?_, ?_, ?_, command 0x01 0x02 [0x00], rfl, ?_⟩ <;> simp [CommandShape, command]

theorem witness_ExecuteFollowsDispatch :
    (base.mem.wf = true ∧ base.seq = .idle ∧ dispatch base.opc0 base.opc1 base.plen.toNat ≠ .ok) ∧
      (∃ s : State, s.mem.wf = true ∧ s.seq = .idle ∧ dispatch s.opc0 s.opc1 s.plen.toNat = .ok) ∧
      ¬ CommandShape .beep 252 ∧ CommandShape .writeToken 252 := by
  refine ⟨by decide, ⟨command 0x01 0x02 [], by decide, rfl, by decide⟩, ?_, ⟨by decide, by decide⟩⟩
  simp [CommandShape]

/-- A byte before the last and the last one. -/
theorem witness_TransmitPhaseSendsTheWholeFrame :
    ((sending 0).Inv ∧ (sending 0).seq = .tx ∧ (sending 0).txLen.toNat - (sending 0).txIdx = 7) ∧
      (sending 6).Inv ∧ (sending 6).seq = .tx ∧ (sending 6).txIdx + 1 = (sending 6).txLen.toNat :=
  ⟨⟨sending_inv.2.2, rfl, rfl⟩, sending_inv.2.1, rfl, rfl⟩

theorem witness_OnlyAResetCancelsAnExchange :
    ∃ s t : State, s.Inv ∧ s.events = .timerExpire :: [] ∧ step s = .next t ∧ s.seq ≠ .idle :=
  ⟨{ waiting [] with events := [.timerExpire] }, _, waiting_inv.1.withEvents _, rfl, rfl, by decide⟩

/-- One free cell, and none. -/
theorem witness_CaptureAppendSaturatesAt260 :
    (∃ s : State, s.mem.wf = true ∧ s.rxCount.toNat = 259) ∧ ∃ s : State, s.mem.wf = true ∧ s.rxCount.toNat = 260 :=
  ⟨⟨{ base with rxCount := 259 }, rfl, rfl⟩, { base with rxCount := 260 }, rfl, rfl⟩

theorem witness_FirstReadCapturesOrTimesOut :
    ((waiting []).Inv ∧ (waiting []).seq = .wait1 ∧ (waiting []).rxq = []) ∧
      (waiting [0xAA]).Inv ∧ (waiting [0xAA]).seq = .wait1 ∧ (waiting [0xAA]).rxq ≠ [] :=
  ⟨⟨waiting_inv.1, rfl, rfl⟩, waiting_inv.2, rfl, by decide⟩

theorem witness_SecondReadDecodesAndCompletes : (half []).Inv ∧ (half []).seq = .wait2 ∧ (half []).iphase = .none :=
  ⟨half_inv, rfl, rfl⟩

theorem witness_OpenGoesOnWithSetLedGreen :
    ∃ s : State, s.Inv ∧ s.events = .timerExpire :: [] ∧ s.seq = .wait2 ∧ s.iphase = .getInfo ∧
      (decodeResponse { op0 := 0x01, op1 := 0x02, chkEn := true, chkVal := 0x00, verify := s.verifyCsum }
        ((s.raw ++ s.rxq.take 1000).take 260)).code = .ok :=
  ⟨{ initing [0x04, 0x01, 0x02, 0x00, 0x03] with events := [.timerExpire] }, initing_inv.withEvents _, rfl, rfl, rfl, by decide⟩

/-- SetLed answered with status 00, and not answered in full. -/
theorem witness_OpenEndsWithDevReadyOnlyOnSuccess :
    (∃ s : State, s.Inv ∧ s.events = .timerExpire :: [] ∧ s.seq = .wait2 ∧ s.iphase = .setLed ∧
      (decodeResponse
        { op0 := s.lat.op0, op1 := s.lat.op1, chkEn := s.lat.chkEn, chkVal := s.lat.chkVal, verify := s.verifyCsum }
        ((s.raw ++ s.rxq.take 1000).take 260)).code = .ok) ∧
      ∃ s : State, s.Inv ∧ s.events = .timerExpire :: [] ∧ s.seq = .wait2 ∧ s.iphase ≠ .none ∧
        (decodeResponse
          { op0 := s.lat.op0, op1 := s.lat.op1, chkEn := s.lat.chkEn, chkVal := s.lat.chkVal, verify := s.verifyCsum }
          ((s.raw ++ s.rxq.take 1000).take 260)).code ≠ .ok :=
  ⟨⟨{ greening [0x04, 0x01, 0x04, 0x00, 0x05] with events := [.timerExpire] }, greening_inv.1.withEvents _, rfl, rfl, rfl, by decide⟩,
    { greening [] with events := [.timerExpire] }, greening_inv.2.withEvents _, rfl, rfl, by decide, by decide⟩

/-- One state for each clause: the two first reads, a second read that completes and one that starts OPEN's second exchange. -/
theorem witness_TimerStepLeavesTheCommandUnchanged :
    (∃ s t : State, s.Inv ∧ s.events = .timerExpire :: [] ∧ step s = .next t ∧ s.seq = .wait1 ∧ s.rxq = []) ∧
      (∃ s t : State, s.Inv ∧ s.events = .timerExpire :: [] ∧ step s = .next t ∧ s.seq = .wait1 ∧ s.rxq ≠ []) ∧
      (∃ s t : State, s.Inv ∧ s.events = .timerExpire :: [] ∧ step s = .next t ∧ s.seq = .wait2 ∧ t.seq = .idle) ∧
      ∃ s t : State, s.Inv ∧ s.events = .timerExpire :: [] ∧ step s = .next t ∧ s.seq = .wait2 ∧ t.seq ≠ .idle :=
  ⟨⟨{ waiting [] with events := [.timerExpire] }, _, waiting_inv.1.withEvents _, rfl, rfl, rfl, rfl⟩,
    ⟨{ waiting [0xAA] with events := [.timerExpire] }, _, waiting_inv.2.withEvents _, rfl, rfl, rfl, by decide⟩,
    ⟨{ half [] with events := [.timerExpire] }, _, half_inv.withEvents _, rfl, rfl, rfl, by decide⟩,
    { initing [0x04, 0x01, 0x02, 0x00, 0x03] with events := [.timerExpire] }, _, initing_inv.withEvents _, rfl, rfl, rfl, by decide⟩

/-- Buffer addresses that no register clause leaves out: an RX_BUF cell past the capture, the TX_FRAME cell past SetLed's frame, the last
RES_PL cell. -/
theorem witness_TimerStep_addresses :
    (captureAddr 0x503 = false ∧ resultAddr 0x503 = false ∧ startAddr 0x503 = false) ∧ startAddr 0x208 = false ∧
      captureAddr 0x6FA = false ∧ resultAddr 0x6FA = false := by decide

/-- One place left in RXQ, and none. -/
theorem witness_DeliveredByteJoinsTheQueue :
    (∃ s : State, s.events = .devByte 0xAA :: [] ∧ s.rxq.length + 1 = s.params.rxqDepth) ∧
      ∃ s : State, s.events = .devByte 0xAA :: [] ∧ s.params.rxqDepth = s.rxq.length :=
  ⟨⟨{ State.resetWith { read1Max := 1, rxqDepth := 1 } with events := [.devByte 0xAA] }, rfl, rfl⟩,
    { State.resetWith { read1Max := 1, rxqDepth := 1 } with events := [.devByte 0xAA], rxq := [1] }, rfl, rfl⟩

theorem witness_HostReadReturnsTheValueAndChangesNothing :
    ({ base with events := [.hostRead 0xFFF] } : State).events = .hostRead 0xFFF :: [] := rfl

/-- The ends of every unmapped and read-only range. -/
theorem witness_UnmappedReadsZeroAndIgnoresWrites :
    unmappedAddr 0x012 = true ∧ unmappedAddr 0x0FF = true ∧ unmappedAddr 0x1FC = true ∧ unmappedAddr 0x1FF = true ∧
      unmappedAddr 0x303 = true ∧ unmappedAddr 0x3FF = true ∧ unmappedAddr 0x504 = true ∧ unmappedAddr 0x5FF = true ∧
      unmappedAddr 0x6FB = true ∧ unmappedAddr 0xFFF = true ∧ readOnlyAddr 0x007 = true ∧ readOnlyAddr 0x00F = true ∧
      readOnlyAddr 0x011 = true ∧ readOnlyAddr 0x200 = true ∧ readOnlyAddr 0x302 = true ∧ readOnlyAddr 0x600 = true ∧
      readOnlyAddr 0x6FA = true ∧ ({ base with events := [.hostWrite 0xFFF 0x01] } : State).events = .hostWrite 0xFFF 0x01 :: [] := by
  decide

theorem witness_BusyLocksTheCommandRegisters :
    lockedAddr 0x002 = true ∧ lockedAddr 0x00B = true ∧ lockedAddr 0x100 = true ∧ lockedAddr 0x1FB = true ∧ lockedAddr 0x400 = true ∧
      lockedAddr 0x503 = true ∧
      ∃ s : State, s.events = .hostWrite 0x503 0xFF :: [] ∧ s.seq ≠ .idle :=
  ⟨by decide, by decide, by decide, by decide, by decide, by decide, { sending 3 with events := [.hostWrite 0x503 0xFF] }, rfl, by decide⟩

theorem witness_IdleWriteReadsBackAndTouchesNothingElse :
    (∃ s : State, s.Inv ∧ s.events = .hostWrite 0x002 0xFF :: [] ∧ s.seq = .idle) ∧
      (∃ s : State, s.Inv ∧ s.events = .hostWrite 0x503 0xFF :: [] ∧ s.seq = .idle) ∧
      lockedAddr 0x002 = true ∧ lockedAddr 0x503 = true ∧ (0x503 : Addr) ≠ 0x00A ∧ (0x503 : Addr) ≠ 0x00B :=
  ⟨⟨{ base with events := [.hostWrite 0x002 0xFF] }, base_inv.withEvents _, rfl, rfl⟩,
    ⟨{ base with events := [.hostWrite 0x503 0xFF] }, base_inv.withEvents _, rfl, rfl⟩, by decide, by decide, by decide, by decide⟩

theorem witness_RxCountWritesAreClamped :
    (∃ s : State, s.events = .hostWrite 0x00A 0xFF :: [] ∧ s.seq = .idle) ∧
      (∃ s : State, s.events = .hostWrite 0x00B 0xFF :: [] ∧ s.seq = .idle) ∧
      (∃ s : State, s.events = .hostWrite 0x00A 0xFF :: [] ∧ s.seq ≠ .idle) ∧
      ∃ s : State, s.events = .hostWrite 0x00B 0xFF :: [] ∧ s.seq ≠ .idle :=
  ⟨⟨{ base with events := [.hostWrite 0x00A 0xFF] }, rfl, rfl⟩, ⟨{ base with events := [.hostWrite 0x00B 0xFF] }, rfl, rfl⟩,
    ⟨{ sending 3 with events := [.hostWrite 0x00A 0xFF] }, rfl, by decide⟩,
    { sending 3 with events := [.hostWrite 0x00B 0xFF] }, rfl, by decide⟩

theorem witness_StatusWriteClearsOnlyTheNamedFlags :
    (0x02 : Byte).getLsbD 1 = true ∧ ({ base with events := [.hostWrite 0x001 0x02] } : State).events = .hostWrite 0x001 0x02 :: [] := by decide

/-- One buffer for each check, at the length where it first applies. -/
theorem witness_DecodeChecksInOrder :
    ([0xAA, 0xDD, 0x00] : List Byte).length < 4 ∧
      (byteAt [0xAA, 0xDD, 0x00, 0x01] 3).toNat + 4 ≠ 4 ∧
      ((byteAt [0xAB, 0xDD, 0x00, 0x00] 3).toNat + 4 = 4 ∧ slice [0xAB, 0xDD, 0x00, 0x00] 0 3 ≠ [0xAA, 0xDD, 0x00]) ∧
      (slice [0xAA, 0xDD, 0x00, 0x01, 0x01] 0 3 = [0xAA, 0xDD, 0x00] ∧ (byteAt [0xAA, 0xDD, 0x00, 0x01, 0x01] 3).toNat + 4 = 5) ∧
      ((byteAt [0xAA, 0xDD, 0x00, 0x02, 0x01, 0x02] 3).toNat + 4 = 6 ∧ byteAt [0xAA, 0xDD, 0x00, 0x02, 0x01, 0x02] 4 = 0x01) ∧
      ((byteAt [0xAA, 0xDD, 0x00, 0x03, 0x01, 0x02, 0x55] 3).toNat + 4 = 7 ∧
        xorfold (slice [0xAA, 0xDD, 0x00, 0x03, 0x01, 0x02, 0x55] 4 7) ≠ 0x00) ∧
      xorfold (slice [0xAA, 0xDD, 0x00, 0x03, 0x01, 0x02, 0x03] 4 7) = 0x00 := by decide

theorem witness_LengthsOfBuffersAndExtractedPayloads :
    260 ≤ (List.replicate 260 (0x00 : Byte)).length ∧
      (decodeResponse { op0 := 0x01, op1 := 0x0C, chkEn := false, chkVal := 0x00, verify := false }
        [0xAA, 0xDD, 0x00, 0x03, 0x01, 0x0C, 0x0D]).code = .ok ∧
      (decodeResponse { op0 := 0x01, op1 := 0x02, chkEn := true, chkVal := 0x00, verify := false }
        [0xAA, 0xDD, 0x00, 0x03, 0x01, 0x02, 0x55]).code = .deviceStatus := by
  refine ⟨?_, by decide, by decide⟩
  rw [List.length_replicate]

/-- The longest data, and a token with the least and the right number of bytes. -/
theorem witness_ResponseFrameRoundTrips :
    (List.replicate 251 (0x00 : Byte)).length ≤ 251 ∧ 2 ≤ ([0x01, 0x02] : List Byte).length ∧ ([1, 2, 3, 4, 5] : List Byte).length = 5 ∧
      ¬ ((0x01 : Byte) = 0x01 ∧ (0x02 : Byte) = 0x0C) := by
  refine ⟨?_, by decide, by decide, by decide⟩
  rw [List.length_replicate]

theorem witness_BuiltFramePassesTheResponseChecks :
    ∃ s t : State, s.mem.wf = true ∧ s.seq = .idle ∧ s.plen.toNat = 1 ∧ exec (.encodeFrame 0) s = .next t ∧
      ¬ (s.opc0 = 0x01 ∧ s.opc1 = 0x0C) :=
  ⟨command 0x01 0x03 [0x05], _, by decide, rfl, rfl, rfl, by decide⟩

theorem witness_XorFoldIsOrderIndependent : ([0x01, 0x02] : List Byte).Perm [0x02, 0x01] := List.Perm.swap _ _ _

theorem witness_EnabledEventsStepAndOthersFault :
    enabled .linkAccept (sending 3) = true ∧ enabled .timerExpire (half []) = true ∧ base.seq ≠ .tx ∧ enabled .timerExpire base = false ∧
      ({ base with events := [.timerExpire] } : State).events = .timerExpire :: [] := by decide

theorem witness_DevReadyChangesOnlyByOpenAndColdReset :
    (∃ s t : State, s.Inv ∧ step s = .next t ∧ s.devReady = false ∧ t.devReady = true) ∧
      ∃ s t : State, s.Inv ∧ step s = .next t ∧ s.devReady = true ∧ t.devReady = false :=
  ⟨⟨{ greening [0x04, 0x01, 0x04, 0x00, 0x05] with events := [.timerExpire] }, _, greening_inv.1.withEvents _, rfl, rfl, by decide⟩,
    { base with devReady := true, events := [.coldReset] }, _,
    by constructor <;> first | decide | exact fun h => absurd rfl h, rfl, rfl, rfl⟩

/-- A HOST write while BUSY = 1, and another agent's step. -/
theorem witness_CommandRegistersChangeOnlyByIdleHostWrites :
    (∃ s t : State, s.Inv ∧ s.events = .hostWrite 0x004 0x7F :: [] ∧ step s = .next t ∧ s.seq ≠ .idle) ∧
      ∃ s t : State, s.Inv ∧ s.events = .devByte 0x00 :: [] ∧ step s = .next t ∧ ∀ a v, Event.devByte 0x00 ≠ .hostWrite a v :=
  ⟨⟨{ sending 3 with events := [.hostWrite 0x004 0x7F] }, _, sending_inv.1.withEvents _, rfl, rfl, by decide⟩,
    { base with events := [.devByte 0x00] }, _, base_inv.withEvents _, rfl, rfl, by simp⟩

theorem witness_WireGrowsOnlyByTransmitSteps :
    ∃ s t : State, step s = .next t ∧ t.wire ≠ s.wire := ⟨{ sending 3 with events := [.linkAccept] }, _, rfl, by decide⟩

/-- A step that builds a frame, and one that resets. -/
theorem witness_TxFrameChangesOnlyWithABuiltFrame :
    (∃ s t : State, s.Inv ∧ step s = .next t ∧ s.txLen = 0 ∧ t.txLen = 7) ∧
      ∃ s t : State, s.Inv ∧ step s = .next t ∧ s.txLen = 7 ∧ t.txLen = 0 :=
  ⟨⟨{ base with events := [.hostWrite 0x000 0x01] }, _, base_inv.withEvents _, rfl, rfl, by decide⟩,
    { sending 3 with events := [.hostWrite 0x000 0x80] }, _, sending_inv.1.withEvents _, rfl, rfl, by decide⟩

theorem witness_ReceiveQueueIsEmptiedOnlyAsTheRulesSay :
    ∃ s t : State, s.Inv ∧ step s = .next t ∧ s.rxq = [0xAA] ∧ t.rxq = [] :=
  ⟨{ waiting [0xAA] with events := [.timerExpire] }, _, waiting_inv.2.withEvents _, rfl, rfl, by decide⟩

/-- A completion in a CTRL write's step and one in a TIMER step. -/
theorem witness_CompletionIsOneAtomicStep :
    (∃ s t : State, s.Inv ∧ step s = .next t ∧ s.done = false ∧ t.done = true ∧ s.seq = .idle) ∧
      ∃ s t : State, s.Inv ∧ step s = .next t ∧ s.done = false ∧ t.done = true ∧ s.seq = .wait2 :=
  ⟨⟨{ base with events := [.hostWrite 0x000 0x05] }, _, base_inv.withEvents _, rfl, rfl, by decide, rfl⟩,
    { half [] with events := [.timerExpire] }, _, half_inv.withEvents _, rfl, rfl, by decide, rfl⟩

theorem witness_NoCardIsSetOnlyByAZeroToken :
    ∃ s t : State, s.Inv ∧ step s = .next t ∧ s.noCard = false ∧ t.noCard = true :=
  ⟨{ reading [0x0B, 0x01, 0x0C, 0x00, 0x00, 0x00, 0x00, 0x00, 0x00, 0x00, 0x00, 0x0D] with events := [.timerExpire] }, _,
    reading_inv.withEvents _, rfl, rfl, by decide⟩

theorem witness_ExchangeDecodesTheReplyItCaptured :
    ∃ (s : State) (reply : List Byte), s.Inv ∧ s.seq = .idle ∧ s.rxq = [] ∧ s.opc0 = Catalog.op0 .getInfo ∧ s.opc1 = Catalog.op1 .getInfo ∧
      CommandShape .getInfo s.plen.toNat ∧ reply ≠ [] ∧ reply.length ≤ s.params.rxqDepth ∧
      s.events = .hostWrite 0x000 0x03 :: (List.replicate (7 + s.plen.toNat) .linkAccept
        ++ (reply.map .devByte ++ (.timerExpire :: .timerExpire :: []))) :=
  ⟨{ command 0x01 0x02 [] with
      events := .hostWrite 0x000 0x03 :: (List.replicate 7 .linkAccept
        ++ ([0xAA, 0xDD, 0x00, 0x04, 0x01, 0x02, 0x00, 0x03].map .devByte ++ [.timerExpire, .timerExpire])) },
    [0xAA, 0xDD, 0x00, 0x04, 0x01, 0x02, 0x00, 0x03], command_inv.withEvents _, rfl, rfl, rfl, rfl, rfl, by decide, by decide, rfl⟩

theorem witness_SoftResetLeavesTheAgentsSide :
    ∃ s t : State, s.seq = .tx ∧ exec (.srst 0x7F) s = .next t := ⟨sending 3, _, rfl, rfl⟩

end Sys2Proof.Tests
end

section
/-! The scope's laws (00_scope.md): the XOR fold of R10, and which events of the agents take a step (R5). -/

namespace Sys2Proof.Machine

/-! ### The XOR fold (00 R10) -/

theorem xorfold_singleton (b : Byte) : xorfold [b] = b := BitVec.zero_xor

/-- Two neighbouring bytes may be exchanged under the fold, so every permutation keeps it. -/
theorem xorfold_eq_of_perm {s t : List Byte} (h : s.Perm t) : xorfold s = xorfold t :=
  h.foldl_eq' (fun x _ y _ z => by rw [BitVec.xor_assoc, BitVec.xor_comm x, BitVec.xor_assoc]) 0x00

theorem xorfold_append_self (s : List Byte) : xorfold (s ++ [xorfold s]) = 0x00 := by
  rw [xorfold_append, xorfold_singleton]
  exact BitVec.xor_self

/-- Settles O50: the fold splits over a concatenation, and exclusive-or is commutative and its own inverse. -/
theorem xorFoldIsOrderIndependent : Obligations.XorFoldIsOrderIndependent := by
  refine ⟨xorfold_nil, fun s b => ?_, fun s t => ⟨xorfold_eq_of_perm, xorfold_append_self s⟩⟩
  rw [xorfold_append, xorfold_singleton]

/-! ### Which events take a step (00 R5) -/

/-- No instruction faults or is refused. -/
theorem exec_answers_next (i : Instr) (s : State) : ∃ t, exec i s = .next t := by
  rcases exec_cases i s with ⟨_, _, h⟩ | ⟨_, _, h⟩ | ⟨_, _, _, h, _⟩ <;> exact ⟨_, h⟩

theorem enabled_linkAccept {s : State} : enabled .linkAccept s = true ↔ s.seq = .tx := by
  simp [enabled]

theorem enabled_timerExpire {s : State} : enabled .timerExpire s = true ↔ s.tmr = true ∧ (s.seq = .wait1 ∨ s.seq = .wait2) := by
  simp [enabled]

/-- What a rule enables does not depend on the events still pending. -/
theorem enabled_withEvents (e : Event) (s : State) (evs : List Event) : enabled e { s with events := evs } = enabled e s := rfl

theorem linkStep_of_tx {s : State} (h : s.seq = .tx) : linkStep s = .next s.txStep := by
  simp [linkStep, h]

theorem linkStep_of_ne_tx {s : State} (h : s.seq ≠ .tx) : linkStep s = .fault .linkNotEnabled := by
  unfold linkStep
  split
  · next htx => exact absurd htx h
  all_goals rfl

theorem timerStep_of_wait1 {s : State} (ht : s.tmr = true) (h : s.seq = .wait1) : timerStep s = .next s.firstRead := by
  simp [timerStep, ht, h]

theorem timerStep_of_wait2 {s : State} (ht : s.tmr = true) (h : s.seq = .wait2) : timerStep s = .next s.secondRead := by
  simp [timerStep, ht, h]

theorem timerStep_of_not_enabled {s : State} (h : enabled .timerExpire s = false) : timerStep s = .fault .timerNotArmed := by
  have hn : ¬(s.tmr = true ∧ (s.seq = .wait1 ∨ s.seq = .wait2)) := by
    rw [← enabled_timerExpire, h]
    exact Bool.false_ne_true
  unfold timerStep
  split
  · next ht =>
    split
    · next hw => exact absurd ⟨ht, .inl hw⟩ hn
    · next hw => exact absurd ⟨ht, .inr hw⟩ hn
    all_goals rfl
  · rfl

/-- An enabled event of any agent has a next state (00 R5, 42 R196, 60 R250, 20 R82). -/
theorem agentStep_of_enabled {e : Event} {s : State} (h : enabled e s = true) : ∃ t, agentStep e s = .next t := by
  cases e with
  | hostWrite a v => exact ⟨_, rfl⟩
  | hostRead a => exact ⟨_, rfl⟩
  | devByte b => exact ⟨_, rfl⟩
  | linkAccept => exact ⟨_, linkStep_of_tx (enabled_linkAccept.1 h)⟩
  | timerExpire =>
    obtain ⟨ht, hw | hw⟩ := enabled_timerExpire.1 h
    · exact ⟨_, timerStep_of_wait1 ht hw⟩
    · exact ⟨_, timerStep_of_wait2 ht hw⟩
  | coldReset => exact ⟨_, rfl⟩

/-- An enabled event, a command or not, takes its step. -/
theorem step_of_enabled {s : State} {e : Event} {rest : List Event} (hev : s.events = e :: rest) (h : enabled e s = true) :
    ∃ t, step s = .next t := by
  cases hc : commandWord e with
  | some v =>
    rw [commandWord_eq_some.1 hc] at hev
    rw [step_ctrl hev]
    exact exec_answers_next _ _
  | none =>
    rw [step_agent hev hc]
    exact agentStep_of_enabled ((enabled_withEvents e s rest).trans h)

/-- Settles O51: an enabled event is a command, which every instruction answers, or its agent's step; the two faults are LINK's and TIMER's. -/
theorem enabledEventsStepAndOthersFault : Obligations.EnabledEventsStepAndOthersFault := by
  refine fun s e rest hev => ⟨step_of_enabled hev, ?_, ?_⟩
  · rintro rfl hs
    exact (step_agent hev rfl).trans (linkStep_of_ne_tx hs)
  · rintro rfl hn
    exact (step_agent hev rfl).trans (timerStep_of_not_enabled hn)

end Sys2Proof.Machine
end

section
/-! What a CTRL command and a TIMER step can leave, and from it: every step keeps the invariant, who changes DEV_READY (10_state.md R27),
and who changes TX_FRAME and TXLEN (R38). -/

namespace Sys2Proof.Machine

/-! ### What an accepted operation leaves (42 R191) -/

/-- The states an operation leaves that was accepted into `u`: a completion without a decode, ENCODE's frame and its completion, DECODE's
completion, or the start of an exchange. -/
inductive OperationLeaves (u : State) : State → Prop
  | completion (code : ResCode) : OperationLeaves u (u.finishPlain code)
  | encoded (op0 op1 : Byte) {pl : List Byte} (hp : pl.length ≤ 252) : OperationLeaves u ((u.buildFrame op0 op1 pl).finishPlain .ok)
  | decoded : OperationLeaves u u.runDecode
  | exchange (phase : InitPhase) (lat : Latch) {pl : List Byte} (hp : pl.length ≤ 252) :
    OperationLeaves u (({ u with iphase := phase } : State).startExchange lat pl)

theorem State.reqPayload_length_le (s : State) : s.reqPayload.length ≤ 252 := by
  rw [s.reqPayload_length]
  exact Nat.min_le_right ..

theorem State.runEncode_leaves (u : State) : OperationLeaves u u.runEncode := by
  unfold State.runEncode
  split
  · exact .completion _
  · exact .encoded _ _ u.reqPayload_length_le

theorem State.runOpen_leaves (u : State) : OperationLeaves u u.runOpen := by
  unfold State.runOpen
  split
  · exact .completion _
  · exact .exchange _ _ (by simp)

theorem State.runCatalog_leaves (u : State) (c : Catalog) : OperationLeaves u (u.runCatalog c) := by
  rcases u.runCatalog_cases c with ⟨-, -, h⟩ | ⟨-, h⟩ <;> rw [h]
  · exact .exchange _ _ u.reqPayload_length_le
  · exact .completion _

theorem State.take_leaves (s : State) {run : State → State} (hrun : ∀ u, OperationLeaves u (run u)) :
    s.take run = s.dropCommand ∨ (s.seq = .idle ∧ OperationLeaves s.accept (s.take run)) := by
  by_cases hs : s.seq = .idle
  · rw [State.take_of_seq_idle hs]
    exact .inr ⟨hs, hrun _⟩
  · exact .inl (State.take_of_seq_busy hs)

/-- Everything an instruction leaves: the same state (NOP), a soft reset (SRST), a dropped command, or what an accepted operation leaves. -/
theorem exec_leaves {i : Instr} {s t : State} (h : exec i s = .next t) :
    t = s ∨ (t = s.softReset ∧ ∃ g, i = .srst g) ∨ t = s.dropCommand ∨ (s.seq = .idle ∧ OperationLeaves s.accept t) := by
  rcases exec_cases i s with ⟨g, -, hx⟩ | ⟨g, hi, hx⟩ | ⟨-, -, run, hx, hrun⟩ <;> rw [hx] at h <;> injection h with h <;> subst h
  · exact .inl rfl
  · exact .inr (.inl ⟨rfl, g, hi⟩)
  · refine .inr (.inr (s.take_leaves fun u => ?_))
    rcases hrun with rfl | rfl | rfl | ⟨c, rfl⟩ | rfl | rfl
    · exact u.runEncode_leaves
    · exact .decoded
    · exact u.runOpen_leaves
    · exact u.runCatalog_leaves c
    · exact .completion _
    · exact .completion _

theorem OperationLeaves.keeps {u t : State} (h : OperationLeaves u t) : t.params = u.params ∧ t.devReady = u.devReady := by
  cases h <;> exact ⟨rfl, rfl⟩

/-- No instruction touches the parameters or DEV_READY: OPEN sets it in a TIMER step only (42 R213). -/
theorem exec_keeps {i : Instr} {s t : State} (h : exec i s = .next t) : t.params = s.params ∧ t.devReady = s.devReady := by
  rcases exec_leaves h with rfl | ⟨rfl, -⟩ | rfl | ⟨-, ho⟩
  · exact ⟨rfl, rfl⟩
  · exact ⟨rfl, rfl⟩
  · exact ⟨rfl, rfl⟩
  · exact ho.keeps

/-! ### What the end of an exchange leaves (42 R197 to R199) -/

/-- An exchange that does not end OK completes its operation, whatever the init phase. -/
theorem State.exchangeEnd_of_not_ok (s : State) {r : DecodeResult} (h : r.code ≠ .ok) :
    s.exchangeEnd r = ({ s.decodeCommit r with seq := .idle, tmr := false } : State).finishDecoded r.code s.lat.op0 s.lat.op1 := by
  rcases s.exchangeEnd_cases r with ⟨-, hc, -⟩ | ⟨-, hc, -⟩ | ⟨-, he⟩
  · exact absurd hc h
  · exact absurd hc h
  · exact he

@[simp] theorem State.exchangeEnd_params (s : State) (r : DecodeResult) : (s.exchangeEnd r).params = s.params := by
  rcases s.exchangeEnd_cases r with ⟨-, -, h⟩ | ⟨-, -, h⟩ | ⟨-, h⟩ <;> rw [h] <;> rfl

/-- Everything the first read leaves: a TIMEOUT completion, or the second settle delay (42 R197). -/
theorem State.firstRead_leaves (s : State) :
    s.firstRead =
        ({ (s.receive s.params.read1Max).decodeCommit (decodeFail .timeout) with seq := .idle, tmr := false } : State).finishDecoded
          .timeout s.lat.op0 s.lat.op1 ∨
      s.firstRead = { s.receive s.params.read1Max with seq := .wait2 } := by
  refine s.firstRead_cases.imp_left fun h => ?_
  rw [h, State.exchangeEnd_of_not_ok _ (by simp)]
  simp

@[simp] theorem State.firstRead_params (s : State) : s.firstRead.params = s.params := by
  rcases s.firstRead_leaves with h | h <;> simp [h]

@[simp] theorem State.firstRead_devReady (s : State) : s.firstRead.devReady = s.devReady := by
  rcases s.firstRead_leaves with h | h <;> simp [h]

@[simp] theorem State.secondRead_params (s : State) : s.secondRead.params = s.params := by
  simp [State.secondRead]

/-- The end of an exchange changes DEV_READY only in the completion of OPEN's SetLed exchange with OK (42 R199, R213). -/
theorem State.exchangeEnd_devReady (s : State) (r : DecodeResult) :
    (s.exchangeEnd r).devReady = s.devReady ∨
      (s.iphase = .setLed ∧ (s.exchangeEnd r).devReady = true ∧ (s.exchangeEnd r).done = true ∧ (s.exchangeEnd r).resCode = .ok) := by
  rcases s.exchangeEnd_cases r with ⟨-, -, h⟩ | ⟨hp, -, h⟩ | ⟨-, h⟩ <;> rw [h]
  · exact .inl rfl
  · exact .inr ⟨hp, rfl, rfl, rfl⟩
  · exact .inl rfl

theorem State.secondRead_devReady (s : State) :
    s.secondRead.devReady = s.devReady ∨
      (s.iphase = .setLed ∧ s.secondRead.devReady = true ∧ s.secondRead.done = true ∧ s.secondRead.resCode = .ok) := by
  simpa [State.secondRead] using (s.receive Config.read2Max).exchangeEnd_devReady (decodeResponse _ _)

/-! ### The invariant -/

/-- No HOST write outside CTRL touches the parameters, DEV_READY or TXLEN (10 R21). -/
theorem State.memWrite_keeps (s : State) (a : Addr) (v : Byte) :
    (s.memWrite a v).params = s.params ∧ (s.memWrite a v).devReady = s.devReady ∧ (s.memWrite a v).txLen = s.txLen := by
  rcases s.memWrite_cases a v with h | h | ⟨-, h | h | h | h | h | ⟨n, h⟩ | ⟨-, h⟩⟩ <;> rw [h] <;> exact ⟨rfl, rfl, rfl⟩

/-- The parameters are an argument of the model: no step changes them (00 R6). -/
theorem step_params {s t : State} (h : step s = .next t) : t.params = s.params := by
  rcases step_cases h with ⟨-, rfl⟩ | ⟨e, rest, -, ⟨v, -, hx⟩ | ⟨a, v, -, -, rfl⟩ | ⟨a, -, rfl⟩ | ⟨b, -, rfl⟩ | ⟨-, -, rfl⟩ |
    ⟨-, -, -, rfl⟩ | ⟨-, -, -, rfl⟩ | ⟨-, rfl⟩⟩
  · rfl
  · exact (exec_keeps hx).1
  · exact (State.memWrite_keeps _ a v).1
  all_goals simp

theorem State.Inv.step {s t : State} (hs : s.Inv) (h : step s = .next t) : t.Inv := by
  rcases step_cases h with ⟨-, rfl⟩ | ⟨e, rest, -, hcase⟩
  · exact hs
  have hi := hs.withEvents rest
  rcases hcase with ⟨v, -, hx⟩ | ⟨a, v, -, -, rfl⟩ | ⟨a, -, rfl⟩ | ⟨b, -, rfl⟩ | ⟨-, hq, rfl⟩ | ⟨-, -, hq, rfl⟩ | ⟨-, -, hq, rfl⟩ |
    ⟨-, rfl⟩
  · exact hi.exec hx
  · exact hi.memWrite a v
  · exact hi.hostReadStep a
  · exact hi.deliver b
  · exact hi.txStep hq
  · exact hi.firstRead hq
  · exact hi.secondRead hq
  · exact hi.powerOn

/-- Settles O3: the step's inversion gives one case per event, and each operation keeps the invariant by its own lemma. -/
theorem everyStepKeepsTheInvariant : Obligations.EveryStepKeepsTheInvariant :=
  fun _ _ hs h => ⟨hs.step h, step_params h⟩

/-! ### DEV_READY (10 R27) -/

/-- Settles O52: of all the events only the second read of OPEN's SetLed exchange and the cold reset write DEV_READY. -/
theorem devReadyChangesOnlyByOpenAndColdReset : Obligations.DevReadyChangesOnlyByOpenAndColdReset := by
  intro s t _ h hne
  rcases step_cases h with ⟨-, rfl⟩ | ⟨e, rest, hev, ⟨v, -, hx⟩ | ⟨a, v, -, -, rfl⟩ | ⟨a, -, rfl⟩ | ⟨b, -, rfl⟩ | ⟨-, -, rfl⟩ |
    ⟨-, -, -, rfl⟩ | ⟨rfl, -, hq, rfl⟩ | ⟨rfl, rfl⟩⟩
  · exact absurd rfl hne
  · exact absurd (exec_keeps hx).2 hne
  · exact absurd (State.memWrite_keeps _ a v).2.1 hne
  · exact absurd rfl hne
  · exact absurd (State.deliver_devReady ..) hne
  · exact absurd (State.txStep_devReady _) hne
  · exact absurd (State.firstRead_devReady _) hne
  · rcases State.secondRead_devReady { s with events := rest } with hkept | ⟨hp, hr⟩
    · exact absurd hkept hne
    · exact ⟨rest, .inr ⟨hev, hq, hp, hr⟩⟩
  · exact ⟨rest, .inl ⟨hev, rfl⟩⟩

/-! ### TX_FRAME and TXLEN (10 R38) -/

/-- TX_FRAME and TXLEN are the same in both states. -/
structure SameFrame (s t : State) : Prop where
  cells : ∀ i, i < 259 → t.cell txFrame i = s.cell txFrame i
  txLen : t.txLen = s.txLen

/-- A frame was built between the two states: it stands in TX_FRAME[0 .. TXLEN) of `t`, and the cells past it are those of `s`. -/
structure NewFrame (s t : State) : Prop where
  txLen_ge : 7 ≤ t.txLen.toNat
  txLen_le : t.txLen.toNat ≤ 259
  built : FrameBuilt t.lastFrame
  past : ∀ i, t.txLen.toNat ≤ i → i < 259 → t.cell txFrame i = s.cell txFrame i

theorem SameFrame.of_mem {s t : State} (hm : t.mem = s.mem) (hl : t.txLen = s.txLen) : SameFrame s t :=
  ⟨fun i _ => by rw [State.cell, State.cell, hm], hl⟩

/-- Only what is read inside TX_FRAME counts. -/
theorem SameFrame.of_get {s t : State} (hm : ∀ a, txFrame.holds a = true → t.mem.get a = s.mem.get a) (hl : t.txLen = s.txLen) :
    SameFrame s t :=
  ⟨fun i hi => hm _ (by rw [txFrame_holds_iff]; simp only [txFrame]; omega), hl⟩

theorem SameFrame.trans {s t u : State} (h : SameFrame s t) (h' : SameFrame t u) : SameFrame s u :=
  ⟨fun i hi => (h'.cells i hi).trans (h.cells i hi), h'.txLen.trans h.txLen⟩

theorem SameFrame.newFrame {s t u : State} (h : SameFrame s t) (h' : NewFrame t u) : NewFrame s u :=
  { h' with past := fun i hi hlt => (h'.past i hi hlt).trans (h.cells i hlt) }

theorem State.memWrite_sameFrame {s : State} (hm : s.mem.wf = true) (a : Addr) (v : Byte) : SameFrame s (s.memWrite a v) := by
  refine .of_get (fun x hx => ?_) (s.memWrite_keeps a v).2.2
  rw [txFrame_holds_iff] at hx
  rcases s.memWrite_cases a v with h | h | ⟨-, h | h | h | h | h | ⟨n, h⟩ | ⟨ha, h⟩⟩ <;> rw [h]
  case inr.inr.inr.inr.inr.inr.inr.inr =>
    rw [reqPl_holds_iff, rxBuf_holds_iff] at ha
    rw [Memory.get_set hm, if_neg (by omega)]
  all_goals rfl

theorem State.receive_sameFrame {s : State} (h : s.Inv) (max : Nat) : SameFrame s (s.receive max) := by
  refine .of_get (fun x hx => (s.rxReadRest max).captureAppend_get_outside _ h.mem_wf h.rxCount_le ?_) (s.receive_txLen max)
  rw [← Bool.not_eq_true, rxBuf_holds_iff]
  rw [txFrame_holds_iff] at hx
  omega

theorem State.decodeCommit_sameFrame {s : State} (hm : s.mem.wf = true) (r : DecodeResult) : SameFrame s (s.decodeCommit r) := by
  refine .of_get (fun x hx => Memory.get_writeBlock_outside hm (.inl ?_)) rfl
  rw [txFrame_holds_iff] at hx
  simp only [resPl]
  omega

theorem State.buildFrame_newFrame {s : State} (hm : s.mem.wf = true) (op0 op1 : Byte) {pl : List Byte} (hp : pl.length ≤ 252) :
    NewFrame s (s.buildFrame op0 op1 pl) := by
  have hlen : (s.buildFrame op0 op1 pl).txLen.toNat = 7 + pl.length := by
    simp only [State.buildFrame_txLen, BitVec.toNat_ofNat]
    omega
  refine ⟨by omega, by omega, ?_, fun i hi _ => ?_⟩
  · rw [s.buildFrame_lastFrame op0 op1 pl hm hp]
    exact requestFrame_built op0 op1 hp
  · rw [State.cell_buildFrame hm, if_neg (by omega)]

theorem State.startExchange_newFrame {s : State} (hm : s.mem.wf = true) (lat : Latch) {pl : List Byte} (hp : pl.length ≤ 252) :
    NewFrame s (s.startExchange lat pl) :=
  { State.buildFrame_newFrame hm lat.op0 lat.op1 hp with }

/-- An accepted operation keeps TX_FRAME and TXLEN, or builds a frame and completes with OK or sends it. -/
theorem OperationLeaves.frame {u t : State} (h : OperationLeaves u t) (hm : u.mem.wf = true) :
    SameFrame u t ∨ (NewFrame u t ∧ (t.resCode = .ok ∨ t.seq = .tx)) := by
  cases h with
  | completion code => exact .inl (.of_mem rfl rfl)
  | encoded op0 op1 hp => exact .inr ⟨{ State.buildFrame_newFrame hm op0 op1 hp with }, .inl rfl⟩
  | decoded => exact .inl { State.decodeCommit_sameFrame hm _ with }
  | exchange phase lat hp => exact .inr ⟨{ State.startExchange_newFrame (s := u) hm lat hp with }, .inr rfl⟩

theorem State.firstRead_sameFrame {s : State} (h : s.Inv) : SameFrame s s.firstRead := by
  have hr := State.receive_sameFrame h s.params.read1Max
  have hc := State.decodeCommit_sameFrame (h.receive_idleInv s.params.read1Max).mem_wf (decodeFail .timeout)
  rcases s.firstRead_leaves with he | he <;> rw [he]
  · exact hr.trans { hc with }
  · exact { hr with }

/-- The end of an exchange builds a frame only when OPEN's GetInfo exchange ended OK (42 R199, R212). -/
theorem State.exchangeEnd_frame {s : State} (hm : s.mem.wf = true) (r : DecodeResult) :
    SameFrame s (s.exchangeEnd r) ∨ (NewFrame s (s.exchangeEnd r) ∧ s.iphase = .getInfo ∧ (s.exchangeEnd r).seq = .tx) := by
  have hc := State.decodeCommit_sameFrame hm r
  rcases s.exchangeEnd_cases r with ⟨hp, -, h⟩ | ⟨-, -, h⟩ | ⟨-, h⟩ <;> rw [h]
  · have hb := State.startExchange_newFrame (s := s.decodeCommit r) (Memory.writeBlock_wf _ _ hm) setLedLatch (pl := [0x02]) (by simp)
    exact .inr ⟨hc.newFrame { hb with }, hp, rfl⟩
  · exact .inl { hc with }
  · exact .inl { hc with }

theorem State.secondRead_frame {s : State} (h : s.Inv) :
    SameFrame s s.secondRead ∨ (NewFrame s s.secondRead ∧ s.iphase = .getInfo ∧ s.secondRead.seq = .tx) := by
  have hr := State.receive_sameFrame h Config.read2Max
  rcases State.exchangeEnd_frame (h.receive_idleInv Config.read2Max).mem_wf (decodeResponse _ _) with hf | ⟨hf, hp, hs⟩
  · exact .inl (hr.trans hf)
  · exact .inr ⟨hr.newFrame hf, by simpa using hp, hs⟩

/-- The word of SRST has bit 7 set (30 R113). -/
theorem getLsbD_of_decodeCtrl_srst {v : Byte} {g : BitVec 7} (h : decodeCtrl v = .srst g) : v.getLsbD 7 = true := by
  have hv : v &&& 0x80 = 0x80 := by
    by_contra hv
    unfold decodeCtrl at h
    rw [if_neg hv] at h
    repeat' split at h
    all_goals cases h
  have h7 := congrArg (BitVec.getLsbD · 7) hv
  simpa using h7

theorem State.softReset_cell_txFrame (s : State) {i : Nat} (hi : i < 259) : s.softReset.cell txFrame i = 0x00 := by
  rw [State.cell, State.softReset_mem, Memory.get_keepOnly, if_neg]
  · rfl
  · rw [reqPl_holds_iff]
    simp only [txFrame]
    omega

/-- Settles O55: each event keeps the frame, builds one, or resets the block. -/
theorem txFrameChangesOnlyWithABuiltFrame : Obligations.TxFrameChangesOnlyWithABuiltFrame := by
  intro s t hinv h
  have same : SameFrame s t → ((∀ i, i < 259 → t.cell txFrame i = s.cell txFrame i) ∧ t.txLen = s.txLen) := fun hf => ⟨hf.cells, hf.txLen⟩
  rcases step_cases h with ⟨-, rfl⟩ | ⟨e, rest, hev, hcase⟩
  · exact .inl (same (.of_mem rfl rfl))
  have hi := hinv.withEvents rest
  rcases hcase with ⟨v, rfl, hx⟩ | ⟨a, v, -, -, rfl⟩ | ⟨a, -, rfl⟩ | ⟨b, -, rfl⟩ | ⟨-, -, rfl⟩ | ⟨-, -, -, rfl⟩ | ⟨rfl, -, hq, rfl⟩ |
    ⟨rfl, rfl⟩
  · rcases exec_leaves hx with rfl | ⟨rfl, g, hg⟩ | rfl | ⟨hs, ho⟩
    · exact .inl (same (.of_mem rfl rfl))
    · exact .inr (.inr ⟨fun i hlt => State.softReset_cell_txFrame _ hlt, rfl, rest, .inr ⟨v, getLsbD_of_decodeCtrl_srst hg, hev⟩⟩)
    · exact .inl (same (.of_mem rfl rfl))
    · rcases ho.frame hi.mem_wf with hf | ⟨hf, hr⟩
      · exact .inl (same { hf with })
      · exact .inr (.inl ⟨hf.txLen_ge, hf.txLen_le, hf.built, hf.past, rest, .inl ⟨v, hev, hs, hr⟩⟩)
  · exact .inl (same { State.memWrite_sameFrame hi.mem_wf a v with })
  · exact .inl (same (.of_mem rfl rfl))
  · exact .inl (same (.of_mem (by simp) (by simp)))
  · exact .inl (same (.of_mem (by simp) (by simp)))
  · exact .inl (same { State.firstRead_sameFrame hi with })
  · rcases State.secondRead_frame hi with hf | ⟨hf, hp, hr⟩
    · exact .inl (same { hf with })
    · exact .inr (.inl ⟨hf.txLen_ge, hf.txLen_le, hf.built, hf.past, rest, .inr ⟨hev, hq, hp, hr⟩⟩)
  · exact .inr (.inr ⟨fun _ _ => rfl, rfl, rest, .inl hev⟩)

end Sys2Proof.Machine
end

section
/-! The register map under HOST accesses (10_state.md R21 to R52): reset values, STATUS, RX_COUNT, the lock of BUSY, and what a write to a
register or buffer cell leaves unchanged. -/

namespace Sys2Proof.Machine

/-! ### Reset values (10 R52) -/

theorem Config.params_wellFormed : Config.params.wellFormed = true := by
  simp [Params.wellFormed, Config.params, Config.read1Max, Config.rxqDepth]

theorem State.resetWith_memRead (p : Params) (a : Addr) :
    (State.resetWith p).memRead a = if a = 0x002 then 0x01 else if a = 0x007 then 0xFF else 0x00 := by
  by_cases hlow : a.toNat < 0x012
  · rcases low_addr_cases a hlow with
      rfl | rfl | rfl | rfl | rfl | rfl | rfl | rfl | rfl | rfl | rfl | rfl | rfl | rfl | rfl | rfl | rfl | rfl
    case inr.inl => simp [State.statusByte, State.busy]
    all_goals simp [ResCode.toByte, countLow, countHigh, rxqLevel, State.stateByte, SeqState.toBits, InitPhase.toBits]
  · have h2 : a ≠ 0x002 := by rintro rfl; exact hlow (by decide)
    have h7 : a ≠ 0x007 := by rintro rfl; exact hlow (by decide)
    rw [State.memRead_high _ a (by omega), if_neg h2, if_neg h7]
    exact ite_self _

/-- Settles O1: the map reads each register's reset value, and an empty memory reads 00 in every buffer. -/
theorem resetGivesEveryPieceItsValue : Obligations.ResetGivesEveryPieceItsValue :=
  ⟨fun p => ⟨State.resetWith_memRead p, rfl, rfl, rfl, rfl, rfl, rfl, rfl⟩, Config.params, rfl⟩

/-- Settles O2: Config's parameters are legal, and the reset state of legal parameters meets the invariant. -/
theorem resetMeetsTheInvariant : Obligations.ResetMeetsTheInvariant :=
  State.resetWith_inv Config.params_wellFormed

/-! ### STATUS and irq (10 R24, R32, R48) -/

theorem getLsbD_append_ofBool {n : Nat} (x : BitVec n) (b : Bool) (i : Nat) :
    (x ++ BitVec.ofBool b).getLsbD i = if i = 0 then b else x.getLsbD (i - 1) := by
  rw [BitVec.getLsbD_append]
  by_cases h : i = 0
  · simp [h]
  · rw [if_neg (by omega), if_neg h]

/-- Settles O45: each bit is read off the concatenation that STATUS is, and irq off its bit 1 and CFG's bit 2. -/
theorem statusReadsItsFlagsAndIrqFollowsDone : Obligations.StatusReadsItsFlagsAndIrqFollowsDone := by
  intro s
  have hs : s.memRead 0x001 = s.statusByte := s.memRead_status
  rw [hs]
  simp only [State.statusByte, getLsbD_append_ofBool]
  simp [State.busy, State.irq, State.irqEn]

theorem and_not_eq_ite (a b : Bool) : (a && !b) = if b then false else a := by
  cases b <;> simp

/-- Settles O44: the write is STATUS's own, at every BUSY. -/
theorem statusWriteClearsOnlyTheNamedFlags : Obligations.StatusWriteClearsOnlyTheNamedFlags := by
  intro s v rest hev
  refine ⟨_, step_hostWrite hev (by decide), ?_, fun hv => ?_⟩
  · simp [State.clearStatus, and_not_eq_ite]
  · simp [State.irq, hv]

/-! ### RX_COUNT (10 R36, R37) -/

theorem toNat_countLow (n : Count) : (countLow n).toNat = n.toNat % 256 := by
  simp [countLow]

theorem toNat_countHigh (n : Count) : (countHigh n).toNat = n.toNat / 256 := by
  have := n.isLt
  simp [countHigh]
  omega

theorem toNat_withCountLow (n : Count) (v : Byte) : (withCountLow n v).toNat = n.toNat / 256 * 256 + v.toNat := by
  rw [withCountLow, BitVec.toNat_append, ← Nat.shiftLeft_add_eq_or_of_lt v.isLt]
  simp [Nat.shiftLeft_eq]
  omega

theorem toNat_withCountHigh (n : Count) (v : Byte) : (withCountHigh n v).toNat = v.toNat % 2 * 256 + n.toNat % 256 := by
  rw [withCountHigh, BitVec.toNat_append, ← Nat.shiftLeft_add_eq_or_of_lt (BitVec.isLt _)]
  simp [Nat.shiftLeft_eq]

theorem toNat_clampCount (n : Count) : (clampCount n).toNat = min 260 n.toNat := by
  by_cases h : n.toNat > 260
  · simp [clampCount, Config.rxBufCap, h]
    omega
  · simp only [clampCount, Config.rxBufCap, h, if_false]
    omega

/-! ### The lock of BUSY (10 R51) -/

/-- The registers and buffers that BUSY = 1 locks, one by one. -/
theorem lockedAddr_cases {a : Addr} (h : lockedAddr a = true) :
    a = 0x002 ∨ a = 0x003 ∨ a = 0x004 ∨ a = 0x005 ∨ a = 0x006 ∨ a = 0x00A ∨ a = 0x00B ∨
      reqPl.holds a.toNat = true ∨ rxBuf.holds a.toNat = true := by
  rw [reqPl_holds_iff, rxBuf_holds_iff]
  simp only [lockedAddr, Bool.or_eq_true, Bool.and_eq_true, decide_eq_true_eq] at h
  bv_omega

theorem ne_ctrlAddr_of_lockedAddr {a : Addr} (h : lockedAddr a = true) : a ≠ ctrlAddr := by
  rintro rfl
  exact absurd h (by decide)

/-- A write to a cell of REQ_PL or RX_BUF. -/
theorem State.memWrite_cell (s : State) {a : Addr} (v : Byte) (h : reqPl.holds a.toNat = true ∨ rxBuf.holds a.toNat = true) :
    s.memWrite a v = s.lockedWrite fun s => { s with mem := s.mem.set a.toNat v } := by
  rw [State.memWrite_high _ _ _ (by rw [reqPl_holds_iff, rxBuf_holds_iff] at h; omega), if_pos (by simpa using h)]

/-- The write of a locked address is a locked write. -/
theorem State.memWrite_locked {a : Addr} (v : Byte) (ha : lockedAddr a = true) :
    ∃ write : State → State, ∀ s : State, s.memWrite a v = s.lockedWrite write := by
  rcases lockedAddr_cases ha with rfl | rfl | rfl | rfl | rfl | rfl | rfl | hc
  · exact ⟨_, fun s => s.memWrite_cfg v⟩
  · exact ⟨_, fun s => s.memWrite_checkVal v⟩
  · exact ⟨_, fun s => s.memWrite_opc0 v⟩
  · exact ⟨_, fun s => s.memWrite_opc1 v⟩
  · exact ⟨_, fun s => s.memWrite_plen v⟩
  · exact ⟨_, fun s => s.memWrite_rxCountL v⟩
  · exact ⟨_, fun s => s.memWrite_rxCountH v⟩
  · exact ⟨_, fun s => s.memWrite_cell v hc⟩

/-- A HOST write that BUSY = 1 locks out only takes its event off. -/
theorem step_lockedWrite_of_busy {s : State} {a : Addr} {v : Byte} {rest : List Event} (hev : s.events = .hostWrite a v :: rest)
    (hs : s.seq ≠ .idle) (ha : lockedAddr a = true) : step s = .next { s with events := rest } := by
  obtain ⟨write, hw⟩ := State.memWrite_locked v ha
  rw [step_hostWrite hev (ne_ctrlAddr_of_lockedAddr ha), hw]
  exact congrArg Host.Outcome.next (State.lockedWrite_of_busy hs)

/-- RX_BUF reads back cell by cell (20 R76). -/
theorem State.memRead_rxBuf (s : State) {i : Nat} (hi : i < 260) : s.memRead (BitVec.ofNat 12 (0x400 + i)) = s.cell rxBuf i := by
  have ha : (BitVec.ofNat 12 (0x400 + i)).toNat = 0x400 + i := by
    rw [BitVec.toNat_ofNat]
    omega
  rw [State.memRead_buffer _ _ (by rw [isBufferAddr_iff, ha]; omega), ha]
  rfl

/-- Settles O41: the locked write answers the same state, and a HOST read changes nothing that is read. -/
theorem busyLocksTheCommandRegisters : Obligations.BusyLocksTheCommandRegisters := by
  intro s a rest hs
  refine ⟨fun v hev ha => step_lockedWrite_of_busy hev hs ha, fun hev => ⟨_, step_agent hev rfl, fun b => rfl⟩,
    fun i hi => s.memRead_rxBuf hi, ?_⟩
  have hl : (s.memRead 0x00A).toNat = s.rxCount.toNat % 256 := toNat_countLow _
  have hh : (s.memRead 0x00B).toNat = s.rxCount.toNat / 256 := toNat_countHigh _
  omega

/-- Settles O43: each write replaces its bits of RX_COUNT and clamps, and BUSY = 1 locks both. -/
theorem rxCountWritesAreClamped : Obligations.RxCountWritesAreClamped := by
  intro s v rest
  refine ⟨fun hev hs => ⟨clampCount (withCountLow s.rxCount v), ?_, ?_⟩, fun hev hs => ⟨clampCount (withCountHigh s.rxCount v), ?_, ?_⟩,
    fun hev hs => ?_, toNat_countLow _, toNat_countHigh _⟩
  · rw [step_hostWrite hev (by decide)]
    exact congrArg Host.Outcome.next ((State.memWrite_rxCountL _ v).trans (State.lockedWrite_of_idle hs))
  · rw [toNat_clampCount, toNat_withCountLow]
  · rw [step_hostWrite hev (by decide)]
    exact congrArg Host.Outcome.next ((State.memWrite_rxCountH _ v).trans (State.lockedWrite_of_idle hs))
  · rw [toNat_clampCount, toNat_withCountHigh]
  · rcases hev with hev | hev
    · exact step_lockedWrite_of_busy hev hs (by decide)
    · exact step_lockedWrite_of_busy hev hs (by decide)

/-! ### Writes while BUSY = 0 (10 R33 to R36) -/

/-- What a write to a locked address other than RX_COUNT's does while BUSY = 0. -/
theorem State.memWrite_idle_cases {s : State} {a : Addr} (v : Byte) (hs : s.seq = .idle) (ha : lockedAddr a = true) (hl : a ≠ 0x00A)
    (hh : a ≠ 0x00B) :
    (a = 0x002 ∧ s.memWrite a v = { s with cfg := v.setWidth 4 }) ∨ (a = 0x003 ∧ s.memWrite a v = { s with checkVal := v }) ∨
      (a = 0x004 ∧ s.memWrite a v = { s with opc0 := v }) ∨ (a = 0x005 ∧ s.memWrite a v = { s with opc1 := v }) ∨
      (a = 0x006 ∧ s.memWrite a v = { s with plen := v }) ∨
      ((reqPl.holds a.toNat = true ∨ rxBuf.holds a.toNat = true) ∧ s.memWrite a v = { s with mem := s.mem.set a.toNat v }) := by
  rcases lockedAddr_cases ha with rfl | rfl | rfl | rfl | rfl | rfl | rfl | hc
  · exact .inl ⟨rfl, (s.memWrite_cfg v).trans (State.lockedWrite_of_idle hs)⟩
  · exact .inr (.inl ⟨rfl, (s.memWrite_checkVal v).trans (State.lockedWrite_of_idle hs)⟩)
  · exact .inr (.inr (.inl ⟨rfl, (s.memWrite_opc0 v).trans (State.lockedWrite_of_idle hs)⟩))
  · exact .inr (.inr (.inr (.inl ⟨rfl, (s.memWrite_opc1 v).trans (State.lockedWrite_of_idle hs)⟩)))
  · exact .inr (.inr (.inr (.inr (.inl ⟨rfl, (s.memWrite_plen v).trans (State.lockedWrite_of_idle hs)⟩))))
  · exact absurd rfl hl
  · exact absurd rfl hh
  · exact .inr (.inr (.inr (.inr (.inr ⟨hc, (s.memWrite_cell v hc).trans (State.lockedWrite_of_idle hs)⟩))))

/-- CFG keeps the low four bits of what is written (10 R33). -/
theorem setWidth_setWidth_four (v : Byte) : (v.setWidth 4).setWidth 8 = v &&& 0x0F := by
  revert v
  decide

theorem State.memRead_memWrite_same {s : State} (hm : s.mem.wf = true) {a : Addr} (v : Byte) (hs : s.seq = .idle)
    (ha : lockedAddr a = true) (hl : a ≠ 0x00A) (hh : a ≠ 0x00B) :
    (s.memWrite a v).memRead a = if a = 0x002 then v &&& 0x0F else v := by
  rcases State.memWrite_idle_cases v hs ha hl hh with ⟨rfl, h⟩ | ⟨rfl, h⟩ | ⟨rfl, h⟩ | ⟨rfl, h⟩ | ⟨rfl, h⟩ | ⟨hc, h⟩ <;> rw [h]
  · exact setWidth_setWidth_four v
  · rfl
  · rfl
  · rfl
  · rfl
  · rw [reqPl_holds_iff, rxBuf_holds_iff] at hc
    rw [State.memRead_buffer _ a (by rw [isBufferAddr_iff]; omega), Memory.get_set hm, if_pos rfl, if_neg]
    rintro rfl
    exact absurd hc (by decide)

/-- A change of the command registers and of buffer cells shows at their own addresses only. -/
theorem State.memRead_withCommand (s : State) (cfg : BitVec 4) (checkVal opc0 opc1 plen : Byte) (mem : Memory) {b : Addr}
    (h2 : b = 0x002 → cfg = s.cfg) (h3 : b = 0x003 → checkVal = s.checkVal) (h4 : b = 0x004 → opc0 = s.opc0)
    (h5 : b = 0x005 → opc1 = s.opc1) (h6 : b = 0x006 → plen = s.plen) (hm : mem.get b.toNat = s.mem.get b.toNat) :
    ({ s with cfg := cfg, checkVal := checkVal, opc0 := opc0, opc1 := opc1, plen := plen, mem := mem } : State).memRead b =
      s.memRead b :=
  State.memRead_congr (fun _ => rfl) h2 h3 h4 h5 h6 (fun _ => rfl) (fun _ => rfl) (fun _ => rfl) (fun _ => rfl) (fun _ => rfl)
    (fun _ => rfl) (fun _ => rfl) fun _ => hm

theorem State.memRead_memWrite_other {s : State} (hm : s.mem.wf = true) {a b : Addr} (v : Byte) (hs : s.seq = .idle)
    (ha : lockedAddr a = true) (hl : a ≠ 0x00A) (hh : a ≠ 0x00B) (hb : b ≠ a) : (s.memWrite a v).memRead b = s.memRead b := by
  have hcell : (s.mem.set a.toNat v).get b.toNat = s.mem.get b.toNat := by
    rw [Memory.get_set hm, if_neg fun he => hb (BitVec.eq_of_toNat_eq he)]
  have kept {α β : Type} {x : α} {y z : β} : y = z → x = x := fun _ => rfl
  rcases State.memWrite_idle_cases v hs ha hl hh with ⟨rfl, h⟩ | ⟨rfl, h⟩ | ⟨rfl, h⟩ | ⟨rfl, h⟩ | ⟨rfl, h⟩ | ⟨-, h⟩ <;> rw [h]
  · exact s.memRead_withCommand (v.setWidth 4) s.checkVal s.opc0 s.opc1 s.plen s.mem (absurd · hb) kept kept kept kept rfl
  · exact s.memRead_withCommand s.cfg v s.opc0 s.opc1 s.plen s.mem kept (absurd · hb) kept kept kept rfl
  · exact s.memRead_withCommand s.cfg s.checkVal v s.opc1 s.plen s.mem kept kept (absurd · hb) kept kept rfl
  · exact s.memRead_withCommand s.cfg s.checkVal s.opc0 v s.plen s.mem kept kept kept (absurd · hb) kept rfl
  · exact s.memRead_withCommand s.cfg s.checkVal s.opc0 s.opc1 v s.mem kept kept kept kept (absurd · hb) rfl
  · exact s.memRead_withCommand s.cfg s.checkVal s.opc0 s.opc1 s.plen _ kept kept kept kept kept hcell

theorem State.memWrite_sameInside (s : State) (a : Addr) (v : Byte) : SameInside s (s.memWrite a v) := by
  rcases s.memWrite_cases a v with h | h | ⟨-, h | h | h | h | h | ⟨n, h⟩ | ⟨-, h⟩⟩ <;> rw [h] <;>
    exact ⟨rfl, rfl, rfl, rfl, rfl, rfl, rfl, rfl, rfl, rfl⟩

/-- Settles O42: the write is one record update, so it shows at its own address and nowhere else. -/
theorem idleWriteReadsBackAndTouchesNothingElse : Obligations.IdleWriteReadsBackAndTouchesNothingElse := by
  intro s a v rest hinv hev hs ha hl hh
  have hm : ({ s with events := rest } : State).mem.wf = true := hinv.mem_wf
  refine ⟨_, step_hostWrite hev (ne_ctrlAddr_of_lockedAddr ha), State.memRead_memWrite_same hm v hs ha hl hh, fun b hb => ?_,
    State.memWrite_sameInside _ a v⟩
  exact State.memRead_memWrite_other hm v hs ha hl hh hb

end Sys2Proof.Machine
end

section
/-! The lengths Decode answers with (40_codec.md R142, R149, R150). -/

namespace Sys2Proof.Machine

/-- A buffer of 260 bytes or more fails the length parser, whatever it holds (40 R142). -/
theorem decodeResponse_of_length_ge (ctx : DecodeCtx) {raw : List Byte} (h : 260 ≤ raw.length) :
    decodeResponse ctx raw = decodeFail .badLength := by
  have hl : lengthOk raw = false := by
    rw [← Bool.not_eq_true]
    intro hok
    have := length_lt_of_lengthOk hok
    omega
  simp [decodeResponse, hl]

/-- A decode that ends OK or DEVICE_STATUS reached status extraction (40 R141). -/
theorem reachesStatus_of_code {ctx : DecodeCtx} {raw : List Byte}
    (h : (decodeResponse ctx raw).code = .ok ∨ (decodeResponse ctx raw).code = .deviceStatus) : ReachesStatus ctx raw := by
  rcases decodeResponse_cases ctx raw with ⟨c, hc, he⟩ | ⟨hr, -⟩
  · rw [he, decodeFail_code] at h
    rcases hc with rfl | rfl | rfl <;> simp at h
  · exact hr

theorem genericPayload_length (raw : List Byte) : (genericPayload raw).length = raw.length - 8 := by
  rw [genericPayload, slice_length]
  omega

/-- Settles O47: 260 bytes fail the length parser, and every other length comes from the payload extractor of the opcode. -/
theorem lengthsOfBuffersAndExtractedPayloads : Obligations.LengthsOfBuffersAndExtractedPayloads := by
  refine fun ctx raw => ⟨fun hlen => ?_, fun hcode => ?_⟩
  · have hraw := decodeResponse_of_length_ge ctx hlen
    have htake := decodeResponse_of_length_ge ctx (raw := raw.take 260) (by rw [List.length_take]; omega)
    exact ⟨hraw, htake.trans hraw.symm⟩
  · have hr := reachesStatus_of_code hcode
    have hpl : (decodeResponse ctx raw).pl = payloadOf ctx.op0 ctx.op1 raw := by rw [decodeResponse_reached hr]; rfl
    refine ⟨fun h0 h1 => ?_, fun hne => ?_, decodeResponse_pl_length_le ctx raw⟩
    · rw [hpl, payloadOf, if_pos ⟨h0, h1⟩, tokenPayload_length hr.status]
    · rw [hpl, payloadOf, if_neg hne, genericPayload_length]

end Sys2Proof.Machine
end

section
/-! The memory chapter's laws (20_memory.md): the receive stream (R82 to R85), the bytes handed to LINK (R80), the register map under HOST
reads and ignored writes (R71 to R73), and who changes the command registers (R79). -/

namespace Sys2Proof.Machine

/-! ### The receive stream (R82 to R85) -/

/-- CaptureAppend writes memory and RX_COUNT only: with both put back to anything, the state is the old one with both put there. -/
theorem State.captureAppend_withCapture (s : State) (bytes : List Byte) (m : Memory) (n : Count) :
    { s.captureAppend bytes with mem := m, rxCount := n } = { s with mem := m, rxCount := n } := by
  induction bytes generalizing s with
  | nil => rfl
  | cons b rest ih =>
    rw [State.captureAppend, ih]
    unfold State.captureByte
    split <;> rfl

/-- Settles O31: RX_COUNT and the cells written are the capture's own laws, and a cell of RX_BUF past 260 does not exist. -/
theorem captureAppendSaturatesAt260 : Obligations.CaptureAppendSaturatesAt260 := by
  intro s bytes hm hc
  refine ⟨s.captureAppend_rxCount bytes hc, fun i hi => ?_, fun a ha => s.captureAppend_get_outside bytes hm hc ha,
    s.captureAppend_withCapture bytes s.mem s.rxCount⟩
  rw [State.cell, s.captureAppend_get bytes hm hc]
  by_cases hin : s.rxCount.toNat ≤ i ∧ i < s.rxCount.toNat + bytes.length
  · rw [if_pos (by omega), if_pos hin, Nat.add_sub_add_left]
  · rw [if_neg (by omega), if_neg hin]
    rfl

theorem State.deliver_of_room {s : State} (b : Byte) (h : s.rxq.length < s.params.rxqDepth) :
    s.deliver b = { s with rxq := s.rxq ++ [b] } :=
  if_pos h

theorem State.deliver_of_full {s : State} (b : Byte) (h : s.params.rxqDepth ≤ s.rxq.length) : s.deliver b = { s with rxOvf := true } :=
  if_neg (Nat.not_lt.2 h)

/-- Settles O37: a delivery is DEV's step in every state, and RXQ has room or is full. -/
theorem deliveredByteJoinsTheQueue : Obligations.DeliveredByteJoinsTheQueue := by
  intro s b rest hev
  have hstep : step s = .next (({ s with events := rest } : State).deliver b) := step_agent hev rfl
  exact ⟨fun h => hstep.trans (congrArg Host.Outcome.next (State.deliver_of_room b h)),
    fun h => hstep.trans (congrArg Host.Outcome.next (State.deliver_of_full b h))⟩

/-- A delivery only appends to RXQ. -/
theorem State.deliver_rxq (s : State) (b : Byte) : ∃ more, (s.deliver b).rxq = s.rxq ++ more := by
  rcases Nat.lt_or_ge s.rxq.length s.params.rxqDepth with h | h
  · exact ⟨[b], by rw [State.deliver_of_room b h]⟩
  · exact ⟨[], by rw [State.deliver_of_full b h, List.append_nil]⟩

/-- The start of an exchange empties RXQ with CFG.FLUSH = 1, and keeps it otherwise (42 R193). -/
theorem State.startExchange_rxq_cases (s : State) (lat : Latch) (pl : List Byte) :
    (s.flush = false ∧ (s.startExchange lat pl).rxq = s.rxq) ∨ (s.flush = true ∧ (s.startExchange lat pl).rxq = []) := by
  rw [State.startExchange_rxq]
  cases hf : s.flush
  · exact .inl ⟨rfl, rfl⟩
  · exact .inr ⟨rfl, rfl⟩

/-- The step from `s` to `t` starts an exchange that flushes RXQ (42 R193). -/
structure FlushingStart (s t : State) : Prop where
  seq : t.seq = .tx
  txIdx : t.txIdx = 0
  flush : s.flush = true
  rxq : t.rxq = []

/-- An accepted operation keeps RXQ unless it starts an exchange that flushes it. -/
theorem OperationLeaves.rxq {u t : State} (h : OperationLeaves u t) : t.rxq = u.rxq ∨ FlushingStart u t := by
  cases h with
  | completion code => exact .inl rfl
  | encoded op0 op1 hp => exact .inl rfl
  | decoded => exact .inl rfl
  | exchange phase lat hp =>
    rcases State.startExchange_rxq_cases { u with iphase := phase } lat _ with ⟨-, h⟩ | ⟨hf, h⟩
    · exact .inl h
    · exact .inr ⟨rfl, rfl, hf, h⟩

/-- The end of an exchange keeps RXQ unless it starts OPEN's second exchange with CFG.FLUSH = 1 (42 R199, R212). -/
theorem State.exchangeEnd_rxq (s : State) (r : DecodeResult) :
    (((s.exchangeEnd r).seq = .tx → s.flush = false) ∧ (s.exchangeEnd r).rxq = s.rxq) ∨
      (s.iphase = .getInfo ∧ FlushingStart s (s.exchangeEnd r)) := by
  rcases s.exchangeEnd_cases r with ⟨hp, -, h⟩ | ⟨-, -, h⟩ | ⟨-, h⟩ <;> rw [h]
  · rcases State.startExchange_rxq_cases { s.decodeCommit r with seq := .idle, tmr := false, iphase := .setLed } setLedLatch [0x02] with
      ⟨hf, hq⟩ | ⟨hf, hq⟩
    · exact .inl ⟨fun _ => hf, hq⟩
    · exact .inr ⟨hp, rfl, rfl, hf, hq⟩
  · exact .inl ⟨by simp, rfl⟩
  · exact .inl ⟨by simp, rfl⟩

theorem State.flush_receive (s : State) (max : Nat) : (s.receive max).flush = s.flush := by
  rw [State.flush, State.receive_cfg, State.flush]

/-- The first read takes its bytes from the front of RXQ, whatever comes of it (20 R83, 42 R197). -/
theorem State.firstRead_rxq (s : State) : s.firstRead.rxq = s.rxq.drop s.params.read1Max := by
  rcases s.firstRead_leaves with h | h <;> simp [h]

/-- The second read takes 1000 bytes, and the start of OPEN's second exchange may flush the rest (42 R198, R199). -/
theorem State.secondRead_rxq (s : State) :
    ((s.secondRead.seq = .tx → s.flush = false) ∧ s.secondRead.rxq = s.rxq.drop 1000) ∨
      (s.iphase = .getInfo ∧ FlushingStart s s.secondRead) := by
  have hf := s.flush_receive Config.read2Max
  rcases (s.receive Config.read2Max).exchangeEnd_rxq (decodeResponse _ _) with ⟨hs, hq⟩ | ⟨hp, hs⟩
  · exact .inl ⟨fun h => hf.symm.trans (hs h), hq.trans (s.receive_rxq _)⟩
  · exact .inr ⟨(s.receive_iphase _).symm.trans hp, { hs with flush := hf.symm.trans hs.flush }⟩

/-- Settles O56: of all the events a reset, a flushing start and a read of the TIMER's alone take bytes from RXQ. -/
theorem receiveQueueIsEmptiedOnlyAsTheRulesSay : Obligations.ReceiveQueueIsEmptiedOnlyAsTheRulesSay := by
  intro s t _ h
  have kept (hq : t.rxq = s.rxq) : ∃ more, t.rxq = s.rxq ++ more := ⟨[], hq.trans (List.append_nil _).symm⟩
  rcases step_cases h with ⟨-, rfl⟩ | ⟨e, rest, hev, ⟨v, rfl, hx⟩ | ⟨a, v, -, -, rfl⟩ | ⟨a, -, rfl⟩ | ⟨b, -, rfl⟩ | ⟨-, -, rfl⟩ |
    ⟨rfl, -, hq, rfl⟩ | ⟨rfl, -, hq, rfl⟩ | ⟨rfl, rfl⟩⟩
  · exact .inl (kept rfl)
  · rcases exec_leaves hx with rfl | ⟨rfl, g, hg⟩ | rfl | ⟨hs, ho⟩
    · exact .inl (kept rfl)
    · exact .inr (.inr (.inl ⟨v, rest, hev, getLsbD_of_decodeCtrl_srst hg, rfl⟩))
    · exact .inl (kept rfl)
    · rcases ho.rxq with hk | hf
      · exact .inl (kept hk)
      · exact .inr (.inr (.inr (.inl ⟨hf.seq, hf.txIdx, hf.flush, hf.rxq, rest, .inl ⟨v, hev, hs⟩⟩)))
  · exact .inl (kept (State.memWrite_sameInside _ a v).rxq)
  · exact .inl (kept rfl)
  · exact .inl (State.deliver_rxq _ b)
  · exact .inl (kept (State.txStep_rxq _))
  · exact .inr (.inr (.inr (.inr (.inl ⟨rest, hev, hq, State.firstRead_rxq _⟩))))
  · rcases State.secondRead_rxq { s with events := rest } with ⟨hs, hk⟩ | ⟨hp, hf⟩
    · exact .inr (.inr (.inr (.inr (.inr ⟨rest, hev, hq, hs, hk⟩))))
    · exact .inr (.inr (.inr (.inl ⟨hf.seq, hf.txIdx, hf.flush, hf.rxq, rest, .inr ⟨hev, hq, hp⟩⟩)))
  · exact .inr (.inl ⟨rest, hev, rfl⟩)

/-! ### The bytes handed to LINK (R80) -/

theorem State.txStep_wire (s : State) : s.txStep.wire = s.wire ++ [s.cell txFrame s.txIdx] := by
  unfold State.txStep
  split <;> rfl

theorem OperationLeaves.wire {u t : State} (h : OperationLeaves u t) : t.wire = u.wire := by
  cases h <;> rfl

/-- No instruction hands a byte to LINK: starting an exchange only builds its frame (42 R193). -/
theorem exec_wire {i : Instr} {s t : State} (h : exec i s = .next t) : t.wire = s.wire := by
  rcases exec_leaves h with rfl | ⟨rfl, -⟩ | rfl | ⟨-, ho⟩
  · rfl
  · rfl
  · rfl
  · exact ho.wire

@[simp] theorem State.exchangeEnd_wire (s : State) (r : DecodeResult) : (s.exchangeEnd r).wire = s.wire := by
  rcases s.exchangeEnd_cases r with ⟨-, -, h⟩ | ⟨-, -, h⟩ | ⟨-, h⟩ <;> rw [h] <;> rfl

@[simp] theorem State.firstRead_wire (s : State) : s.firstRead.wire = s.wire := by
  rcases s.firstRead_leaves with h | h <;> simp [h]

@[simp] theorem State.secondRead_wire (s : State) : s.secondRead.wire = s.wire := by
  simp [State.secondRead]

/-- Settles O54: each event but LINK's keeps the wire, and LINK's step appends the next byte of TX_FRAME. -/
theorem wireGrowsOnlyByTransmitSteps : Obligations.WireGrowsOnlyByTransmitSteps := by
  intro s t h
  rcases step_cases h with ⟨-, rfl⟩ | ⟨e, rest, hev, ⟨v, -, hx⟩ | ⟨a, v, -, -, rfl⟩ | ⟨a, -, rfl⟩ | ⟨b, -, rfl⟩ | ⟨rfl, hq, rfl⟩ |
    ⟨-, -, -, rfl⟩ | ⟨-, -, -, rfl⟩ | ⟨-, rfl⟩⟩
  · exact .inl rfl
  · exact .inl (exec_wire hx :)
  · exact .inl (State.memWrite_sameInside _ a v).wire
  · exact .inl rfl
  · exact .inl (State.deliver_wire ..)
  · exact .inr ⟨rest, hev, hq, State.txStep_wire _⟩
  · exact .inl (State.firstRead_wire _)
  · exact .inl (State.secondRead_wire _)
  · exact .inl rfl

/-! ### What a HOST read shows (R71, R76, 10 R21) -/

theorem ResCode.toByte_inj {c d : ResCode} : c.toByte = d.toByte ↔ c = d := by
  cases c <;> cases d <;> decide

theorem SeqState.toBits_inj {q r : SeqState} : q.toBits = r.toBits ↔ q = r := by
  cases q <;> cases r <;> decide

theorem InitPhase.toBits_inj {p q : InitPhase} : p.toBits = q.toBits ↔ p = q := by
  cases p <;> cases q <;> decide

/-- The three fields of STATE (10 R40). -/
theorem State.stateByte_fields (s : State) :
    s.stateByte.extractLsb' 0 2 = s.seq.toBits ∧ s.stateByte.extractLsb' 2 2 = s.iphase.toBits ∧ s.stateByte.extractLsb' 4 4 = 0 := by
  unfold State.stateByte
  cases s.iphase <;> cases s.seq <;> decide

/-- CFG's four bits read at their own places, under four zeros (10 R33). -/
theorem getLsbD_setWidth_cfg (c : BitVec 4) (i : Nat) : (c.setWidth 8).getLsbD i = c.getLsbD i := by
  rw [BitVec.getLsbD_setWidth]
  by_cases hi : i < 8
  · simp [hi]
  · simp [hi, BitVec.getLsbD_of_ge c i (by omega)]

theorem extractLsb'_setWidth_cfg (c : BitVec 4) : (c.setWidth 8).extractLsb' 4 4 = 0 := by
  revert c
  decide

/-- A 9-bit count is its two bytes, low byte first (20 R74). -/
theorem countLow_add_countHigh (n : Count) : (countLow n).toNat + 256 * (countHigh n).toNat = n.toNat := by
  rw [toNat_countLow, toNat_countHigh]
  omega

/-- RXQLVL is its two bytes, low byte first (10 R41, 20 R74). -/
theorem toNat_rxqLevel_bytes (q : List Byte) :
    (BitVec.ofNat 8 (rxqLevel q)).toNat + 256 * (BitVec.ofNat 8 (rxqLevel q / 256)).toNat = min q.length 65535 := by
  simp only [BitVec.toNat_ofNat, rxqLevel]
  omega

/-- A cell of a buffer reads at its base plus its index (20 R76). -/
theorem State.memRead_cell (s : State) {b : Buffer} {i : Nat} (hb : isBufferAddr (b.base + i) = true) :
    s.memRead (BitVec.ofNat 12 (b.base + i)) = s.cell b i := by
  have ha : (BitVec.ofNat 12 (b.base + i)).toNat = b.base + i := by
    rw [isBufferAddr_iff] at hb
    rw [BitVec.toNat_ofNat]
    omega
  rw [State.memRead_buffer _ _ (by rwa [ha]), ha, State.cell]

/-- Settles O38: the step hands the value over, and each part of the map is the law of its register, count or buffer. -/
theorem hostReadReturnsTheValueAndChangesNothing : Obligations.HostReadReturnsTheValueAndChangesNothing := by
  intro s
  have cell (b : Buffer) {n : Nat} (hn : ∀ i, i < n → isBufferAddr (b.base + i) = true) :
      ∀ i, i < n → s.memRead (BitVec.ofNat 12 (b.base + i)) = s.cell b i := fun i hi => s.memRead_cell (hn i hi)
  obtain ⟨hseq, hphase, hzero⟩ := s.stateByte_fields
  have seq (q : SeqState) : (s.memRead 0x00E).extractLsb' 0 2 = q.toBits ↔ s.seq = q := by
    rw [← SeqState.toBits_inj, ← hseq]; rfl
  have phase (p : InitPhase) : (s.memRead 0x00E).extractLsb' 2 2 = p.toBits ↔ s.iphase = p := by
    rw [← InitPhase.toBits_inj, ← hphase]; rfl
  have code (c : ResCode) : s.memRead 0x007 = c.toByte ↔ s.resCode = c := ResCode.toByte_inj
  have cfg (i : Nat) : (s.memRead 0x002).getLsbD i = s.cfg.getLsbD i := getLsbD_setWidth_cfg s.cfg i
  refine ⟨fun a rest hev => step_agent hev rfl, ⟨cfg 0, cfg 1, cfg 2, cfg 3, extractLsb'_setWidth_cfg s.cfg⟩,
    ⟨rfl, rfl, rfl, rfl, rfl, rfl⟩,
    ⟨code .ok, code .timeout, code .badLength, code .badFormat, code .deviceStatus, code .encodingError, code .unknownOpcode,
      code .badChecksum, code .badCommand, code .none⟩,
    ⟨seq .idle, seq .tx, seq .wait1, seq .wait2, phase .none, phase .getInfo, phase .setLed, hzero⟩,
    countLow_add_countHigh s.rxCount, countLow_add_countHigh s.txLen, toNat_rxqLevel_bytes s.rxq,
    cell reqPl fun i hi => ?_, cell txFrame fun i hi => ?_, fun i hi => s.memRead_rxBuf hi, cell resPl fun i hi => ?_⟩
  all_goals
    rw [isBufferAddr_iff]
    simp only [reqPl, txFrame, resPl]
    omega

/-! ### Unmapped addresses, read-only addresses and reserved bits (R72, R73) -/

/-- No unmapped address is a register or a buffer cell. -/
theorem unmappedAddr_range {a : Addr} (h : unmappedAddr a = true) : 0x012 ≤ a.toNat ∧ isBufferAddr a.toNat = false := by
  rw [← Bool.not_eq_true, isBufferAddr_iff]
  simp only [unmappedAddr, Bool.or_eq_true, Bool.and_eq_true, decide_eq_true_eq] at h
  omega

/-- The read-only registers one by one, or a cell of TX_FRAME or RES_PL (10 R21). -/
theorem readOnlyAddr_cases {a : Addr} (h : readOnlyAddr a = true) :
    a = 0x007 ∨ a = 0x008 ∨ a = 0x009 ∨ a = 0x00C ∨ a = 0x00D ∨ a = 0x00E ∨ a = 0x00F ∨ a = 0x010 ∨ a = 0x011 ∨
      txFrame.holds a.toNat = true ∨ resPl.holds a.toNat = true := by
  rw [txFrame_holds_iff, resPl_holds_iff]
  simp only [readOnlyAddr, Bool.or_eq_true, Bool.and_eq_true, decide_eq_true_eq] at h
  bv_omega

/-- Above the registers only REQ_PL and RX_BUF take a write. -/
theorem State.memWrite_high_ignored (s : State) {a : Addr} (v : Byte) (h : 0x012 ≤ a.toNat)
    (hb : ¬(reqPl.holds a.toNat = true ∨ rxBuf.holds a.toNat = true)) : s.memWrite a v = s := by
  rw [s.memWrite_high a v h, if_neg (by rwa [Bool.or_eq_true])]

theorem State.memWrite_readOnly (s : State) {a : Addr} (v : Byte) (h : readOnlyAddr a = true) : s.memWrite a v = s := by
  rcases readOnlyAddr_cases h with rfl | rfl | rfl | rfl | rfl | rfl | rfl | rfl | rfl | hc
  case inr.inr.inr.inr.inr.inr.inr.inr.inr =>
    rw [txFrame_holds_iff, resPl_holds_iff] at hc
    exact s.memWrite_high_ignored v (by omega) (by rw [reqPl_holds_iff, rxBuf_holds_iff]; omega)
  all_goals rfl

theorem State.memWrite_unmapped (s : State) {a : Addr} (v : Byte) (h : unmappedAddr a = true) : s.memWrite a v = s := by
  obtain ⟨hlow, hb⟩ := unmappedAddr_range h
  simp only [isBufferAddr, Bool.or_eq_false_iff] at hb
  exact s.memWrite_high_ignored v hlow (by simp [hb])

/-- The step of a HOST write to an unmapped or read-only address only takes its event off. -/
theorem step_ignoredWrite {s : State} {a : Addr} {v : Byte} {rest : List Event} (hev : s.events = .hostWrite a v :: rest)
    (ha : unmappedAddr a = true ∨ readOnlyAddr a = true) : step s = .next { s with events := rest } := by
  have hctrl : a ≠ ctrlAddr := by
    rintro rfl
    exact absurd ha (by decide)
  rw [step_hostWrite hev hctrl]
  rcases ha with h | h
  · rw [State.memWrite_unmapped _ v h]
  · rw [State.memWrite_readOnly _ v h]

/-- Settles O39: an unmapped address is no buffer cell, so it reads 00, and neither kind of address takes a write. -/
theorem unmappedReadsZeroAndIgnoresWrites : Obligations.UnmappedReadsZeroAndIgnoresWrites := by
  refine fun s a => ⟨fun ha => ?_, fun v rest hev ha => step_ignoredWrite hev ha⟩
  obtain ⟨hlow, hb⟩ := unmappedAddr_range ha
  rw [s.memRead_high a hlow, hb]
  rfl

/-- The bits that the masks of the table rows leave out have no effect (10 R22, 30 R113). -/
theorem exec_decodeCtrl_congr {v w : Byte} (h : v &&& 0x87 = w &&& 0x87) (s : State) : exec (decodeCtrl v) s = exec (decodeCtrl w) s := by
  have h7 : v &&& 0x80 = w &&& 0x80 := by
    have hm (x : Byte) : x &&& 0x80 = x &&& 0x87 &&& 0x80 := by rw [BitVec.and_assoc]; rfl
    rw [hm v, h, ← hm w]
  unfold decodeCtrl
  rw [h7, h]
  split_ifs <;> rfl

/-- Writes of two bytes to an address have one step when their MemWrite is one. -/
theorem step_hostWrite_congr {a : Addr} {v w : Byte} (ha : a ≠ ctrlAddr) (s : State) (rest : List Event)
    (h : ∀ t : State, t.memWrite a v = t.memWrite a w) :
    step { s with events := .hostWrite a v :: rest } = step { s with events := .hostWrite a w :: rest } := by
  rw [step_hostWrite rfl ha, step_hostWrite rfl ha, h]

/-- STATUS[7] is not one of the flags that a write clears (10 R32). -/
theorem State.clearStatus_masked (s : State) (v : Byte) : s.clearStatus v = s.clearStatus (v &&& 0x7F) := by
  simp [State.clearStatus]

theorem setWidth_four_masked (v : Byte) : v.setWidth 4 = (v &&& 0x0F).setWidth 4 := by
  revert v
  decide

theorem State.memWrite_cfg_masked (s : State) (v : Byte) : s.memWrite 0x002#12 v = s.memWrite 0x002#12 (v &&& 0x0F) := by
  rw [State.memWrite_cfg, State.memWrite_cfg, ← setWidth_four_masked v]

theorem withCountHigh_masked (n : Count) (v : Byte) : withCountHigh n v = withCountHigh n (v &&& 0x01) := by
  have hv : v.extractLsb' 0 1 = (v &&& 0x01).extractLsb' 0 1 := by
    revert v
    decide
  rw [withCountHigh, withCountHigh, hv]

theorem State.memWrite_rxCountH_masked (s : State) (v : Byte) : s.memWrite 0x00B#12 v = s.memWrite 0x00B#12 (v &&& 0x01) := by
  simp only [State.memWrite_rxCountH, ← withCountHigh_masked _ v]

/-- Bits 7:1 above a count's high bit read 0 (10 R37, R38). -/
theorem extractLsb'_countHigh (n : Count) : (countHigh n).extractLsb' 1 7 = 0 := by
  unfold countHigh
  generalize n.extractLsb' 8 1 = b
  revert b
  decide

/-- Settles O40: the reserved bits are zeros of the map, and no register's write reads them. -/
theorem reservedBitsReadZeroAndIgnoreWrites : Obligations.ReservedBitsReadZeroAndIgnoreWrites := by
  intro s v rest
  obtain ⟨-, -, -, -, -, -, -, hstatus, -⟩ := statusReadsItsFlagsAndIrqFollowsDone s
  obtain ⟨-, -, hstate⟩ := s.stateByte_fields
  refine ⟨⟨rfl, hstatus, extractLsb'_setWidth_cfg s.cfg, extractLsb'_countHigh s.rxCount, extractLsb'_countHigh s.txLen, hstate, rfl⟩,
    ?_, step_hostWrite_congr (by decide) s rest fun t => t.clearStatus_masked v,
    step_hostWrite_congr (by decide) s rest fun t => t.memWrite_cfg_masked v,
    step_hostWrite_congr (by decide) s rest fun t => t.memWrite_rxCountH_masked v,
    step_ignoredWrite rfl (by decide), step_ignoredWrite rfl (by decide), step_ignoredWrite rfl (by decide)⟩
  rw [step_ctrl rfl, step_ctrl rfl]
  exact exec_decodeCtrl_congr (by rw [BitVec.and_assoc]; rfl) _

/-! ### The command registers (R79) -/

/-- CFG, CHECK_VAL, OPC0, OPC1, PLEN and REQ_PL are the same in both states. -/
structure SameCommand (s t : State) : Prop where
  cfg : t.cfg = s.cfg
  checkVal : t.checkVal = s.checkVal
  opc0 : t.opc0 = s.opc0
  opc1 : t.opc1 = s.opc1
  plen : t.plen = s.plen
  reqPl : ∀ a, reqPl.holds a = true → t.mem.get a = s.mem.get a

theorem SameCommand.refl (s : State) : SameCommand s s :=
  ⟨rfl, rfl, rfl, rfl, rfl, fun _ _ => rfl⟩

theorem SameCommand.trans {s t u : State} (h : SameCommand s t) (h' : SameCommand t u) : SameCommand s u where
  cfg := h'.cfg.trans h.cfg
  checkVal := h'.checkVal.trans h.checkVal
  opc0 := h'.opc0.trans h.opc0
  opc1 := h'.opc1.trans h.opc1
  plen := h'.plen.trans h.plen
  reqPl a ha := (h'.reqPl a ha).trans (h.reqPl a ha)

/-- The same command reads the same at every address of the command registers. -/
theorem SameCommand.memRead {s t : State} (h : SameCommand s t) {a : Addr} (ha : commandAddr a = true) : t.memRead a = s.memRead a := by
  have hcase : a = 0x002 ∨ a = 0x003 ∨ a = 0x004 ∨ a = 0x005 ∨ a = 0x006 ∨ Machine.reqPl.holds a.toNat = true := by
    rw [reqPl_holds_iff]
    simp only [commandAddr, Bool.or_eq_true, Bool.and_eq_true, decide_eq_true_eq] at ha
    bv_omega
  rcases hcase with rfl | rfl | rfl | rfl | rfl | hc
  · exact congrArg (BitVec.setWidth 8) h.cfg
  · exact h.checkVal
  · exact h.opc0
  · exact h.opc1
  · exact h.plen
  · have hb : isBufferAddr a.toNat = true := by simp [isBufferAddr, hc]
    rw [t.memRead_buffer a hb, s.memRead_buffer a hb, h.reqPl _ hc]

theorem State.receive_sameCommand {s : State} (h : s.Inv) (max : Nat) : SameCommand s (s.receive max) where
  cfg := s.receive_cfg max
  checkVal := s.receive_checkVal max
  opc0 := s.receive_opc0 max
  opc1 := s.receive_opc1 max
  plen := s.receive_plen max
  reqPl a ha := by
    refine (s.rxReadRest max).captureAppend_get_outside _ h.mem_wf h.rxCount_le ?_
    rw [← Bool.not_eq_true, rxBuf_holds_iff]
    rw [reqPl_holds_iff] at ha
    omega

/-- The other three buffers lie above REQ_PL (20 R76). -/
theorem Memory.get_writeBlock_reqPl {m : Memory} (hm : m.wf = true) {base : Nat} (hb : 0x1FC ≤ base) (bytes : List Byte) {a : Nat}
    (ha : reqPl.holds a = true) : (m.writeBlock base bytes).get a = m.get a := by
  rw [reqPl_holds_iff] at ha
  exact Memory.get_writeBlock_outside hm (.inl (by omega))

theorem State.decodeCommit_sameCommand {s : State} (hm : s.mem.wf = true) (r : DecodeResult) : SameCommand s (s.decodeCommit r) :=
  { SameCommand.refl s with reqPl := fun _ ha => Memory.get_writeBlock_reqPl hm (by decide) r.pl ha }

theorem State.startExchange_sameCommand {s : State} (hm : s.mem.wf = true) (lat : Latch) (pl : List Byte) :
    SameCommand s (s.startExchange lat pl) :=
  { SameCommand.refl s with reqPl := fun _ ha => Memory.get_writeBlock_reqPl hm (by decide) (requestFrame lat.op0 lat.op1 pl) ha }

theorem State.exchangeEnd_sameCommand {s : State} (hm : s.mem.wf = true) (r : DecodeResult) : SameCommand s (s.exchangeEnd r) := by
  have hc := State.decodeCommit_sameCommand hm r
  rcases s.exchangeEnd_cases r with ⟨-, -, h⟩ | ⟨-, -, h⟩ | ⟨-, h⟩ <;> rw [h]
  · have hx := State.startExchange_sameCommand (s := s.decodeCommit r) (Memory.writeBlock_wf _ _ hm) setLedLatch [0x02]
    exact hc.trans { hx with }
  · exact { hc with }
  · exact { hc with }

theorem State.firstRead_sameCommand {s : State} (h : s.Inv) : SameCommand s s.firstRead := by
  have hr := State.receive_sameCommand h s.params.read1Max
  rcases s.firstRead_cases with he | he <;> rw [he]
  · exact hr.trans (State.exchangeEnd_sameCommand (h.receive_idleInv _).mem_wf _)
  · exact { hr with }

theorem State.secondRead_sameCommand {s : State} (h : s.Inv) : SameCommand s s.secondRead :=
  (State.receive_sameCommand h Config.read2Max).trans (State.exchangeEnd_sameCommand (h.receive_idleInv _).mem_wf _)

/-- SRST keeps the command registers (42 R220). -/
theorem State.softReset_sameCommand (s : State) : SameCommand s s.softReset :=
  { SameCommand.refl s with reqPl := fun a ha => by rw [State.softReset_mem, Memory.get_keepOnly, if_pos ha] }

/-- While BUSY = 1 an instruction does nothing, resets the block or is dropped (42 R190). -/
theorem exec_sameCommand_of_busy {i : Instr} {s t : State} (hs : s.seq ≠ .idle) (h : exec i s = .next t) : SameCommand s t := by
  rcases exec_leaves h with rfl | ⟨rfl, -⟩ | rfl | ⟨hi, -⟩
  · exact .refl _
  · exact s.softReset_sameCommand
  · exact { SameCommand.refl s with }
  · exact absurd hi hs

/-- While BUSY = 1 a HOST write outside CTRL clears flags of STATUS or does nothing (10 R51). -/
theorem State.memWrite_sameCommand_of_busy {s : State} (hs : s.seq ≠ .idle) (a : Addr) (v : Byte) : SameCommand s (s.memWrite a v) := by
  rcases s.memWrite_cases a v with h | h | ⟨hi, -⟩
  · rw [h]
    exact .refl s
  · rw [h]
    exact { SameCommand.refl s with }
  · exact absurd hi hs

/-- Settles O53: BUSY = 1 locks both kinds of HOST write, and no other agent's step writes these registers. -/
theorem commandRegistersChangeOnlyByIdleHostWrites : Obligations.CommandRegistersChangeOnlyByIdleHostWrites := by
  intro s t e rest hinv hev h hcold hwho a ha
  have hi := hinv.withEvents rest
  suffices hsame : SameCommand { s with events := rest } t from hsame.memRead ha
  rcases step_cases h with ⟨hnil, -⟩ | ⟨e', rest', hev', hcase⟩
  · rw [hnil] at hev
    cases hev
  obtain ⟨rfl, rfl⟩ := List.cons.inj (hev.symm.trans hev')
  have busy {a v} (he : e = .hostWrite a v) : s.seq ≠ .idle := hwho.resolve_right fun hn => hn a v he
  rcases hcase with ⟨v, he, hx⟩ | ⟨a, v, he, -, rfl⟩ | ⟨a, -, rfl⟩ | ⟨b, -, rfl⟩ | ⟨-, -, rfl⟩ | ⟨-, -, -, rfl⟩ | ⟨-, -, -, rfl⟩ | ⟨he, -⟩
  · exact exec_sameCommand_of_busy (busy he) hx
  · exact State.memWrite_sameCommand_of_busy (s := { s with events := rest }) (busy he) a v
  · exact { SameCommand.refl { s with events := rest } with }
  · constructor <;> simp
  · constructor <;> simp
  · exact State.firstRead_sameCommand hi
  · exact State.secondRead_sameCommand hi
  · exact absurd he hcold

end Sys2Proof.Machine
end

section
/-! The encoding chapter's laws (30_encoding.md): the decoder and the encoder of CTRL words (R113) and of catalog opcodes (R108, R109) are
inverse to each other, and the rows of the two tables. -/

namespace Sys2Proof.Machine

/-! ### CTRL words (R113) -/

/-- The instruction of a CTRL word with bit 7 = 0, by its OP and with its ignored bits. -/
def ctrlInstr (op : BitVec 3) (g : BitVec 4) : Instr :=
  if op = 0 then .nop g
  else if op = 1 then .encodeFrame g
  else if op = 2 then .decodeFrame g
  else if op = 3 then .execute g
  else if op = 4 then .openSession g
  else if op = 5 then .rsvd5 g
  else if op = 6 then .rsvd6 g
  else .rsvd7 g

theorem op_cases (op : BitVec 3) : op = 0 ∨ op = 1 ∨ op = 2 ∨ op = 3 ∨ op = 4 ∨ op = 5 ∨ op = 6 ∨ op = 7 := by
  revert op
  decide

@[simp] theorem ctrlIgnored_ctrlWord (g : BitVec 4) (op : BitVec 3) : ctrlIgnored (ctrlWord g op) = g := by
  revert g op
  decide

theorem ctrlWord_masked (g : BitVec 4) (op : BitVec 3) : ctrlWord g op &&& 0x87 = op.setWidth 8 := by
  revert g op
  decide

/-- A byte with bit 7 = 0 is the CTRL word of its bits 6:3 and 2:0. -/
theorem eq_ctrlWord {v : Byte} : v &&& 0x80 ≠ 0x80 → v = ctrlWord (ctrlIgnored v) (v.extractLsb' 0 3) := by
  revert v
  decide

/-- A byte with bit 7 = 1 is the SRST word of its bits 6:0. -/
theorem eq_srstWord {v : Byte} : v &&& 0x80 = 0x80 → v = 1#1 ++ v.extractLsb' 0 7 := by
  revert v
  decide

/-- The row of SRST comes first. -/
theorem decodeCtrl_of_srst {v : Byte} (h : v &&& 0x80 = 0x80) : decodeCtrl v = .srst (v.extractLsb' 0 7) := if_pos h

/-- Under mask 87 a byte that equals OP has bit 7 = 0, and OP selects its row. -/
theorem decodeCtrl_of_op {v : Byte} {op : BitVec 3} (h : v &&& 0x87 = op.setWidth 8) : decodeCtrl v = ctrlInstr op (ctrlIgnored v) := by
  have h7 : v &&& 0x80 = op.setWidth 8 &&& 0x80 := by
    rw [← h, BitVec.and_assoc]
    rfl
  unfold decodeCtrl
  rw [h7, h]
  rcases op_cases op with rfl | rfl | rfl | rfl | rfl | rfl | rfl | rfl <;> rfl

theorem decode_srstWord (g : BitVec 7) : decode [(1#1 ++ g : Byte)] = .ok (.srst g) := by
  revert g
  decide

theorem decodeCtrl_ctrlWord (g : BitVec 4) (op : BitVec 3) : decodeCtrl (ctrlWord g op) = ctrlInstr op g := by
  rw [decodeCtrl_of_op (ctrlWord_masked g op), ctrlIgnored_ctrlWord]

theorem decode_ctrlWord (g : BitVec 4) (op : BitVec 3) : decode [ctrlWord g op] = .ok (ctrlInstr op g) :=
  congrArg Except.ok (decodeCtrl_ctrlWord g op)

theorem encode_ctrlInstr (op : BitVec 3) (g : BitVec 4) : encode (ctrlInstr op g) = [ctrlWord g op] := by
  rcases op_cases op with rfl | rfl | rfl | rfl | rfl | rfl | rfl | rfl <;> rfl

/-- Every byte is the word of the instruction it decodes to: the instruction carries the bits that the row's mask leaves out. -/
theorem encode_decodeCtrl (v : Byte) : encode (decodeCtrl v) = [v] := by
  by_cases h : v &&& 0x80 = 0x80
  · rw [decodeCtrl_of_srst h]
    exact congrArg (fun w => [w]) (eq_srstWord h).symm
  · rw [eq_ctrlWord h, decodeCtrl_ctrlWord, encode_ctrlInstr]

/-! ### Catalog opcodes (R108, R109) -/

theorem decode_catalog (c : Catalog) : decode [c.op0, c.op1] = .ok c.instr := by
  simp only [decode, catalogOf_opcode]

theorem encode_catalog (c : Catalog) : encode c.instr = [c.op0, c.op1] := by
  cases c <;> rfl

theorem opcode16_catalog_mem (c : Catalog) : opcode16 c.op0 c.op1 ∈ [0x0102, 0x0103, 0x0104, 0x010C, 0x020C, 0x030C] := by
  cases c <;> decide

theorem catalogOf_eq_none {op0 op1 : Byte} (h : opcode16 op0 op1 ∉ [0x0102, 0x0103, 0x0104, 0x010C, 0x020C, 0x030C]) :
    catalogOf op0 op1 = none := by
  refine Option.eq_none_iff_forall_ne_some.2 fun c hc => h ?_
  obtain ⟨rfl, rfl⟩ := catalogOf_eq_some hc
  exact opcode16_catalog_mem c

theorem decode_unknownOpcode {op0 op1 : Byte} (h : opcode16 op0 op1 ∉ [0x0102, 0x0103, 0x0104, 0x010C, 0x020C, 0x030C]) :
    decode [op0, op1] = .error (.unknownOpcode op0 op1) := by
  simp only [decode, catalogOf_eq_none h]

/-! ### Decoder and encoder -/

theorem decode_encode (i : Instr) : decode (encode i) = .ok i := by
  cases i with
  | getInfo => exact decode_catalog .getInfo
  | beep => exact decode_catalog .beep
  | setLed => exact decode_catalog .setLed
  | readToken => exact decode_catalog .readToken
  | writeToken => exact decode_catalog .writeToken
  | writeTokenReserve => exact decode_catalog .writeTokenReserve
  | srst g => exact decode_srstWord g
  | nop g => exact decode_ctrlWord g 0
  | encodeFrame g => exact decode_ctrlWord g 1
  | decodeFrame g => exact decode_ctrlWord g 2
  | execute g => exact decode_ctrlWord g 3
  | openSession g => exact decode_ctrlWord g 4
  | rsvd5 g => exact decode_ctrlWord g 5
  | rsvd6 g => exact decode_ctrlWord g 6
  | rsvd7 g => exact decode_ctrlWord g 7

/-- Settles O4: a catalog command is found by its opcode, and a CTRL word by its OP. -/
theorem decodeOfEncodeGivesTheInstruction : Obligations.DecodeOfEncodeGivesTheInstruction :=
  fun i _ => decode_encode i

/-- Settles O5: one byte is the word of what it decodes to, two bytes decode by their catalog entry only, and no other length decodes. -/
theorem decodedBytesAreTheEncodersBytes : Obligations.DecodedBytesAreTheEncodersBytes := by
  intro bytes i h
  match bytes with
  | [] => cases h
  | [v] =>
    cases h
    exact (encode_decodeCtrl v).symm
  | [op0, op1] =>
    cases hc : catalogOf op0 op1 with
    | none =>
      simp only [decode, hc] at h
      cases h
    | some c =>
      obtain ⟨rfl, rfl⟩ := catalogOf_eq_some hc
      rw [decode_catalog] at h
      cases h
      exact (encode_catalog c).symm
  | _ :: _ :: _ :: _ => cases h

/-- Settles O6: each row by its mask, and the bits that the masks leave out reach no meaning. -/
theorem ctrlBytesDecodeByTheTableRows : Obligations.CtrlBytesDecodeByTheTableRows := by
  refine ⟨fun v => ⟨rfl, fun h => ⟨_, decodeCtrl_of_srst h⟩, fun h => ⟨_, decodeCtrl_of_op (op := 0) h⟩,
    fun h => ⟨_, decodeCtrl_of_op (op := 1) h⟩, fun h => ⟨_, decodeCtrl_of_op (op := 2) h⟩, fun h => ⟨_, decodeCtrl_of_op (op := 3) h⟩,
    fun h => ⟨_, decodeCtrl_of_op (op := 4) h⟩, fun h => ⟨_, decodeCtrl_of_op (op := 5) h⟩, fun h => ⟨_, decodeCtrl_of_op (op := 6) h⟩,
    fun h => ⟨_, decodeCtrl_of_op (op := 7) h⟩⟩, ?_⟩
  rintro v w s (h | ⟨hv, hw⟩)
  · exact exec_decodeCtrl_congr h s
  · rw [decodeCtrl_of_srst hv, decodeCtrl_of_srst hw]
    rfl

/-- Settles O7: each opcode is its catalog entry's, and an opcode outside the six has no entry. -/
theorem opcodesDecodeToTheSixCommands : Obligations.OpcodesDecodeToTheSixCommands :=
  ⟨decode_catalog .getInfo, decode_catalog .beep, decode_catalog .setLed, decode_catalog .readToken, decode_catalog .writeToken,
    decode_catalog .writeTokenReserve, fun _ _ => decode_unknownOpcode⟩

/-- A table word whose bytes are the encoder's decodes to the instruction encoded. -/
theorem decodeTableWord_of_encode {nbits w : Nat} {i : Instr} (h : tableBytes nbits w = encode i) : decodeTableWord nbits w = some i := by
  simp only [decodeTableWord, h, decode_encode]

/-- Settles O8: each word but the last lies in bytes as the encoder writes them, and 12 34 is no opcode of the catalog. -/
theorem writtenWordsDecodeAsTheSpecSays : Obligations.WrittenWordsDecodeAsTheSpecSays := by
  refine ⟨decodeTableWord_of_encode ?_, decodeTableWord_of_encode ?_, decodeTableWord_of_encode ?_, decodeTableWord_of_encode ?_,
    decodeTableWord_of_encode ?_, decodeTableWord_of_encode ?_, ?_⟩ <;> decide

end Sys2Proof.Machine
end

section
/-! The codec chapter's laws (40_codec.md): ENCODE (R130 to R134), Decode's checks in order (R141), the frame round trip (R153), and DECODE
(R140, R151). -/

namespace Sys2Proof.Machine

/-! ### ENCODE (R130 to R134) -/

theorem exec_encodeFrame_of_idle {s : State} (g : BitVec 4) (hs : s.seq = .idle) :
    exec (.encodeFrame g) s = .next s.accept.runEncode :=
  congrArg _ (State.take_of_seq_idle hs)

/-- While BUSY = 0 ENCODE builds the frame of a payload that fits and completes with OK. -/
theorem exec_encodeFrame_of_fits {s : State} (g : BitVec 4) (hs : s.seq = .idle) (hp : s.plen.toNat ≤ 252) :
    exec (.encodeFrame g) s = .next ((s.accept.buildFrame s.opc0 s.opc1 s.reqPayload).finishPlain .ok) := by
  have hfit : ¬ s.accept.plen.toNat > Config.maxPayload := Nat.not_lt.2 hp
  rw [exec_encodeFrame_of_idle g hs, State.runEncode, if_neg hfit]
  rfl

/-- While BUSY = 0 ENCODE of a payload that does not fit completes with ENCODING_ERROR at once. -/
theorem exec_encodeFrame_of_long {s : State} (g : BitVec 4) (hs : s.seq = .idle) (hp : 252 < s.plen.toNat) :
    exec (.encodeFrame g) s = .next (s.accept.finishPlain .encodingError) := by
  have hlong : s.accept.plen.toNat > Config.maxPayload := hp
  rw [exec_encodeFrame_of_idle g hs, State.runEncode, if_pos hlong]

/-- An operation accepted and completed without a decode changes the completion's registers only (42 R191, 60 R240, R241). -/
theorem State.accept_finishPlain {s : State} (hs : s.seq = .idle) (code : ResCode) :
    s.accept.finishPlain code = { s with
      done := true, csumOk := false, noCard := false, resCode := code, resStatus := 0x00, resPlen := 0x00
      tmr := false, iphase := .none } := by
  simp only [State.finishPlain, State.finish, State.accept, noCardFlag, hs]

/-- Settles O19: the length check comes before BuildFrame. -/
theorem encodeRefusesALongPayload : Obligations.EncodeRefusesALongPayload := fun s g hs hp => by
  rw [exec_encodeFrame_of_long g hs hp, State.accept_finishPlain hs]

theorem State.reqPayload_length_of_le {s : State} (hp : s.plen.toNat ≤ 252) : s.reqPayload.length = s.plen.toNat := by
  rw [s.reqPayload_length, Nat.min_eq_left hp]

theorem State.byteAt_reqPayload {s : State} (hp : s.plen.toNat ≤ 252) {i : Nat} (hi : i < s.plen.toNat) :
    byteAt s.reqPayload i = s.cell reqPl i := by
  rw [State.reqPayload, State.byteAt_cells, if_pos]
  exact Nat.lt_min.2 ⟨hi, Nat.lt_of_lt_of_le hi hp⟩

/-- The length byte of a request frame counts opcode, payload and checksum (30 R100). -/
theorem byteAt_requestFrame_length (op0 op1 : Byte) {pl : List Byte} (hp : pl.length ≤ 252) :
    (byteAt (requestFrame op0 op1 pl) 3).toNat = pl.length + 3 := by
  rw [requestFrame_eq]
  exact Nat.mod_eq_of_lt (by omega)

theorem byteAt_requestFrame_tail (op0 op1 : Byte) (pl : List Byte) (i : Nat) :
    byteAt (requestFrame op0 op1 pl) (6 + i) = byteAt (pl ++ [csumGen op0 op1 pl]) i := by
  rw [requestFrame_eq, Nat.add_comm 6 i]
  rfl

theorem byteAt_requestFrame_payload (op0 op1 : Byte) {pl : List Byte} {i : Nat} (hi : i < pl.length) :
    byteAt (requestFrame op0 op1 pl) (6 + i) = byteAt pl i := by
  rw [byteAt_requestFrame_tail, byteAt_append, if_pos hi]

theorem byteAt_requestFrame_checksum (op0 op1 : Byte) (pl : List Byte) :
    byteAt (requestFrame op0 op1 pl) (6 + pl.length) = csumGen op0 op1 pl := by
  rw [byteAt_requestFrame_tail, byteAt_append, if_neg (Nat.lt_irrefl _), Nat.sub_self]
  rfl

/-- Settles O17: TX_FRAME holds the request frame below 7 + PLEN, and its old cells from there. -/
theorem encodeBuildsTheRequestFrame : Obligations.EncodeBuildsTheRequestFrame := by
  intro s g hm hs hp
  have hlen := State.reqPayload_length_of_le hp
  have hcell (i : Nat) : ((s.accept.buildFrame s.opc0 s.opc1 s.reqPayload).finishPlain .ok).cell txFrame i =
      if i < 7 + s.plen.toNat then byteAt (requestFrame s.opc0 s.opc1 s.reqPayload) i else s.cell txFrame i :=
    hlen ▸ State.cell_buildFrame (s := s.accept) hm s.opc0 s.opc1 s.reqPayload i
  have hin {i : Nat} (hi : i < 7 + s.plen.toNat) := (hcell i).trans (if_pos hi)
  have hhead {i : Nat} (hi : i < 6) := hin (i := i) (by omega)
  refine ⟨_, exec_encodeFrame_of_fits g hs hp, hhead (by decide), hhead (by decide), hhead (by decide), ?_, ?_, ?_, ?_, ?_, ?_, ?_,
    rfl, rfl, rfl, rfl, rfl, rfl, rfl⟩
  · rw [hhead (by decide), byteAt_requestFrame_length _ _ s.reqPayload_length_le, hlen]
  · rw [hhead (by decide), requestFrame_eq]
    rfl
  · rw [hhead (by decide), requestFrame_eq]
    rfl
  · intro i hi
    rw [hin (by omega), byteAt_requestFrame_payload _ _ (hlen.symm ▸ hi), State.byteAt_reqPayload hp hi]
  · rw [hin (by omega), ← hlen, byteAt_requestFrame_checksum]
    rfl
  · rw [State.finishPlain_txLen, State.buildFrame_txLen, hlen, BitVec.toNat_ofNat]
    omega
  · intro i hi _
    rw [hcell, if_neg (Nat.not_lt.2 hi)]

/-- States that differ at most in STATUS, the result registers, TXLEN and buffer cells read alike outside them. -/
theorem SameInside.memRead {s t : State} (hi : SameInside s t) (hc : SameCommand s t) (hx : t.rxCount = s.rxCount) {a : Addr}
    (hr : resultAddr a = false) (hl : a = 0x00C ∨ a = 0x00D → t.txLen = s.txLen)
    (hm : isBufferAddr a.toNat = true → t.mem.get a.toNat = s.mem.get a.toNat) : t.memRead a = s.memRead a := by
  simp only [resultAddr, Bool.or_eq_false_iff, decide_eq_false_iff_not] at hr
  obtain ⟨⟨⟨hStatus, hResCode⟩, hResStatus⟩, hResPlen⟩ := hr
  exact State.memRead_congr (absurd · hStatus) (fun _ => hc.cfg) (fun _ => hc.checkVal) (fun _ => hc.opc0) (fun _ => hc.opc1)
    (fun _ => hc.plen) (absurd · hResCode) (absurd · hResStatus) (absurd · hResPlen) (fun _ => hx) hl
    (fun _ => by rw [State.stateByte, State.stateByte, hi.seq, hi.iphase]) (fun _ => hi.rxq) hm

theorem State.buildFrame_sameCommand {s : State} (hm : s.mem.wf = true) (op0 op1 : Byte) (pl : List Byte) :
    SameCommand s (s.buildFrame op0 op1 pl) :=
  { SameCommand.refl s with reqPl := fun _ ha => Memory.get_writeBlock_reqPl hm (by decide) (requestFrame op0 op1 pl) ha }

/-- Settles O18: the completion touches STATUS and the result registers, and BuildFrame TXLEN and the frame's own cells. -/
theorem encodeLeavesTheRestUnchanged : Obligations.EncodeLeavesTheRestUnchanged := by
  intro s t g hinv hs hp hx
  rw [exec_encodeFrame_of_fits g hs hp] at hx
  injection hx with hx
  subst hx
  have hin : SameInside s ((s.accept.buildFrame s.opc0 s.opc1 s.reqPayload).finishPlain .ok) :=
    ⟨hs.symm, (hinv.iphase_of_idle hs).symm, rfl, rfl, rfl, (hinv.tmr_of_idle hs).symm, rfl, rfl, rfl, rfl⟩
  have hcmd := State.buildFrame_sameCommand (s := s.accept) hinv.mem_wf s.opc0 s.opc1 s.reqPayload
  refine ⟨fun a hr hC hD hframe => ?_, rfl, rfl, rfl, hin⟩
  have houtside : a.toNat < txFrame.base ∨ txFrame.base + (requestFrame s.opc0 s.opc1 s.reqPayload).length ≤ a.toNat := by
    rw [requestFrame_length, State.reqPayload_length_of_le hp, show txFrame.base = 0x200 from rfl]
    omega
  exact hin.memRead { hcmd with } rfl hr (fun h => absurd h (not_or.2 ⟨hC, hD⟩)) fun _ =>
    Memory.get_writeBlock_outside hinv.mem_wf houtside

/-! ### Decode's checks (R141) -/

theorem decodeResponse_of_not_lengthOk (ctx : DecodeCtx) {raw : List Byte} (h : lengthOk raw ≠ true) :
    decodeResponse ctx raw = decodeFail .badLength := by
  simp [decodeResponse, h]

theorem decodeResponse_of_not_preambleOk (ctx : DecodeCtx) {raw : List Byte} (hl : lengthOk raw = true) (h : preambleOk raw ≠ true) :
    decodeResponse ctx raw = decodeFail .badFormat := by
  simp [decodeResponse, hl, h]

theorem decodeResponse_of_not_echoOk {ctx : DecodeCtx} {raw : List Byte} (hl : lengthOk raw = true) (hp : preambleOk raw = true)
    (h : echoOk ctx.op0 ctx.op1 raw ≠ true) : decodeResponse ctx raw = decodeFail .badFormat := by
  simp [decodeResponse, hl, hp, h]

theorem decodeResponse_of_no_status {ctx : DecodeCtx} {raw : List Byte} (hl : lengthOk raw = true) (hp : preambleOk raw = true)
    (he : echoOk ctx.op0 ctx.op1 raw = true) (h : raw.length < 7) : decodeResponse ctx raw = decodeFail .badLength := by
  simp [decodeResponse, hl, hp, he, h]

theorem decodeResponse_of_not_checksumOk {ctx : DecodeCtx} {raw : List Byte} (hl : lengthOk raw = true) (hp : preambleOk raw = true)
    (he : echoOk ctx.op0 ctx.op1 raw = true) (h7 : 7 ≤ raw.length) (hv : ctx.verify = true) (h : checksumOk raw ≠ true) :
    decodeResponse ctx raw = decodeFail .badChecksum := by
  simp [decodeResponse, hl, hp, he, Nat.not_lt.2 h7, hv, h]

/-- The record of a decode that reached status extraction, in the words of R141. -/
theorem decodeReached_eq (ctx : DecodeCtx) (raw : List Byte) :
    decodeReached ctx raw =
      { code := if ctx.chkEn = true ∧ byteAt raw 6 ≠ ctx.chkVal then .deviceStatus else .ok
        status := byteAt raw 6
        pl := if ctx.op0 = 0x01 ∧ ctx.op1 = 0x0C then slice raw (raw.length - 6) (raw.length - 1) else slice raw 7 (raw.length - 1)
        csumOk := decide (xorfold (slice raw 4 raw.length) = 0x00) } := by
  simp [decodeReached, payloadOf, tokenPayload, genericPayload, checksumOk]

/-- Settles O46: one lemma per check, each under the checks before it. -/
theorem decodeChecksInOrder : Obligations.DecodeChecksInOrder := by
  refine fun ctx raw =>
    ⟨fun hn => decodeResponse_of_not_lengthOk ctx fun h => Nat.not_le.2 hn ((lengthOk_iff raw).1 h).1,
      fun _ hlen => decodeResponse_of_not_lengthOk ctx fun h => hlen ((lengthOk_iff raw).1 h).2, fun hn hlen => ?_⟩
  have hl : lengthOk raw = true := (lengthOk_iff raw).2 ⟨hn, hlen⟩
  refine ⟨fun hpre => decodeResponse_of_not_preambleOk ctx hl fun h => hpre ((preambleOk_iff raw).1 h), fun hpre => ?_⟩
  have hp : preambleOk raw = true := (preambleOk_iff raw).2 hpre
  refine ⟨fun hecho => decodeResponse_of_not_echoOk hl hp fun h => ?_, fun h0 h1 => ⟨fun h6 => ?_, fun h7 => ?_⟩⟩
  · obtain ⟨h6, h0, h1⟩ := (echoOk_iff ctx.op0 ctx.op1 raw).1 h
    rcases hecho with h | h | h
    · exact Nat.not_lt.2 h6 h
    · exact h h0
    · exact h h1
  · exact decodeResponse_of_no_status hl hp ((echoOk_iff _ _ _).2 ⟨h6.ge, h0, h1⟩) (by omega)
  · have he : echoOk ctx.op0 ctx.op1 raw = true := (echoOk_iff _ _ _).2 ⟨by omega, h0, h1⟩
    refine ⟨fun hv hsum => decodeResponse_of_not_checksumOk hl hp he h7 hv fun h => hsum ((checksumOk_iff raw).1 h), fun hsum => ?_⟩
    have hc : ctx.verify = true → checksumOk raw = true := fun hv =>
      (checksumOk_iff raw).2 (hsum.resolve_left fun h => Bool.false_ne_true (h.symm.trans hv))
    exact (decodeResponse_reached ⟨hl, hp, he, h7, hc⟩).trans (decodeReached_eq ctx raw)

/-! ### A built frame under Decode (R134, R153) -/

/-- A request frame with a payload passes every check of Decode before the status check, whatever the context asks for. -/
theorem requestFrame_reachesStatus (ctx : DecodeCtx) {pl : List Byte} (hp : pl.length ≤ 252) :
    ReachesStatus ctx (requestFrame ctx.op0 ctx.op1 pl) := by
  have hb := requestFrame_built ctx.op0 ctx.op1 hp
  have hlen := requestFrame_length ctx.op0 ctx.op1 pl
  refine ⟨(lengthOk_iff _).2 ⟨by omega, hb.length_byte⟩, (preambleOk_iff _).2 hb.preamble,
    (echoOk_iff _ _ _).2 ⟨by omega, ?_, ?_⟩, by omega, fun _ => (checksumOk_iff _).2 hb.checksum⟩ <;> rw [requestFrame_eq] <;> rfl

theorem genericPayload_requestFrame (op0 op1 b : Byte) (d : List Byte) : genericPayload (requestFrame op0 op1 (b :: d)) = d := by
  have hlen : (requestFrame op0 op1 (b :: d)).length - 1 = 7 + d.length := by
    rw [requestFrame_length, List.length_cons]
    omega
  rw [genericPayload, slice, hlen, requestFrame_eq]
  simp [Nat.add_comm 7]

/-- The token window ends before the checksum byte, so it reaches into opcode and first payload byte when fewer than five bytes follow. -/
theorem tokenPayload_requestFrame (op0 op1 b : Byte) {d : List Byte} (hd : 2 ≤ d.length) :
    tokenPayload (requestFrame op0 op1 (b :: d)) = ([op0, op1, b] ++ d).drop (d.length - 2) := by
  have hlen : (requestFrame op0 op1 (b :: d)).length = 8 + d.length := by
    rw [requestFrame_length, List.length_cons]
    omega
  have hwin : 8 + d.length - 6 = d.length - 2 + 4 := by omega
  rw [tokenPayload, slice, hlen, hwin, requestFrame_eq]
  simp [Nat.add_comm 8]

/-- Decoding a request frame takes the first payload byte for the status: the frame's own opcode and checksum pass every check. -/
theorem decodeResponse_requestFrame (ctx : DecodeCtx) (b : Byte) {d : List Byte} (hd : d.length ≤ 251) :
    decodeResponse ctx (requestFrame ctx.op0 ctx.op1 (b :: d)) =
      { code := if ctx.chkEn && decide (b ≠ ctx.chkVal) then .deviceStatus else .ok
        status := b
        pl := payloadOf ctx.op0 ctx.op1 (requestFrame ctx.op0 ctx.op1 (b :: d))
        csumOk := true } := by
  have hr := requestFrame_reachesStatus ctx (pl := b :: d) (by rw [List.length_cons]; omega)
  have hstatus : byteAt (requestFrame ctx.op0 ctx.op1 (b :: d)) 6 = b := by
    rw [requestFrame_eq]
    rfl
  have hsum := (checksumOk_iff _).2 (requestFrame_built ctx.op0 ctx.op1 (pl := b :: d) (by rw [List.length_cons]; omega)).checksum
  rw [decodeResponse_reached hr, decodeReached, hstatus, hsum]

/-- The response frame of R153 is the request frame whose payload is the status 00 and the data. -/
theorem responseFrame_eq_requestFrame (op0 op1 : Byte) (d : List Byte) :
    [0xAA, 0xDD, 0x00, BitVec.ofNat 8 (d.length + 4), op0, op1, 0x00] ++ d ++ [xorfold ([op0, op1, 0x00] ++ d)] =
      requestFrame op0 op1 (0x00 :: d) :=
  (requestFrame_eq op0 op1 (0x00 :: d)).symm

/-- Settles O48: the response frame is a request frame, which decodes to its payload's first byte and the rest. -/
theorem responseFrameRoundTrips : Obligations.ResponseFrameRoundTrips := by
  intro op0 op1 d v r hd hr
  rw [responseFrame_eq_requestFrame, decodeResponse_requestFrame _ _ hd] at hr
  subst hr
  have htoken (h : op0 = 0x01 ∧ op1 = 0x0C) : payloadOf op0 op1 (requestFrame op0 op1 (0x00 :: d)) = tokenPayload _ := if_pos h
  refine ⟨rfl, rfl, rfl, fun h => ?_, fun h h2 => ?_, fun h => ⟨fun hpl => ?_, fun h5 => ?_⟩⟩
  · exact (if_neg h).trans (genericPayload_requestFrame op0 op1 0x00 d)
  · exact (htoken h).trans (tokenPayload_requestFrame op0 op1 0x00 h2)
  · have h7 : 7 ≤ (requestFrame op0 op1 (0x00 :: d)).length := by rw [requestFrame_length]; omega
    rw [← tokenPayload_length h7, ← htoken h]
    exact congrArg List.length hpl.symm
  · refine (htoken h).trans ((tokenPayload_requestFrame op0 op1 0x00 (by omega)).trans ?_)
    rw [h5]
    rfl

theorem State.reqPayload_eq_cons {s : State} (h : 1 ≤ s.plen.toNat) (hp : s.plen.toNat ≤ 252) :
    s.reqPayload = s.cell reqPl 0 :: s.reqPayload.drop 1 := by
  have hpos : 0 < s.reqPayload.length := (State.reqPayload_length_of_le hp).symm ▸ h
  rw [← State.byteAt_reqPayload hp h, getD_eq_of_lt hpos]
  exact List.drop_eq_getElem_cons hpos

/-- Settles O49: TX_FRAME holds the request frame of OPC0, OPC1 and the payload. -/
theorem builtFramePassesTheResponseChecks : Obligations.BuiltFramePassesTheResponseChecks := by
  intro s t g hm hs hp hx
  rw [exec_encodeFrame_of_fits g hs hp] at hx
  injection hx with hx
  subst hx
  have hframe : ((s.accept.buildFrame s.opc0 s.opc1 s.reqPayload).finishPlain .ok).lastFrame =
      requestFrame s.opc0 s.opc1 s.reqPayload :=
    s.accept.buildFrame_lastFrame s.opc0 s.opc1 s.reqPayload hm s.reqPayload_length_le
  rw [hframe]
  refine ⟨requestFrame_built _ _ s.reqPayload_length_le, fun h1 hne => ?_⟩
  have hcons := State.reqPayload_eq_cons h1 hp
  have hrest : (s.reqPayload.drop 1).length ≤ 251 := by
    rw [List.length_drop]
    exact Nat.sub_le_sub_right s.reqPayload_length_le 1
  generalize s.reqPayload.drop 1 = d at hcons hrest ⊢
  rw [hcons, decodeResponse_requestFrame _ _ hrest, payloadOf, if_neg hne, genericPayload_requestFrame]
  rfl

/-! ### DECODE (R140, R151) -/

/-- While BUSY = 0 DECODE commits the decode of RX_BUF and completes with its code. -/
theorem exec_decodeFrame_of_idle {s : State} (g : BitVec 4) (hs : s.seq = .idle) :
    exec (.decodeFrame g) s =
      .next ((s.accept.decodeCommit (decodeResponse s.decodeCtx s.raw)).finishDecoded (decodeResponse s.decodeCtx s.raw).code
        s.opc0 s.opc1) :=
  congrArg _ (State.take_of_seq_idle hs)

/-- The committed payload reads back from RES_PL (40 R151). -/
theorem State.decodeCommit_cells {s : State} (hm : s.mem.wf = true) {r : DecodeResult} (hl : r.pl.length ≤ 251) :
    (s.decodeCommit r).cells resPl r.pl.length = r.pl := by
  rw [State.cells, show min r.pl.length resPl.size = r.pl.length from Nat.min_eq_left hl, State.decodeCommit_mem]
  exact Memory.readBlock_writeBlock hm _ _

theorem noCardFlag_some (code : ResCode) (c : Committed) :
    noCardFlag code (some c) = true ↔ code = .ok ∧ c.op0 = 0x01 ∧ c.op1 = 0x0C ∧ c.token = [0x00, 0x00, 0x00, 0x00, 0x00] := by
  simp [noCardFlag, and_assoc]

/-- Settles O20: the commit writes the decode's record, and an OK token fills the five cells that NO_CARD reads. -/
theorem decodeReportsTheResponse : Obligations.DecodeReportsTheResponse := by
  intro s g r hm hs hr
  have hx := exec_decodeFrame_of_idle g hs
  rw [show decodeResponse s.decodeCtx s.raw = r from hr.symm] at hx
  have hlen : r.pl.length ≤ 251 := hr ▸ decodeResponse_pl_length_le _ _
  have hcell := State.cell_decodeCommit (s := s.accept) hm r
  refine ⟨_, hx, rfl, rfl, ?_, fun i hi => (hcell i).trans (if_pos hi), fun i hi _ => (hcell i).trans (if_neg (Nat.not_lt.2 hi)),
    rfl, rfl, rfl, ?_⟩
  · exact Nat.mod_eq_of_lt (by omega)
  · rw [State.finishDecoded_noCard, noCardFlag_some]
    refine and_congr_right fun hok => and_congr_right fun h0 => and_congr_right fun h1 => ?_
    have hfive : r.pl.length = 5 := by
      subst hr
      exact decodeResponse_token_length hok h0 h1
    rw [← hfive, State.decodeCommit_cells (s := s.accept) hm hlen]

/-- Settles O21: the completion touches STATUS and the result registers, and the commit the RES_PL cells of the payload. -/
theorem decodeLeavesTheRestUnchanged : Obligations.DecodeLeavesTheRestUnchanged := by
  intro s t g hinv hs hx
  rw [exec_decodeFrame_of_idle g hs] at hx
  injection hx with hx
  subst hx
  generalize decodeResponse s.decodeCtx s.raw = r
  have hin : SameInside s ((s.accept.decodeCommit r).finishDecoded r.code s.opc0 s.opc1) :=
    ⟨hs.symm, (hinv.iphase_of_idle hs).symm, rfl, rfl, rfl, (hinv.tmr_of_idle hs).symm, rfl, rfl, rfl, rfl⟩
  have hcmd := State.decodeCommit_sameCommand (s := s.accept) hinv.mem_wf r
  refine ⟨fun a hr hpl => ?_, rfl, rfl, rfl, hin⟩
  have houtside : a.toNat < resPl.base ∨ resPl.base + r.pl.length ≤ a.toNat := by
    rw [show resPl.base = 0x600 from rfl]
    omega
  exact hin.memRead { hcmd with } rfl hr (fun _ => rfl) fun _ => Memory.get_writeBlock_outside hinv.mem_wf houtside

end Sys2Proof.Machine
end

section
/-! The command chapter's laws (41_commands.md): Dispatch's checks (R170, R171), and what EXECUTE and the six catalog commands do with its
answer. -/

namespace Sys2Proof.Machine

/-! ### A wrong shape (R171) -/

/-- Settles O27: a refused command is accepted and completed in the same step. -/
theorem catalogCommandRefusesAWrongShape : Obligations.CatalogCommandRefusesAWrongShape := fun s c hs h => by
  rw [exec_catalog_of_not_shape hs h, State.accept_finishPlain hs]

/-! ### Dispatch (R170) -/

theorem dispatch_of_catalogOf_none {op0 op1 : Byte} (n : Nat) (h : catalogOf op0 op1 = none) :
    dispatch op0 op1 n = .unknownOpcode := by
  simp only [dispatch, h]

/-- Dispatch of a catalog opcode is that command's own check. -/
theorem dispatch_catalog (c : Catalog) (n : Nat) : dispatch c.op0 c.op1 n = catalogCheck c n := by
  simp only [dispatch, catalogOf_opcode]

theorem dispatch_of_shape {c : Catalog} {n : Nat} (h : CommandShape c n) : dispatch c.op0 c.op1 n = .ok := by
  rw [dispatch_catalog]
  rcases catalogCheck_cases c n with ⟨hok, -⟩ | ⟨-, hshape⟩
  · exact hok
  · exact absurd ((commandShape_iff c n).1 h) hshape

theorem dispatch_of_not_shape {c : Catalog} {n : Nat} (h : ¬ CommandShape c n) : dispatch c.op0 c.op1 n = .encodingError := by
  rw [dispatch_catalog]
  rcases catalogCheck_cases c n with ⟨-, hshape⟩ | ⟨herr, -⟩
  · exact absurd ((commandShape_iff c n).2 hshape) h
  · exact herr

theorem CommandShape.le {c : Catalog} {n : Nat} (h : CommandShape c n) : n ≤ 252 :=
  ((commandShape_iff c n).1 h).1

/-- Everything Dispatch can answer: an opcode outside the catalog, or a command with or without its shape. -/
theorem dispatch_cases (op0 op1 : Byte) (n : Nat) :
    (catalogOf op0 op1 = none ∧ dispatch op0 op1 n = .unknownOpcode) ∨
      ∃ c : Catalog, op0 = c.op0 ∧ op1 = c.op1 ∧
        ((CommandShape c n ∧ dispatch op0 op1 n = .ok) ∨ (¬ CommandShape c n ∧ dispatch op0 op1 n = .encodingError)) := by
  cases hc : catalogOf op0 op1 with
  | none => exact .inl ⟨rfl, dispatch_of_catalogOf_none n hc⟩
  | some c =>
    obtain ⟨rfl, rfl⟩ := catalogOf_eq_some hc
    by_cases h : CommandShape c n
    · exact .inr ⟨c, rfl, rfl, .inl ⟨h, dispatch_of_shape h⟩⟩
    · exact .inr ⟨c, rfl, rfl, .inr ⟨h, dispatch_of_not_shape h⟩⟩

/-- Dispatch lets a request through exactly for a command of the catalog with its shape. -/
theorem dispatch_eq_ok_iff {op0 op1 : Byte} {n : Nat} :
    dispatch op0 op1 n = .ok ↔ ∃ c : Catalog, op0 = c.op0 ∧ op1 = c.op1 ∧ CommandShape c n := by
  refine ⟨fun h => ?_, ?_⟩
  · rcases dispatch_cases op0 op1 n with ⟨-, hd⟩ | ⟨c, h0, h1, ⟨hshape, -⟩ | ⟨-, hd⟩⟩
    · cases hd.symm.trans h
    · exact ⟨c, h0, h1, hshape⟩
    · cases hd.symm.trans h
  · rintro ⟨c, rfl, rfl, hshape⟩
    exact dispatch_of_shape hshape

theorem le_of_dispatch_eq_ok {op0 op1 : Byte} {n : Nat} (h : dispatch op0 op1 n = .ok) : n ≤ 252 := by
  obtain ⟨c, -, -, hshape⟩ := dispatch_eq_ok_iff.1 h
  exact hshape.le

/-! ### EXECUTE (R170, 42 R192) -/

/-- An EXECUTE whose opcode is a catalog command's is that command. -/
theorem exec_execute_of_opcode {s : State} {c : Catalog} (g : BitVec 4) (h0 : s.opc0 = c.op0) (h1 : s.opc1 = c.op1) :
    exec (.execute g) s = exec c.instr s :=
  exec_execute_catalog g (by rw [h0, h1, catalogOf_opcode])

/-- While BUSY = 0 an EXECUTE of an opcode outside the catalog completes at once. -/
theorem exec_execute_of_unknown {s : State} (g : BitVec 4) (hs : s.seq = .idle) (h : catalogOf s.opc0 s.opc1 = none) :
    exec (.execute g) s = .next (s.accept.finishPlain .unknownOpcode) := by
  simp only [exec, execExecute, h]
  rw [State.take_of_seq_idle hs]

/-- While BUSY = 0 a code of Dispatch other than OK completes EXECUTE at once with that code. -/
theorem exec_execute_of_dispatch_ne_ok {s : State} (g : BitVec 4) (hs : s.seq = .idle)
    (h : dispatch s.opc0 s.opc1 s.plen.toNat ≠ .ok) :
    exec (.execute g) s = .next (s.accept.finishPlain (dispatch s.opc0 s.opc1 s.plen.toNat)) := by
  rcases dispatch_cases s.opc0 s.opc1 s.plen.toNat with ⟨hc, hd⟩ | ⟨c, h0, h1, ⟨-, hd⟩ | ⟨hshape, hd⟩⟩
  · rw [hd, exec_execute_of_unknown g hs hc]
  · exact absurd hd h
  · rw [hd, exec_execute_of_opcode g h0 h1, exec_catalog_of_not_shape hs hshape]

/-- While BUSY = 0 EXECUTE with OK from Dispatch starts the exchange of OPC0, OPC1 and the payload. -/
theorem exec_execute_of_dispatch_ok {s : State} (g : BitVec 4) (hs : s.seq = .idle)
    (h : dispatch s.opc0 s.opc1 s.plen.toNat = .ok) :
    exec (.execute g) s =
      .next (({ s.accept with iphase := .none } : State).startExchange
        { op0 := s.opc0, op1 := s.opc1, chkEn := s.checkEn, chkVal := s.checkVal } s.reqPayload) := by
  obtain ⟨c, h0, h1, hshape⟩ := dispatch_eq_ok_iff.1 h
  rw [exec_execute_of_opcode g h0 h1, exec_catalog_of_shape hs hshape, h0, h1]

/-- The frame an exchange starts with (42 R193). -/
theorem State.startExchange_lastFrame {s : State} (hm : s.mem.wf = true) (lat : Latch) {pl : List Byte} (hp : pl.length ≤ 252) :
    (s.startExchange lat pl).lastFrame = requestFrame lat.op0 lat.op1 pl :=
  s.buildFrame_lastFrame lat.op0 lat.op1 pl hm hp

/-- The request frame of the command registers, in the bytes of 30 R100 with PLEN for the payload's length. -/
theorem State.requestFrame_reqPayload {s : State} (hp : s.plen.toNat ≤ 252) (op0 op1 : Byte) :
    requestFrame op0 op1 s.reqPayload =
      [0xAA, 0xDD, 0x00, BitVec.ofNat 8 (s.plen.toNat + 3), op0, op1] ++ s.reqPayload ++ [xorfold ([op0, op1] ++ s.reqPayload)] := by
  rw [requestFrame_eq, State.reqPayload_length_of_le hp]
  rfl

/-- Settles O28: Dispatch answers by the catalog and CommandShape, and EXECUTE completes or starts the exchange by its answer. -/
theorem executeFollowsDispatch : Obligations.ExecuteFollowsDispatch := by
  refine ⟨fun op0 op1 n => ⟨fun h => dispatch_of_catalogOf_none n (catalogOf_eq_none h), ?_⟩, fun s g hm hs => ⟨fun h => ?_, fun h => ?_⟩⟩
  · rintro c rfl rfl
    exact ⟨fun hlong => dispatch_of_not_shape fun h => Nat.not_le.2 hlong h.le, fun _ => dispatch_of_not_shape, dispatch_of_shape⟩
  · rw [exec_execute_of_dispatch_ne_ok g hs h, State.accept_finishPlain hs]
  · refine ⟨_, exec_execute_of_dispatch_ok g hs h, ?_, rfl, rfl, rfl, rfl, rfl, rfl, rfl⟩
    rw [← State.requestFrame_reqPayload (le_of_dispatch_eq_ok h)]
    exact State.startExchange_lastFrame (s := { s.accept with iphase := .none }) hm _ s.reqPayload_length_le

end Sys2Proof.Machine
end

section
/-! The exchange chapter's laws on CTRL (42_exchange.md): how a write to CTRL is taken (R190, R191), the resets and reserved values (R220 to
R224), and what starts an exchange (R193, R211). -/

namespace Sys2Proof.Machine

/-! ### The decoded instruction (R190, R192) -/

/-- Settles O9: one byte decodes to its CTRL instruction, which is what a write to CTRL runs. -/
theorem stepRunsTheDecodedInstruction : Obligations.StepRunsTheDecodedInstruction := by
  intro s v rest i hev hi
  cases hi
  exact step_ctrl hev

/-- Two bytes decode to the command of their catalog entry only (30 R108, R109). -/
theorem decode_opcode_cases {op0 op1 : Byte} {i : Instr} (h : decode [op0, op1] = .ok i) :
    ∃ c : Catalog, op0 = c.op0 ∧ op1 = c.op1 ∧ i = c.instr := by
  cases hc : catalogOf op0 op1 with
  | none =>
    simp only [decode, hc] at h
    cases h
  | some c =>
    simp only [decode, hc] at h
    cases h
    obtain ⟨h0, h1⟩ := catalogOf_eq_some hc
    exact ⟨c, h0, h1, rfl⟩

/-- Settles O10: the byte is EXECUTE's, and EXECUTE of a catalog opcode is that command. -/
theorem stepRunsTheSelectedCatalogCommand : Obligations.StepRunsTheSelectedCatalogCommand := by
  intro s v rest i hev hv hi
  obtain ⟨c, h0, h1, rfl⟩ := decode_opcode_cases hi
  rw [step_ctrl hev, decodeCtrl_of_op (op := 3) hv]
  exact exec_execute_of_opcode (s := { s with events := rest }) _ h0 h1

theorem decode_tableBytes {nbits w : Nat} {i : Instr} (h : decodeTableWord nbits w = some i) : decode (tableBytes nbits w) = .ok i := by
  unfold decodeTableWord at h
  split at h
  · next j hj =>
    cases h
    exact hj
  · cases h

/-- Settles O11: a word of 8 bits is the CTRL byte itself, and one of 16 bits stands in OPC0 and OPC1 for an EXECUTE. -/
theorem fetchedTableWordRunsNext : Obligations.FetchedTableWordRunsNext := by
  intro s nbits w i hwf hi
  have hd := decode_tableBytes hi
  simp only [tableWordWellFormed, Bool.or_eq_true, Bool.and_eq_true, decide_eq_true_eq] at hwf
  rcases hwf with ⟨rfl, -⟩ | ⟨rfl, -⟩
  · exact stepRunsTheDecodedInstruction (s.withFetchWord 8 w) _ s.events i rfl hd
  · exact stepRunsTheSelectedCatalogCommand (s.withFetchWord 16 w) 0x03 s.events i rfl (by decide) hd

/-! ### How a CTRL write is taken (R190, R191) -/

/-- Settles O16: every instruction but NOP and SRST is taken, and BUSY = 1 drops what is taken. -/
theorem busyDropsEveryOperation : Obligations.BusyDropsEveryOperation := by
  intro i s hnop hsrst hs
  rcases exec_cases i s with ⟨g, rfl, -⟩ | ⟨g, rfl, -⟩ | ⟨-, -, run, hx, -⟩
  · exact absurd rfl (hnop g)
  · exact absurd rfl (hsrst g)
  · rw [hx, State.take_of_seq_busy hs]
    rfl

/-- Settles O13: NOP answers its own state, and never reads BUSY. -/
theorem nopHasNoEffect : Obligations.NopHasNoEffect := fun _ _ => rfl

/-- The step from `u` to `t` completed its operation or started an exchange, and dropped no command. -/
structure CompletesOrStarts (u t : State) : Prop where
  cmdDropped : t.cmdDropped = u.cmdDropped
  outcome : (t.done = true ∧ t.seq = .idle ∧ t.resCode ≠ .none) ∨
    (t.done = false ∧ t.seq = .tx ∧ t.resCode = .none ∧ t.csumOk = false ∧ t.noCard = false)

theorem State.finishPlain_completes (u : State) {code : ResCode} (h : code ≠ .none) : CompletesOrStarts u (u.finishPlain code) :=
  ⟨rfl, .inl ⟨rfl, rfl, h⟩⟩

/-- An exchange that starts from an accepted operation has no result yet (R191, R193). -/
theorem State.startExchange_starts (s : State) (phase : InitPhase) (lat : Latch) (pl : List Byte) :
    CompletesOrStarts s.accept (({ s.accept with iphase := phase } : State).startExchange lat pl) :=
  ⟨rfl, .inr ⟨rfl, rfl, rfl, rfl, rfl⟩⟩

theorem State.runEncode_completes (u : State) : CompletesOrStarts u u.runEncode := by
  unfold State.runEncode
  split
  · exact u.finishPlain_completes (by decide)
  · exact { State.finishPlain_completes (u.buildFrame u.opc0 u.opc1 u.reqPayload) (code := .ok) (by decide) with }

theorem State.runDecode_completes (u : State) : CompletesOrStarts u u.runDecode :=
  ⟨rfl, .inl ⟨rfl, rfl, decodeResponse_code_ne_none _ _⟩⟩

theorem State.runOpen_completesOrStarts (s : State) : CompletesOrStarts s.accept s.accept.runOpen := by
  unfold State.runOpen
  split
  · exact s.accept.finishPlain_completes (by decide)
  · exact s.startExchange_starts _ _ _

theorem State.runCatalog_completesOrStarts (s : State) (c : Catalog) : CompletesOrStarts s.accept (s.accept.runCatalog c) := by
  rcases s.accept.runCatalog_cases c with ⟨-, -, h⟩ | ⟨-, h⟩ <;> rw [h]
  · exact s.startExchange_starts _ _ _
  · exact s.accept.finishPlain_completes (by decide)

/-- While BUSY = 0 every instruction but NOP and SRST completes in its step or starts an exchange (R191). -/
theorem exec_completesOrStarts {i : Instr} {s : State} (hnop : ∀ g, i ≠ .nop g) (hsrst : ∀ g, i ≠ .srst g) (hs : s.seq = .idle) :
    ∃ t, exec i s = .next t ∧ CompletesOrStarts s t := by
  rcases exec_cases i s with ⟨g, hi, -⟩ | ⟨g, hi, -⟩ | ⟨-, -, run, hx, hrun⟩
  · exact absurd hi (hnop g)
  · exact absurd hi (hsrst g)
  rw [State.take_of_seq_idle hs] at hx
  suffices h : CompletesOrStarts s.accept (run s.accept) from ⟨_, hx, { h with }⟩
  rcases hrun with rfl | rfl | rfl | ⟨c, rfl⟩ | rfl | rfl
  · exact s.accept.runEncode_completes
  · exact s.accept.runDecode_completes
  · exact s.runOpen_completesOrStarts
  · exact s.runCatalog_completesOrStarts c
  · exact s.accept.finishPlain_completes (by decide)
  · exact s.accept.finishPlain_completes (by decide)

/-- Bit 7 of the byte selects the row of SRST (30 R113). -/
theorem and_srst_eq_iff {v : Byte} : v &&& 0x80 = 0x80 ↔ v.getLsbD 7 = true := by
  revert v
  decide

theorem decodeCtrl_of_bit7_clear {v : Byte} (h : v.getLsbD 7 = false) : decodeCtrl v = ctrlInstr (v.extractLsb' 0 3) (ctrlIgnored v) := by
  have hv : v &&& 0x80 ≠ 0x80 := fun hv => Bool.false_ne_true (h.symm.trans (and_srst_eq_iff.1 hv))
  exact (congrArg decodeCtrl (eq_ctrlWord hv)).trans (decodeCtrl_ctrlWord _ _)

/-- OP selects an operation other than NOP and SRST exactly when it is not 0 (30 R113). -/
theorem ctrlInstr_operation {op : BitVec 3} (g : BitVec 4) (h : op ≠ 0) :
    (∀ k, ctrlInstr op g ≠ .nop k) ∧ ∀ k, ctrlInstr op g ≠ .srst k := by
  rcases op_cases op with rfl | rfl | rfl | rfl | rfl | rfl | rfl | rfl
  · exact absurd rfl h
  all_goals exact ⟨by simp [ctrlInstr], by simp [ctrlInstr]⟩

/-- Settles O12: bit 7 selects SRST and OP = 0 NOP, and every other operation is dropped while BUSY = 1 and accepted otherwise. -/
theorem ctrlWriteIsTakenInOrder : Obligations.CtrlWriteIsTakenInOrder := by
  intro s v rest hev
  have hstep : step s = exec (decodeCtrl v) { s with events := rest } := step_ctrl hev
  refine ⟨fun h7 => ?_, fun h7 hop => ?_, fun h7 hop hs => ?_, fun h7 hop hs => ?_⟩
  · rw [hstep, decodeCtrl_of_srst (and_srst_eq_iff.2 h7)]
    rfl
  · rw [hstep, decodeCtrl_of_bit7_clear h7, hop]
    rfl
  · obtain ⟨hnop, hsrst⟩ := ctrlInstr_operation (ctrlIgnored v) hop
    rw [hstep, decodeCtrl_of_bit7_clear h7]
    exact busyDropsEveryOperation _ { s with events := rest } hnop hsrst hs
  · obtain ⟨hnop, hsrst⟩ := ctrlInstr_operation (ctrlIgnored v) hop
    rw [hstep, decodeCtrl_of_bit7_clear h7]
    obtain ⟨t, hx, ht⟩ := exec_completesOrStarts (s := { s with events := rest }) hnop hsrst hs
    exact ⟨t, hx, ht.cmdDropped, ht.outcome⟩

/-! ### Completions at once (R214, R224) -/

/-- Settles O22: the three reserved operations are one completion with BAD_COMMAND. -/
theorem reservedOpsReportBadCommand : Obligations.ReservedOpsReportBadCommand := by
  intro s g i hi
  have hx : exec i s = .next (s.take fun u => u.finishPlain .badCommand) := by
    rcases hi with rfl | rfl | rfl <;> rfl
  refine ⟨fun hs => ?_, fun hs => ?_⟩
  · rw [hx, State.take_of_seq_idle hs, State.accept_finishPlain hs]
  · rw [hx, State.take_of_seq_busy hs]
    rfl

theorem exec_openSession_of_idle {s : State} (g : BitVec 4) (hs : s.seq = .idle) : exec (.openSession g) s = .next s.accept.runOpen :=
  congrArg _ (State.take_of_seq_idle hs)

/-- Settles O23: OPEN reads DEV_READY before it starts anything. -/
theorem openWhenReadyCompletesAtOnce : Obligations.OpenWhenReadyCompletesAtOnce := by
  intro s g hs hdev
  have hopen : s.accept.runOpen = s.accept.finishPlain .ok := if_pos hdev
  rw [exec_openSession_of_idle g hs, hopen, State.accept_finishPlain hs]

/-! ### SRST (R220, R222) -/

/-- Settles O60: the soft reset copies the parameters and the agents' side. -/
theorem softResetLeavesTheAgentsSide : Obligations.SoftResetLeavesTheAgentsSide := by
  intro s t g hx
  cases hx
  exact ⟨rfl, rfl, rfl, rfl⟩

theorem State.softReset_statusByte (s : State) : s.softReset.statusByte = if s.devReady then 0x04 else 0x00 := by
  cases hd : s.devReady <;> simp [State.statusByte, State.busy, hd]

/-- Outside STATUS and the command registers a soft reset reads as a cold reset does. -/
theorem State.memRead_softReset_of_reset (s : State) {a : Addr} (h1 : a ≠ 0x001) (hc : commandAddr a = false) :
    s.softReset.memRead a = (State.resetWith s.params).memRead a := by
  simp only [commandAddr, Bool.or_eq_false_iff, decide_eq_false_iff_not] at hc
  obtain ⟨⟨⟨⟨⟨h2, h3⟩, h4⟩, h5⟩, h6⟩, hpl⟩ := hc
  refine State.memRead_congr (absurd · h1) (absurd · h2) (absurd · h3) (absurd · h4) (absurd · h5) (absurd · h6) (fun _ => rfl)
    (fun _ => rfl) (fun _ => rfl) (fun _ => rfl) (fun _ => rfl) (fun _ => rfl) (fun _ => rfl) fun _ => ?_
  have hout : ¬ reqPl.holds a.toNat = true := by
    rw [reqPl_holds_iff]
    simp only [Bool.and_eq_false_iff, decide_eq_false_iff_not] at hpl
    omega
  rw [State.softReset_mem, Memory.get_keepOnly, if_neg hout]
  rfl

theorem State.memRead_softReset (s : State) (a : Addr) :
    s.softReset.memRead a =
      if a = 0x001 then (if s.devReady then 0x04 else 0x00)
      else if commandAddr a = true then s.memRead a
      else if a = 0x007 then 0xFF
      else 0x00 := by
  by_cases h1 : a = 0x001
  · rw [if_pos h1, h1]
    exact s.softReset_statusByte
  rw [if_neg h1]
  by_cases hc : commandAddr a = true
  · rw [if_pos hc, s.softReset_sameCommand.memRead hc]
  · have h2 : a ≠ 0x002 := by
      rintro rfl
      exact hc rfl
    rw [if_neg hc, s.memRead_softReset_of_reset h1 (Bool.not_eq_true _ ▸ hc), State.resetWith_memRead, if_neg h2]

/-- Settles O14: SRST never reads BUSY, STATUS keeps DEV_READY, and the rest is kept or reset by address. -/
theorem softResetKeepsOnlyTheCommandRegisters : Obligations.SoftResetKeepsOnlyTheCommandRegisters :=
  fun s _ => ⟨s.softReset, rfl, s.memRead_softReset, rfl, rfl, rfl, rfl, rfl, rfl, rfl⟩

/-! ### The start of an exchange (R193, R211) -/

/-- States with the same command read alike outside the registers that the start of an exchange touches and the buffer cells it fills. -/
theorem SameCommand.memRead_of_start {s t : State} (hc : SameCommand s t) {a : Addr} (ha : startAddr a = false)
    (h8 : a = 0x008 → t.resStatus = s.resStatus) (h9 : a = 0x009 → t.resPlen = s.resPlen)
    (hm : isBufferAddr a.toNat = true → t.mem.get a.toNat = s.mem.get a.toNat) : t.memRead a = s.memRead a := by
  simp only [startAddr, Bool.or_eq_false_iff, decide_eq_false_iff_not] at ha
  obtain ⟨⟨⟨⟨⟨⟨⟨⟨h1, h7⟩, hA⟩, hB⟩, hC⟩, hD⟩, hE⟩, h10⟩, h11⟩ := ha
  exact State.memRead_congr (absurd · h1) (fun _ => hc.cfg) (fun _ => hc.checkVal) (fun _ => hc.opc0) (fun _ => hc.opc1)
    (fun _ => hc.plen) (absurd · h7) h8 h9 (fun h => absurd h (not_or.2 ⟨hA, hB⟩)) (fun h => absurd h (not_or.2 ⟨hC, hD⟩))
    (absurd · hE) (fun h => absurd h (not_or.2 ⟨h10, h11⟩)) hm

/-- What the start of an exchange with a payload of this length leaves unchanged (R193). -/
structure StartLeaves (s t : State) (payloadLength : Nat) : Prop where
  memRead : ∀ a : Addr, startAddr a = false → ¬ (0x200 ≤ a.toNat ∧ a.toNat < 0x200 + 7 + payloadLength) → t.memRead a = s.memRead a
  devReady : t.devReady = s.devReady
  cmdDropped : t.cmdDropped = s.cmdDropped
  rxOvf : t.rxOvf = s.rxOvf
  tmr : t.tmr = s.tmr
  params : t.params = s.params
  events : t.events = s.events
  wire : t.wire = s.wire
  hostReads : t.hostReads = s.hostReads

/-- An exchange touches its own registers and the TX_FRAME cells of its frame (R193). -/
theorem State.startExchange_leaves {s : State} (hm : s.mem.wf = true) (phase : InitPhase) (lat : Latch) (pl : List Byte) :
    StartLeaves s (({ s.accept with iphase := phase } : State).startExchange lat pl) pl.length := by
  refine ⟨fun a ha hframe => ?_, rfl, rfl, rfl, rfl, rfl, rfl, rfl, rfl⟩
  have hcmd : SameCommand s (({ s.accept with iphase := phase } : State).startExchange lat pl) :=
    { State.startExchange_sameCommand (s := { s.accept with iphase := phase }) hm lat pl with }
  refine hcmd.memRead_of_start ha (fun _ => rfl) (fun _ => rfl) fun _ => Memory.get_writeBlock_outside hm ?_
  rw [requestFrame_length, show txFrame.base = 0x200 from rfl]
  omega

/-- Settles O24: OPEN starts the exchange of its own latch with no payload. -/
theorem openStartsTheGetInfoExchange : Obligations.OpenStartsTheGetInfoExchange := by
  intro s g hinv hs hdev
  have hopen : s.accept.runOpen = ({ s.accept with iphase := .getInfo } : State).startExchange getInfoLatch [] :=
    if_neg (by rw [State.accept_devReady, hdev]; exact Bool.false_ne_true)
  have hframe := State.startExchange_lastFrame (s := { s.accept with iphase := .getInfo }) hinv.mem_wf getInfoLatch (pl := []) (by simp)
  have hl := State.startExchange_leaves hinv.mem_wf .getInfo getInfoLatch []
  refine ⟨_, (exec_openSession_of_idle g hs).trans (congrArg _ hopen), rfl, rfl, rfl, rfl, hframe, rfl, rfl, rfl, rfl, rfl, rfl, hdev,
    hl.memRead, hl.cmdDropped, hl.rxOvf, hl.tmr, hl.params, hl.events, hl.wire, hl.hostReads⟩

/-- Settles O25: the command of its shape starts the exchange of its opcode and payload. -/
theorem catalogCommandStartsItsExchange : Obligations.CatalogCommandStartsItsExchange := by
  intro s c hm hs hshape
  have hp := hshape.le
  refine ⟨_, exec_catalog_of_shape hs hshape, ?_, ?_, rfl, rfl, rfl, rfl, rfl, rfl, rfl, rfl, rfl, rfl⟩
  · rw [← State.requestFrame_reqPayload hp]
    exact State.startExchange_lastFrame (s := { s.accept with iphase := .none }) hm _ s.reqPayload_length_le
  · rw [State.startExchange_txLen, State.reqPayload_length_of_le hp, BitVec.toNat_ofNat]
    omega

/-- Settles O26: EXECUTE of the command's opcode is the command, whose exchange starts from the accepted operation. -/
theorem catalogStartLeavesTheRestUnchanged : Obligations.CatalogStartLeavesTheRestUnchanged := by
  intro s t c i hinv hs hshape hi hx
  have hexec : exec i s = exec c.instr s := by
    rcases hi with rfl | ⟨g, rfl, h0, h1⟩
    · rfl
    · exact exec_execute_of_opcode g h0 h1
  rw [hexec, exec_catalog_of_shape hs hshape] at hx
  injection hx with hx
  subst hx
  have hl := State.startExchange_leaves hinv.mem_wf .none
    { op0 := c.op0, op1 := c.op1, chkEn := s.checkEn, chkVal := s.checkVal } s.reqPayload
  rw [State.reqPayload_length_of_le hshape.le] at hl
  exact ⟨hl.memRead, hl.devReady, hl.cmdDropped, hl.rxOvf, hl.tmr, hl.params, hl.events, hl.wire, hl.hostReads⟩

end Sys2Proof.Machine
end

section
/-! The exchange chapter's laws on a running exchange (42_exchange.md): the transmit phase (R196), the two reads (R197, R198), and the end of
an exchange (R199, R212, R213). -/

namespace Sys2Proof.Machine

/-! ### The transmit phase (R196) -/

theorem State.txStep_eq (s : State) :
    s.txStep = { s with
      wire := s.wire ++ [s.cell txFrame s.txIdx]
      txIdx := s.txIdx + 1
      seq := if s.txIdx + 1 = s.txLen.toNat then .wait1 else s.seq
      tmr := if s.txIdx + 1 = s.txLen.toNat then true else s.tmr } := by
  by_cases h : s.txIdx + 1 = s.txLen.toNat <;> simp [State.txStep, h]

theorem step_linkAccept {s : State} {rest : List Event} (hev : s.events = .linkAccept :: rest) (hs : s.seq = .tx) :
    step s = .next ({ s with events := rest } : State).txStep :=
  (step_agent hev rfl).trans (linkStep_of_tx hs)

/-- The part of the frame still to be sent begins with the byte at its index (20 R80). -/
theorem State.lastFrame_drop {s : State} {i : Nat} (hi : i < s.txLen.toNat) (hle : s.txLen.toNat ≤ 259) :
    s.lastFrame.drop i = s.cell txFrame i :: s.lastFrame.drop (i + 1) := by
  have hmin : i < min s.txLen.toNat txFrame.size := Nat.lt_min.2 ⟨hi, Nat.lt_of_lt_of_le hi hle⟩
  have hlen : i < s.lastFrame.length := by rwa [State.lastFrame, State.cells_length]
  rw [List.drop_eq_getElem_cons hlen, ← getD_eq_of_lt hlen]
  congr 1
  rw [State.lastFrame, State.byteAt_cells, if_pos hmin]

theorem State.lastFrame_length {s : State} (hle : s.txLen.toNat ≤ 259) : s.lastFrame.length = s.txLen.toNat := by
  rw [State.lastFrame, State.cells_length]
  exact Nat.min_eq_left hle

/-- With k + 1 bytes of the frame still to be sent, k + 1 LINK steps send them and arm the settle timer. -/
theorem run_transmit {k : Nat} {s : State} {rest : List Event} (hs : s.seq = .tx) (hle : s.txLen.toNat ≤ 259)
    (hk : s.txIdx + (k + 1) = s.txLen.toNat) (hev : s.events = List.replicate (k + 1) .linkAccept ++ rest) :
    Host.Core.run Sys2Proof.core (k + 1) s = .next { s with
      events := rest
      wire := s.wire ++ s.lastFrame.drop s.txIdx
      txIdx := s.txLen.toNat
      seq := .wait1
      tmr := true } := by
  have hdrop := State.lastFrame_drop (i := s.txIdx) (by omega) hle
  induction k generalizing s with
  | zero =>
    have hend : s.lastFrame.drop (s.txIdx + 1) = [] := by
      rw [List.drop_eq_nil_iff, State.lastFrame_length hle]
      exact hk.ge
    rw [run_succ 0 (step_linkAccept hev hs), State.txStep_eq, if_pos hk, if_pos hk, hdrop, hend]
    simp only [hk]
    rfl
  | succ k ih =>
    have hstep : step s = .next _ := step_linkAccept hev hs
    rw [State.txStep_eq, if_neg (by simp only; omega), if_neg (by simp only; omega)] at hstep
    have hrun := ih (s := { s with
      events := List.replicate (k + 1) .linkAccept ++ rest, wire := s.wire ++ [s.cell txFrame s.txIdx], txIdx := s.txIdx + 1 })
      hs hle (by simp only; omega) rfl (State.lastFrame_drop (by simp only; omega) hle)
    refine (run_succ (k + 1) hstep).trans (hrun.trans ?_)
    simp only [hdrop, List.append_assoc]
    rfl

/-- Settles O29: one LINK step is txStep, and the bytes still to be sent are counted down by induction. -/
theorem transmitPhaseSendsTheWholeFrame : Obligations.TransmitPhaseSendsTheWholeFrame := by
  refine ⟨fun s rest hev hs => ?_, fun s rest hinv hs hev => ?_⟩
  · rw [step_linkAccept hev hs, State.txStep_eq]
    simp only [hs]
    rfl
  · have hpending := hinv.tx_pending hs
    have hrange := hinv.txLen_range
    obtain ⟨k, hk⟩ : ∃ k, s.txLen.toNat - s.txIdx = k + 1 := ⟨s.txLen.toNat - s.txIdx - 1, by omega⟩
    rw [hk] at hev ⊢
    exact run_transmit hs (by omega) (by omega) hev

/-! ### The end of an exchange (R199) -/

/-- The completion that ends an exchange with the decode `r`: DEV_READY is set by the OK of OPEN's SetLed exchange (R199, R213). -/
def State.endWith (s : State) (r : DecodeResult) : State :=
  ({ s.decodeCommit r with devReady := if s.iphase = .setLed ∧ r.code = .ok then true else s.devReady } : State).finishDecoded r.code
    s.lat.op0 s.lat.op1

/-- An exchange ends with its completion, unless it is OPEN's GetInfo exchange and ended OK. -/
theorem State.exchangeEnd_eq_endWith {s : State} {r : DecodeResult} (h : ¬ (s.iphase = .getInfo ∧ r.code = .ok)) :
    s.exchangeEnd r = s.endWith r := by
  rcases s.exchangeEnd_cases r with ⟨hp, hc, -⟩ | ⟨hp, hc, he⟩ | ⟨hno, he⟩
  · exact absurd ⟨hp, hc⟩ h
  · rw [he, State.endWith, if_pos ⟨hp, hc⟩, hc]
    rfl
  · have hready : ¬ (s.iphase = .setLed ∧ r.code = .ok) := fun ⟨hp, hc⟩ => hno ⟨by simp [hp], hc⟩
    rw [he, State.endWith, if_neg hready]
    rfl

/-- OPEN's GetInfo exchange that ends OK commits its decode and starts SetLed (R212). -/
theorem State.exchangeEnd_of_getInfo_ok {s : State} {r : DecodeResult} (hp : s.iphase = .getInfo) (hc : r.code = .ok) :
    s.exchangeEnd r = ({ s.decodeCommit r with seq := .idle, tmr := false } : State).startSetLed :=
  if_pos ⟨hp, hc⟩

/-- A zero token is the only OK decode that sets NO_CARD (60 R242). -/
theorem State.endWith_noCard {s : State} (hm : s.mem.wf = true) {r : DecodeResult} (hl : r.pl.length ≤ 251)
    (htoken : r.code = .ok → s.lat.op0 = 0x01 → s.lat.op1 = 0x0C → r.pl.length = 5) :
    (s.endWith r).noCard = true ↔
      r.code = .ok ∧ s.lat.op0 = 0x01 ∧ s.lat.op1 = 0x0C ∧ r.pl = [0x00, 0x00, 0x00, 0x00, 0x00] := by
  rw [State.endWith, State.finishDecoded_noCard, noCardFlag_some]
  refine and_congr_right fun hok => and_congr_right fun h0 => and_congr_right fun h1 => ?_
  have hcells := State.decodeCommit_cells hm hl
  rw [htoken hok h0 h1] at hcells
  exact iff_of_eq (congrArg (· = [0x00, 0x00, 0x00, 0x00, 0x00]) hcells)

/-! ### The TIMER's reads (R197, R198) -/

theorem State.Inv.tmr_of_waits {s : State} (h : s.Inv) (hs : s.seq.waits = true) : s.tmr = true :=
  h.tmr_armed.trans hs

theorem step_timerExpire_of_wait1 {s : State} {rest : List Event} (h : s.Inv) (hev : s.events = .timerExpire :: rest)
    (hs : s.seq = .wait1) : step s = .next ({ s with events := rest } : State).firstRead :=
  (step_agent hev rfl).trans (timerStep_of_wait1 (h.tmr_of_waits (hs ▸ rfl)) hs)

theorem step_timerExpire_of_wait2 {s : State} {rest : List Event} (h : s.Inv) (hev : s.events = .timerExpire :: rest)
    (hs : s.seq = .wait2) : step s = .next ({ s with events := rest } : State).secondRead :=
  (step_agent hev rfl).trans (timerStep_of_wait2 (h.tmr_of_waits (hs ▸ rfl)) hs)

/-- A TIMER step is one of the two reads (60 R250). -/
theorem step_timerExpire_cases {s t : State} {rest : List Event} (hev : s.events = .timerExpire :: rest) (h : step s = .next t) :
    (s.seq = .wait1 ∧ t = ({ s with events := rest } : State).firstRead) ∨
      (s.seq = .wait2 ∧ t = ({ s with events := rest } : State).secondRead) := by
  rw [step_agent hev rfl] at h
  change timerStep _ = _ at h
  cases hen : enabled .timerExpire s with
  | false =>
    rw [timerStep_of_not_enabled ((enabled_withEvents _ s rest).trans hen)] at h
    cases h
  | true =>
    obtain ⟨ht, hs | hs⟩ := enabled_timerExpire.1 hen
    · rw [timerStep_of_wait1 (s := { s with events := rest }) ht hs] at h
      injection h with h
      exact .inl ⟨hs, h.symm⟩
    · rw [timerStep_of_wait2 (s := { s with events := rest }) ht hs] at h
      injection h with h
      exact .inr ⟨hs, h.symm⟩

theorem State.Inv.read1Max_pos {s : State} (h : s.Inv) : 1 ≤ s.params.read1Max := by
  have := h.params_legal
  simp only [Params.wellFormed, Bool.and_eq_true, decide_eq_true_eq] at this
  exact this.1

/-- A read of an empty RXQ changes nothing (20 R83, R85). -/
theorem State.receive_of_empty {s : State} (max : Nat) (h : s.rxq = []) : s.receive max = s := by
  cases s
  cases h
  simp [State.receive, State.rxReadBytes, State.rxReadRest, State.captureAppend]

theorem State.receive_raw {s : State} (h : s.Inv) (max : Nat) : (s.receive max).raw = (s.raw ++ s.rxq.take max).take 260 :=
  (s.rxReadRest max).captureAppend_raw _ h.mem_wf h.rxCount_le

theorem State.receive_get_outside {s : State} (h : s.Inv) (max : Nat) {x : Nat} (hx : x < 0x400 ∨ 0x504 ≤ x) :
    (s.receive max).mem.get x = s.mem.get x := by
  refine (s.rxReadRest max).captureAppend_get_outside _ h.mem_wf h.rxCount_le ?_
  rw [← Bool.not_eq_true, rxBuf_holds_iff]
  omega

theorem State.firstRead_of_empty {s : State} (h : s.rxq = []) : s.firstRead = s.endWith (decodeFail .timeout) := by
  have hread : s.rxReadBytes s.params.read1Max = [] := by rw [State.rxReadBytes, h, List.take_nil]
  rw [State.firstRead, if_pos hread, State.receive_of_empty _ h, State.exchangeEnd_eq_endWith (by simp)]

theorem State.firstRead_of_bytes {s : State} (hinv : s.Inv) (h : s.rxq ≠ []) :
    s.firstRead = { s.receive s.params.read1Max with seq := .wait2 } := by
  refine if_neg fun hread => ?_
  have hpos := hinv.read1Max_pos
  rcases List.take_eq_nil_iff.1 hread with h0 | h0
  · omega
  · exact h h0

theorem State.raw_of_no_capture {s : State} (h : s.rxCount = 0) : s.raw = [] := by
  rw [State.raw, h]
  rfl

/-- Settles O32: nothing is captured before the first read, which returns nothing exactly when RXQ is empty. -/
theorem firstReadCapturesOrTimesOut : Obligations.FirstReadCapturesOrTimesOut := by
  intro s rest hinv hev hs
  have hi := hinv.withEvents rest
  have hstep := step_timerExpire_of_wait1 hinv hev hs
  have hempty : s.rxCount = 0 := hinv.capture_empty (.inr hs)
  refine ⟨fun hq => ?_, fun hq => ?_⟩
  · rw [State.firstRead_of_empty (s := { s with events := rest }) hq] at hstep
    exact ⟨_, hstep, rfl, rfl, rfl, rfl, rfl, hempty, rfl, rfl, rfl, rfl, if_neg (by simp), hq, rfl, rfl⟩
  · obtain ⟨hdone, hcode, -⟩ := hinv.busy_no_result (by simp [hs])
    rw [State.firstRead_of_bytes hi hq] at hstep
    refine ⟨_, hstep, rfl, ?_, State.receive_rxq _ _, ?_, ?_, ?_, State.receive_iphase _ _, State.receive_lat _ _, State.receive_wire _ _⟩
    · exact (State.receive_tmr _ _).trans (hinv.tmr_of_waits (hs ▸ rfl))
    · have hraw := State.receive_raw hi s.params.read1Max
      rw [State.raw_of_no_capture (s := { s with events := rest }) hempty] at hraw
      exact hraw
    · exact (State.receive_resCode _ _).trans hcode
    · exact (State.receive_done _ _).trans hdone

/-- The context of the decode is read from LAT and CFG, which a read leaves alone (R198). -/
theorem State.receive_exchangeCtx (s : State) (max : Nat) : (s.receive max).exchangeCtx = s.exchangeCtx := by
  simp [State.exchangeCtx, State.verifyCsum]

/-- The second read ends the exchange with the decode of the whole capture (R198). -/
theorem State.secondRead_eq {s : State} {r : DecodeResult} (h : s.Inv)
    (hr : r = decodeResponse s.exchangeCtx ((s.raw ++ s.rxq.take 1000).take 260)) :
    s.secondRead = (s.receive 1000).exchangeEnd r := by
  rw [hr, ← State.receive_raw h, ← s.receive_exchangeCtx 1000]
  rfl

/-- The result registers of `t` show the decode `r`, with the RES_PL cells past its payload those of `s` (40 R151). -/
structure ShowsResult (s t : State) (r : DecodeResult) : Prop where
  status : t.resStatus = r.status
  plen : t.resPlen.toNat = r.pl.length
  payload : ∀ i, i < r.pl.length → t.cell resPl i = byteAt r.pl i
  past : ∀ i, r.pl.length ≤ i → i < 251 → t.cell resPl i = s.cell resPl i
  csumOk : t.csumOk = r.csumOk

theorem State.decodeCommit_shows {s : State} (h : s.Inv) (max : Nat) {r : DecodeResult} (hl : r.pl.length ≤ 251) :
    ShowsResult s ((s.receive max).decodeCommit r) r where
  status := rfl
  plen := by
    rw [State.decodeCommit_resPlen, BitVec.toNat_ofNat]
    omega
  payload i hi := by rw [State.cell_decodeCommit (h.receive_idleInv max).mem_wf, if_pos hi]
  past i hi _ := by
    rw [State.cell_decodeCommit (h.receive_idleInv max).mem_wf, if_neg (Nat.not_lt.2 hi)]
    exact State.receive_get_outside h max (.inr (by simp only [resPl]; omega))
  csumOk := rfl

/-- RX_BUF lies below RES_PL, so a commit leaves the capture (20 R76). -/
theorem State.decodeCommit_raw {s : State} (hm : s.mem.wf = true) (r : DecodeResult) : (s.decodeCommit r).raw = s.raw := by
  refine State.cells_congr fun a ha => Memory.get_writeBlock_outside hm (.inl ?_)
  rw [rxBuf_holds_iff] at ha
  simp only [resPl]
  omega

/-- The step from `s` to `t` is a second read that completes with the decode `r` of what it captured (R198, R199). -/
structure CompletesWith (s t : State) (r : DecodeResult) : Prop extends ShowsResult s t r where
  raw : t.raw = (s.raw ++ s.rxq.take 1000).take 260
  rxq : t.rxq = s.rxq.drop 1000
  resCode : t.resCode = r.code
  noCard : t.noCard = true ↔ r.code = .ok ∧ s.lat.op0 = 0x01 ∧ s.lat.op1 = 0x0C ∧ r.pl = [0x00, 0x00, 0x00, 0x00, 0x00]
  seq : t.seq = .idle
  tmr : t.tmr = false
  iphase : t.iphase = .none
  done : t.done = true
  devReady : t.devReady = if s.iphase = .setLed ∧ r.code = .ok then true else s.devReady

theorem State.secondRead_completes {s : State} {r : DecodeResult} (h : s.Inv)
    (hr : r = decodeResponse s.exchangeCtx ((s.raw ++ s.rxq.take 1000).take 260)) (hend : ¬ (s.iphase = .getInfo ∧ r.code = .ok)) :
    CompletesWith s s.secondRead r := by
  have hl : r.pl.length ≤ 251 := hr ▸ decodeResponse_pl_length_le _ _
  have htoken : r.code = .ok → s.lat.op0 = 0x01 → s.lat.op1 = 0x0C → r.pl.length = 5 := by
    subst hr
    exact decodeResponse_token_length
  rw [State.secondRead_eq h hr, State.exchangeEnd_eq_endWith (by simpa using hend)]
  have hshows := State.decodeCommit_shows h 1000 hl
  have hm := (h.receive_idleInv 1000).mem_wf
  have hraw := State.receive_raw h 1000
  have hrxq := s.receive_rxq 1000
  have hlat := s.receive_lat 1000
  have hphase := s.receive_iphase 1000
  have hready := s.receive_devReady 1000
  generalize s.receive 1000 = u at hshows hm hraw hrxq hlat hphase hready ⊢
  exact { hshows with
    raw := (State.decodeCommit_raw hm r).trans hraw
    rxq := hrxq
    resCode := rfl
    noCard := by
      rw [← hlat] at htoken ⊢
      exact State.endWith_noCard hm hl htoken
    seq := rfl, tmr := rfl, iphase := rfl, done := rfl
    devReady := by
      rw [← hphase, ← hready]
      rfl }

/-- Settles O33: an EXECUTE's exchange is not OPEN's, so its end is the completion with the decode. -/
theorem secondReadDecodesAndCompletes : Obligations.SecondReadDecodesAndCompletes := by
  intro s rest r hinv hev hs hp hr
  have hc := State.secondRead_completes (s := { s with events := rest }) (hinv.withEvents rest) hr (by simp [hp])
  refine ⟨_, step_timerExpire_of_wait2 hinv hev hs, hc.raw, hc.rxq, hc.resCode, hc.status, hc.plen, hc.payload, hc.past, hc.csumOk,
    hc.noCard, hc.seq, hc.tmr, hc.iphase, hc.done, ?_⟩
  rw [hc.devReady, if_neg (by simp [hp])]

/-! ### OPEN's two exchanges (R212, R213) -/

/-- The last frame reads the same where TX_FRAME and TXLEN are the same. -/
theorem SameFrame.lastFrame {s t : State} (h : SameFrame s t) : t.lastFrame = s.lastFrame := by
  rw [State.lastFrame, State.lastFrame, h.txLen]
  refine State.cells_congr fun a ha => ?_
  obtain ⟨hlo, hhi⟩ := (txFrame.holds_iff a).1 ha
  obtain ⟨i, rfl⟩ := Nat.exists_eq_add_of_le hlo
  exact h.cells i (Nat.lt_of_add_lt_add_left hhi)

/-- Settles O35: both ends of OPEN are the completion, whose latched opcode is not ReadToken's and which builds no frame. -/
theorem openEndsWithDevReadyOnlyOnSuccess : Obligations.OpenEndsWithDevReadyOnlyOnSuccess := by
  intro s rest r hinv hev hs hr hend
  have hi := hinv.withEvents rest
  have hgo : ¬ (s.iphase = .getInfo ∧ r.code = .ok) := by
    rintro ⟨hp, hok⟩
    rcases hend with ⟨hp', -⟩ | ⟨-, hno⟩
    · cases hp.symm.trans hp'
    · exact hno hok
  have hphase : s.iphase ≠ .none := by
    rcases hend with ⟨hp, -⟩ | ⟨hp, -⟩
    · rw [hp]
      decide
    · exact hp
  have hlat : s.lat.op1 ≠ 0x0C := by
    cases hp : s.iphase with
    | none => exact absurd hp hphase
    | getInfo => rw [hinv.iphase_getInfo hp]; decide
    | setLed => rw [hinv.iphase_setLed hp]; decide
  have hc := State.secondRead_completes (s := { s with events := rest }) hi hr hgo
  have hready : ({ s with events := rest } : State).secondRead.devReady = decide (r.code = .ok) := by
    rw [hc.devReady]
    rcases hend with ⟨hp, hok⟩ | ⟨hp, hno⟩
    · rw [if_pos ⟨hp, hok⟩, hok]
      rfl
    · rw [if_neg fun h => hno h.2, decide_eq_false hno]
      exact (hinv.iphase_busy hp).2
  have hframe : ({ s with events := rest } : State).secondRead.lastFrame = s.lastFrame := by
    rcases State.secondRead_frame hi with hf | ⟨-, -, htx⟩
    · exact hf.lastFrame
    · cases htx.symm.trans hc.seq
  have hnocard : ({ s with events := rest } : State).secondRead.noCard = false := by
    rw [← Bool.not_eq_true, hc.noCard]
    exact fun h => hlat h.2.2.1
  exact ⟨_, step_timerExpire_of_wait2 hinv hev hs, hready, hc.resCode, hc.status, hc.plen, hc.payload, hc.past, hc.csumOk, hnocard,
    hc.raw, hc.rxq, hc.done, hc.seq, hc.tmr, hc.iphase, hframe, State.secondRead_wire _⟩

/-- SetLed's frame fills the first eight cells of TX_FRAME (R212). -/
theorem State.startSetLed_get {s : State} (hm : s.mem.wf = true) {x : Nat} (hx : x < 0x200 ∨ 0x208 ≤ x) :
    s.startSetLed.mem.get x = s.mem.get x :=
  Memory.get_writeBlock_outside hm hx

/-- One cell of RX_BUF after a read: the bytes of RXQ that it captured there, or the old byte (20 R83, R85). -/
theorem State.cell_receive {s : State} (h : s.Inv) (max : Nat) {i : Nat} (hi : i < 260) :
    (s.receive max).cell rxBuf i =
      if s.rxCount.toNat ≤ i ∧ i < s.rxCount.toNat + (s.rxq.take max).length then byteAt s.rxq (i - s.rxCount.toNat)
      else s.cell rxBuf i := by
  obtain ⟨-, hcell, -, -⟩ := captureAppendSaturatesAt260 (s.rxReadRest max) (s.rxReadBytes max) h.mem_wf h.rxCount_le
  refine (hcell i hi).trans ?_
  by_cases hin : s.rxCount.toNat ≤ i ∧ i < s.rxCount.toNat + (s.rxq.take max).length
  · have hmax : i - s.rxCount.toNat < max := by
      have := List.length_take_le max s.rxq
      omega
    rw [if_pos hin]
    exact (if_pos hin).trans ((byteAt_take _ _ _).trans (if_pos hmax))
  · rw [if_neg hin]
    exact if_neg hin

/-- The second read of OPEN's GetInfo exchange, when its decode is OK, starts SetLed's exchange (R198, R199, R212). -/
theorem State.secondRead_of_getInfo_ok {s : State} {r : DecodeResult} (h : s.Inv)
    (hr : r = decodeResponse s.exchangeCtx ((s.raw ++ s.rxq.take 1000).take 260)) (hp : s.iphase = .getInfo) (hok : r.code = .ok) :
    s.secondRead = ({ (s.receive 1000).decodeCommit r with seq := .idle, tmr := false } : State).startSetLed := by
  rw [State.secondRead_eq h hr, State.exchangeEnd_of_getInfo_ok ((s.receive_iphase 1000).trans hp) hok]

/-- Settles O34: the GetInfo decode is committed below the start of SetLed's exchange, whose frame touches neither RES_PL nor RX_BUF. -/
theorem openGoesOnWithSetLedGreen : Obligations.OpenGoesOnWithSetLedGreen := by
  intro s rest r hinv hev hs hp hr hok
  have hi := hinv.withEvents rest
  have hlat : s.lat = getInfoLatch := hinv.iphase_getInfo hp
  have hctx : r = decodeResponse s.exchangeCtx ((s.raw ++ s.rxq.take 1000).take 260) := by
    rw [hr, State.exchangeCtx, hlat]
    rfl
  obtain ⟨hdone, hcode, hnocard⟩ := hinv.busy_no_result (by simp [hs])
  have hready := (hinv.iphase_busy (by simp [hp])).2
  have hstep := step_timerExpire_of_wait2 hinv hev hs
  rw [State.secondRead_of_getInfo_ok (s := { s with events := rest }) hi hctx hp hok] at hstep
  have hl : r.pl.length ≤ 251 := hr ▸ decodeResponse_pl_length_le _ _
  have hm := (hi.receive_idleInv 1000).mem_wf
  have hmc := Memory.writeBlock_wf resPl.base r.pl hm
  have hshows := State.decodeCommit_shows hi 1000 hl
  have hget {x : Nat} (hx : x < 0x200 ∨ 0x208 ≤ x) := State.startSetLed_get
    (s := { (({ s with events := rest } : State).receive 1000).decodeCommit r with seq := .idle, tmr := false }) hmc hx
  have hframe := State.startExchange_lastFrame (s := (({ s with events := rest } : State).receive 1000).decodeCommit r) hmc setLedLatch
    (pl := [0x02]) (by decide)
  have hsame := (State.receive_sameFrame hi 1000).trans (State.decodeCommit_sameFrame hm r)
  refine ⟨_, hstep, rfl, rfl, rfl, rfl, rfl, hframe, rfl, ?_, ?_, ?_, ?_, ?_, hshows.status, hshows.plen, hshows.csumOk,
    fun i hi => ?_, fun i hi hlt => ?_, fun i hlt => ?_, fun i hi hlt => ?_, ?_⟩
  · exact (State.receive_done _ _).trans hdone
  · exact (State.receive_resCode _ _).trans hcode
  · exact (State.receive_devReady _ _).trans hready
  · exact (State.receive_noCard _ _).trans hnocard
  · simp [State.flush]
  · exact (hget (.inr (by simp only [resPl]; omega))).trans (hshows.payload i hi)
  · exact (hget (.inr (by simp only [resPl]; omega))).trans (hshows.past i hi hlt)
  · refine (hget (.inr (by simp only [rxBuf]; omega))).trans (Eq.trans ?_ (State.cell_receive hi 1000 hlt))
    exact Memory.get_writeBlock_outside hm (.inl (by simp only [rxBuf, resPl]; omega))
  · exact (hget (.inr (by simp only [txFrame]; omega))).trans (hsame.cells i hlt)
  · exact State.receive_wire _ _

end Sys2Proof.Machine
end

section
/-! The exchange chapter's laws across its steps (42_exchange.md): what cancels an exchange (R201), what a TIMER step leaves unchanged (R197
to R199), and a whole exchange from EXECUTE to its completion (R192 to R199). -/

namespace Sys2Proof.Machine

/-! ### What cancels an exchange (R201) -/

/-- The second read completes its operation or starts OPEN's second exchange (R199, R212). -/
theorem State.secondRead_cases {s : State} (h : s.Inv) :
    (∃ r, r.code ≠ .none ∧ CompletesWith s s.secondRead r) ∨
      (s.iphase = .getInfo ∧ s.secondRead.seq = .tx ∧ s.secondRead.iphase = .setLed) := by
  obtain ⟨r, hr⟩ : ∃ r, r = decodeResponse s.exchangeCtx ((s.raw ++ s.rxq.take 1000).take 260) := ⟨_, rfl⟩
  by_cases hgo : s.iphase = .getInfo ∧ r.code = .ok
  · rw [State.secondRead_of_getInfo_ok h hr hgo.1 hgo.2]
    exact .inr ⟨hgo.1, rfl, rfl⟩
  · exact .inl ⟨r, hr ▸ decodeResponse_code_ne_none _ _, State.secondRead_completes h hr hgo⟩

/-- Settles O30: by the step's inversion, while BUSY = 1 only LINK's last byte and the TIMER change seq, and no event rewrites LAT before. -/
theorem onlyAResetCancelsAnExchange : Obligations.OnlyAResetCancelsAnExchange := by
  intro s t e rest hinv hev h hs hsrst hcold
  rcases step_cases h with ⟨hnil, -⟩ | ⟨e', rest', hev', hcase⟩
  · rw [hnil] at hev
    cases hev
  obtain ⟨rfl, rfl⟩ := List.cons.inj (hev.symm.trans hev')
  have hi := hinv.withEvents rest
  rcases hcase with ⟨v, rfl, hx⟩ | ⟨a, v, -, -, rfl⟩ | ⟨a, -, rfl⟩ | ⟨b, -, rfl⟩ | ⟨rfl, hq, rfl⟩ | ⟨rfl, -, hq, rfl⟩ |
    ⟨rfl, -, hq, rfl⟩ | ⟨he, -⟩
  · rcases exec_leaves hx with rfl | ⟨-, g, hg⟩ | rfl | ⟨hidle, -⟩
    · exact .inl ⟨.inl rfl, rfl, rfl⟩
    · exact absurd rfl (hsrst v (getLsbD_of_decodeCtrl_srst hg))
    · exact .inl ⟨.inl rfl, rfl, rfl⟩
    · exact absurd hidle hs
  · have hin := State.memWrite_sameInside { s with events := rest } a v
    exact .inl ⟨.inl hin.seq, hin.lat, hin.iphase⟩
  · exact .inl ⟨.inl rfl, rfl, rfl⟩
  · exact .inl ⟨.inl (State.deliver_seq _ b), State.deliver_lat _ b, State.deliver_iphase _ b⟩
  · rw [State.txStep_eq]
    refine .inl ⟨?_, rfl, rfl⟩
    by_cases hlast : s.txIdx + 1 = s.txLen.toNat
    · exact .inr (.inl ⟨hq, rfl, if_pos hlast⟩)
    · exact .inl (if_neg hlast)
  · by_cases hrxq : s.rxq = []
    · rw [State.firstRead_of_empty (s := { s with events := rest }) hrxq]
      exact .inr (.inl ⟨by rw [hq]; rfl, rfl, rfl, rfl, by simp [State.endWith]⟩)
    · rw [State.firstRead_of_bytes hi hrxq]
      exact .inl ⟨.inr (.inr ⟨hq, rfl, rfl⟩), State.receive_lat _ _, State.receive_iphase _ _⟩
  · rcases State.secondRead_cases hi with ⟨r, hcode, hc⟩ | ⟨hp, htx, hphase⟩
    · exact .inr (.inl ⟨by rw [hq]; rfl, rfl, hc.seq, hc.done, hc.resCode.trans_ne hcode⟩)
    · exact .inr (.inr ⟨hq, rfl, hp, htx, hphase⟩)
  · exact absurd he hcold

/-! ### The frame of a TIMER step (R197 to R199, 20 R79) -/

/-- The sticky flags, the parameters and the agents' side are the same in both states. -/
structure SameOutside (s t : State) : Prop where
  cmdDropped : t.cmdDropped = s.cmdDropped
  rxOvf : t.rxOvf = s.rxOvf
  params : t.params = s.params
  events : t.events = s.events
  wire : t.wire = s.wire
  hostReads : t.hostReads = s.hostReads

theorem SameOutside.trans {s t u : State} (h : SameOutside s t) (h' : SameOutside t u) : SameOutside s u where
  cmdDropped := h'.cmdDropped.trans h.cmdDropped
  rxOvf := h'.rxOvf.trans h.rxOvf
  params := h'.params.trans h.params
  events := h'.events.trans h.events
  wire := h'.wire.trans h.wire
  hostReads := h'.hostReads.trans h.hostReads

theorem State.receive_sameOutside (s : State) (max : Nat) : SameOutside s (s.receive max) :=
  ⟨s.receive_cmdDropped max, s.receive_rxOvf max, s.receive_params max, s.receive_events max, s.receive_wire max,
    s.receive_hostReads max⟩

theorem State.exchangeEnd_sameOutside (s : State) (r : DecodeResult) : SameOutside s (s.exchangeEnd r) := by
  rcases s.exchangeEnd_cases r with ⟨-, -, h⟩ | ⟨-, -, h⟩ | ⟨-, h⟩ <;> rw [h] <;> exact ⟨rfl, rfl, rfl, rfl, rfl, rfl⟩

theorem State.firstRead_sameOutside (s : State) : SameOutside s s.firstRead := by
  have hr := s.receive_sameOutside s.params.read1Max
  rcases s.firstRead_cases with h | h <;> rw [h]
  · exact hr.trans (State.exchangeEnd_sameOutside _ _)
  · exact { hr with }

theorem State.secondRead_sameOutside (s : State) : SameOutside s s.secondRead :=
  (s.receive_sameOutside Config.read2Max).trans (State.exchangeEnd_sameOutside _ _)

/-- A completion touches STATUS, the result registers, STATE and the RES_PL cells of the payload (60 R240, 40 R151). -/
theorem State.memRead_endWith {s : State} (hm : s.mem.wf = true) (r : DecodeResult) {a : Addr} (hr : resultAddr a = false)
    (hE : a ≠ 0x00E) (hpl : ¬ (0x600 ≤ a.toNat ∧ a.toNat < 0x600 + r.pl.length)) : (s.endWith r).memRead a = s.memRead a := by
  simp only [resultAddr, Bool.or_eq_false_iff, decide_eq_false_iff_not] at hr
  obtain ⟨⟨⟨h1, h7⟩, h8⟩, h9⟩ := hr
  refine State.memRead_congr (absurd · h1) (fun _ => rfl) (fun _ => rfl) (fun _ => rfl) (fun _ => rfl) (fun _ => rfl) (absurd · h7)
    (absurd · h8) (absurd · h9) (fun _ => rfl) (fun _ => rfl) (absurd · hE) (fun _ => rfl) fun _ => ?_
  exact (Memory.get_writeBlock hm resPl.base r.pl a.toNat).trans (if_neg hpl)

/-- The start of OPEN's second exchange touches what the commit and the start of any exchange touch (R199, R212). -/
theorem State.memRead_exchangeEnd_of_start {s : State} (hm : s.mem.wf = true) {r : DecodeResult} (hp : s.iphase = .getInfo)
    (hok : r.code = .ok) {a : Addr} (ha : startAddr a = false) (h8 : a ≠ 0x008) (h9 : a ≠ 0x009)
    (hpl : ¬ (0x600 ≤ a.toNat ∧ a.toNat < 0x600 + r.pl.length)) (hframe : ¬ (0x200 ≤ a.toNat ∧ a.toNat < 0x208)) :
    (s.exchangeEnd r).memRead a = s.memRead a := by
  refine (State.exchangeEnd_sameCommand hm r).memRead_of_start ha (absurd · h8) (absurd · h9) fun _ => ?_
  have hcommit : (s.decodeCommit r).mem.get a.toNat = s.mem.get a.toNat := (Memory.get_writeBlock hm _ _ _).trans (if_neg hpl)
  rw [State.exchangeEnd_of_getInfo_ok hp hok]
  exact (State.startSetLed_get (Memory.writeBlock_wf _ _ hm) (by omega)).trans hcommit

/-- STATUS shows BUSY only, so a change of seq within BUSY = 1 shows in STATE alone (10 R25, R40). -/
theorem State.memRead_withSeq {s : State} {q : SeqState} (hs : s.seq ≠ .idle) (hq : q ≠ .idle) {a : Addr} (hE : a ≠ 0x00E) :
    ({ s with seq := q } : State).memRead a = s.memRead a := by
  refine State.memRead_congr (fun _ => ?_) (fun _ => rfl) (fun _ => rfl) (fun _ => rfl) (fun _ => rfl) (fun _ => rfl) (fun _ => rfl)
    (fun _ => rfl) (fun _ => rfl) (fun _ => rfl) (fun _ => rfl) (absurd · hE) (fun _ => rfl) fun _ => rfl
  simp [State.statusByte, State.busy, hs, hq]

theorem State.memRead_firstRead_of_empty {s : State} (hm : s.mem.wf = true) (h : s.rxq = []) {a : Addr} (hr : resultAddr a = false)
    (hE : a ≠ 0x00E) : s.firstRead.memRead a = s.memRead a := by
  rw [State.firstRead_of_empty h]
  exact State.memRead_endWith hm _ hr hE (by simp)

/-- The frame of a read, with the cells captured in terms of the RX_COUNT it leaves (20 R83, R85). -/
theorem State.memRead_receive_of_outside {s : State} (h : s.Inv) (max : Nat) {a : Addr} (hc : captureAddr a = false)
    (hout : ¬ (0x400 + s.rxCount.toNat ≤ a.toNat ∧ a.toNat < 0x400 + (s.receive max).rxCount.toNat)) :
    (s.receive max).memRead a = s.memRead a := by
  rw [State.receive_rxCount h.rxCount_le] at hout
  exact State.memRead_receive h.mem_wf h.rxCount_le max hc hout

theorem State.memRead_firstRead_of_bytes {s : State} (h : s.Inv) (hs : s.seq ≠ .idle) (hq : s.rxq ≠ []) {a : Addr}
    (hc : captureAddr a = false) (hE : a ≠ 0x00E)
    (hout : ¬ (0x400 + s.rxCount.toNat ≤ a.toNat ∧ a.toNat < 0x400 + s.firstRead.rxCount.toNat)) :
    s.firstRead.memRead a = s.memRead a := by
  rw [State.firstRead_of_bytes h hq] at hout ⊢
  exact (State.memRead_withSeq (by rwa [State.receive_seq]) (by decide) hE).trans (State.memRead_receive_of_outside h _ hc hout)

theorem State.firstRead_keepsLatch {s : State} (h : s.Inv) : s.firstRead.txIdx = s.txIdx ∧ s.firstRead.lat = s.lat := by
  by_cases hq : s.rxq = []
  · rw [State.firstRead_of_empty hq]
    exact ⟨rfl, rfl⟩
  · rw [State.firstRead_of_bytes h hq]
    exact ⟨s.receive_txIdx _, s.receive_lat _⟩

/-- What a second read that completes with the decode `r` leaves unchanged. -/
theorem State.memRead_secondRead_of_end {s : State} {r : DecodeResult} (h : s.Inv)
    (hr : r = decodeResponse s.exchangeCtx ((s.raw ++ s.rxq.take 1000).take 260)) (hend : ¬ (s.iphase = .getInfo ∧ r.code = .ok))
    {a : Addr} (hc : captureAddr a = false) (hres : resultAddr a = false) (hE : a ≠ 0x00E)
    (hout : ¬ (0x400 + s.rxCount.toNat ≤ a.toNat ∧ a.toNat < 0x400 + s.secondRead.rxCount.toNat))
    (hpl : ¬ (0x600 ≤ a.toNat ∧ a.toNat < 0x600 + r.pl.length)) : s.secondRead.memRead a = s.memRead a := by
  rw [State.secondRead_eq h hr, State.exchangeEnd_eq_endWith (by rwa [State.receive_iphase])] at hout ⊢
  exact (State.memRead_endWith (h.receive_idleInv 1000).mem_wf r hres hE hpl).trans (State.memRead_receive_of_outside h 1000 hc hout)

theorem captureAddr_of_startAddr {a : Addr} (h : startAddr a = false) : captureAddr a = false := by
  simp only [startAddr, captureAddr, Bool.or_eq_false_iff] at h ⊢
  obtain ⟨⟨⟨⟨⟨⟨⟨-, hA⟩, hB⟩, -⟩, -⟩, -⟩, h10⟩, h11⟩ := h
  exact ⟨⟨⟨hA, hB⟩, h10⟩, h11⟩

/-- What a second read that starts OPEN's second exchange leaves unchanged. -/
theorem State.memRead_secondRead_of_start {s : State} {r : DecodeResult} (h : s.Inv)
    (hr : r = decodeResponse s.exchangeCtx ((s.raw ++ s.rxq.take 1000).take 260)) (hp : s.iphase = .getInfo) (hok : r.code = .ok)
    {a : Addr} (ha : startAddr a = false) (h8 : a ≠ 0x008) (h9 : a ≠ 0x009)
    (hout : ¬ (0x400 + s.rxCount.toNat ≤ a.toNat ∧ a.toNat < 0x400 + min 260 (s.rxCount.toNat + min 1000 s.rxq.length)))
    (hpl : ¬ (0x600 ≤ a.toNat ∧ a.toNat < 0x600 + r.pl.length)) (hframe : ¬ (0x200 ≤ a.toNat ∧ a.toNat < 0x208)) :
    s.secondRead.memRead a = s.memRead a := by
  rw [State.secondRead_eq h hr]
  exact (State.memRead_exchangeEnd_of_start (h.receive_idleInv 1000).mem_wf ((s.receive_iphase 1000).trans hp) hok ha h8 h9 hpl
    hframe).trans (State.memRead_receive h.mem_wf h.rxCount_le 1000 (captureAddr_of_startAddr ha) hout)

/-- Settles O36: the two reads, each with its two outcomes and the frame of each outcome. -/
theorem timerStepLeavesTheCommandUnchanged : Obligations.TimerStepLeavesTheCommandUnchanged := by
  intro s t rest r hinv hev hstep hr
  have hi := hinv.withEvents rest
  rcases step_timerExpire_cases hev hstep with ⟨hs, rfl⟩ | ⟨hs, rfl⟩
  · have hout := State.firstRead_sameOutside { s with events := rest }
    have hnot2 : s.seq ≠ .wait2 := by rw [hs]; decide
    refine ⟨fun a ha => (State.firstRead_sameCommand hi).memRead ha, hout.cmdDropped, hout.rxOvf, hout.params, hout.events, hout.wire,
      hout.hostReads, fun _ hq a hres hE => State.memRead_firstRead_of_empty hi.mem_wf hq hres hE,
      fun _ hq a hc hE hcells => State.memRead_firstRead_of_bytes hi (by simp [hs]) hq hc hE hcells,
      fun h => absurd h hnot2, fun h => absurd h hnot2, fun _ => State.firstRead_keepsLatch hi⟩
  · have hout := State.secondRead_sameOutside { s with events := rest }
    have hnot1 : s.seq ≠ .wait1 := by rw [hs]; decide
    refine ⟨fun a ha => (State.secondRead_sameCommand hi).memRead ha, hout.cmdDropped, hout.rxOvf, hout.params, hout.events, hout.wire,
      hout.hostReads, fun h => absurd h hnot1, fun h => absurd h hnot1, ?_⟩
    by_cases hgo : s.iphase = .getInfo ∧ r.code = .ok
    · have htx : ({ s with events := rest } : State).secondRead.seq = .tx := by
        rw [State.secondRead_of_getInfo_ok (s := { s with events := rest }) hi hr hgo.1 hgo.2]
        rfl
      refine ⟨fun _ hidle => ?_, fun _ _ a ha h8 h9 hcells hpl hframe => ?_, fun h => absurd htx h⟩
      · cases htx.symm.trans hidle
      · exact State.memRead_secondRead_of_start (s := { s with events := rest }) hi hr hgo.1 hgo.2 ha h8 h9 hcells hpl hframe
    · have hc := State.secondRead_completes (s := { s with events := rest }) hi hr hgo
      refine ⟨fun _ _ a hcap hres hE hcells hpl => ?_, fun _ h => absurd hc.seq h, fun _ => ?_⟩
      · exact State.memRead_secondRead_of_end (s := { s with events := rest }) hi hr hgo hcap hres hE hcells hpl
      · rw [State.secondRead_eq (s := { s with events := rest }) hi hr, State.exchangeEnd_eq_endWith (by rwa [State.receive_iphase])]
        exact ⟨State.receive_txIdx _ _, State.receive_lat _ _⟩

/-! ### A whole exchange (R192 to R199) -/

/-- Every state of a run from a state that meets the invariant meets it. -/
theorem State.Inv.run {n : Nat} {s t : State} (h : s.Inv) (hrun : Host.Core.run Sys2Proof.core n s = .next t) : t.Inv := by
  induction n generalizing s with
  | zero =>
    cases hrun
    exact h
  | succ n ih =>
    cases hstep : Machine.step s with
    | next u =>
      rw [run_succ n hstep] at hrun
      exact ih (h.step hstep) hrun
    | fault f =>
      have hstep : Sys2Proof.core.step s = .fault f := hstep
      simp only [Host.Core.run, hstep] at hrun
      cases hrun
    | refused f =>
      have hstep : Sys2Proof.core.step s = .refused f := hstep
      simp only [Host.Core.run, hstep] at hrun
      cases hrun

/-- Bytes that fit join RXQ in the order of their delivery (20 R82). -/
theorem run_deliver {bytes : List Byte} {s : State} {rest : List Event} (hroom : s.rxq.length + bytes.length ≤ s.params.rxqDepth)
    (hev : s.events = bytes.map .devByte ++ rest) :
    Host.Core.run Sys2Proof.core bytes.length s = .next { s with events := rest, rxq := s.rxq ++ bytes } := by
  induction bytes generalizing s with
  | nil =>
    rw [List.append_nil, show rest = s.events from hev.symm]
    rfl
  | cons b bytes ih =>
    rw [List.length_cons] at hroom ⊢
    obtain ⟨hjoin, -⟩ := deliveredByteJoinsTheQueue s b _ hev
    have hrun := ih (s := { s with events := bytes.map .devByte ++ rest, rxq := s.rxq ++ [b] })
      (by simp only [List.length_append, List.length_singleton]; omega) rfl
    refine (run_succ _ (hjoin (by omega))).trans (hrun.trans ?_)
    simp only [List.append_assoc, List.singleton_append]

/-- Two reads in a row keep what one read of both lengths keeps (20 R83, R85). -/
theorem take_capture_append (l : List Byte) (a b n : Nat) : ((l.take a).take n ++ (l.drop a).take b).take n = (l.take (a + b)).take n := by
  rw [List.take_add, List.take_append, List.take_append, List.take_take, Nat.min_self, List.length_take]
  congr 2
  have : (List.take n (List.take a l)).length = min n (List.take a l).length := List.length_take
  omega

/-- The state from `s` in which an exchange waits for its reply, its frame sent (R196). -/
structure AwaitsReply (s t : State) (frame : List Byte) (lat : Latch) (rest : List Event) : Prop where
  inv : t.Inv
  seq : t.seq = .wait1
  iphase : t.iphase = .none
  lat : t.lat = lat
  rxq : t.rxq = []
  events : t.events = rest
  wire : t.wire = s.wire ++ frame
  params : t.params = s.params
  cfg : t.cfg = s.cfg
  devReady : t.devReady = s.devReady

/-- A catalog command and one LINK step per byte send its request frame (R193, R196). -/
theorem exec_catalog_transmits {s : State} {c : Catalog} {rest : List Event} (hinv : s.Inv) (hs : s.seq = .idle) (hq : s.rxq = [])
    (hshape : CommandShape c s.plen.toNat) (hev : s.events = List.replicate (7 + s.plen.toNat) .linkAccept ++ rest) :
    ∃ u t : State, exec c.instr s = .next u ∧ Host.Core.run Sys2Proof.core (7 + s.plen.toNat) u = .next t ∧
      AwaitsReply s t (requestFrame c.op0 c.op1 s.reqPayload)
        { op0 := c.op0, op1 := c.op1, chkEn := s.checkEn, chkVal := s.checkVal } rest := by
  obtain ⟨u, hx, hframe, hlen, hlat, -, hrxq, hidx, hseq, hphase, -⟩ := catalogCommandStartsItsExchange s c hinv.mem_wf hs hshape
  obtain ⟨-, hdev, -, -, -, hparams, hevents, hwire, -⟩ :=
    catalogStartLeavesTheRestUnchanged s u c c.instr hinv hs hshape (.inl rfl) hx
  have hcfg : u.cfg = s.cfg := by
    rw [exec_catalog_of_shape hs hshape] at hx
    injection hx with hx
    exact hx ▸ rfl
  have hu := hinv.exec hx
  have hsend := transmitPhaseSendsTheWholeFrame.2 u rest hu hseq (by rw [hevents, hev, hlen, hidx, Nat.sub_zero])
  rw [← State.requestFrame_reqPayload hshape.le] at hframe
  rw [hlen, hidx, hwire, hframe, Nat.sub_zero, List.drop_zero] at hsend
  refine ⟨u, _, hx, hsend, hu.run hsend, rfl, hphase, hlat, ?_, rfl, rfl, hparams, hcfg, hdev⟩
  rw [hq, ite_self] at hrxq
  exact hrxq

/-- EXECUTE of the command's opcode and one LINK step per byte send its request frame (R192). -/
theorem run_execute_transmits {s : State} {c : Catalog} {rest : List Event} (hinv : s.Inv) (hs : s.seq = .idle) (hq : s.rxq = [])
    (h0 : s.opc0 = c.op0) (h1 : s.opc1 = c.op1) (hshape : CommandShape c s.plen.toNat)
    (hev : s.events = .hostWrite 0x000 0x03 :: (List.replicate (7 + s.plen.toNat) .linkAccept ++ rest)) :
    ∃ t : State, Host.Core.run Sys2Proof.core (1 + (7 + s.plen.toNat)) s = .next t ∧
      AwaitsReply s t (requestFrame c.op0 c.op1 s.reqPayload)
        { op0 := c.op0, op1 := c.op1, chkEn := s.checkEn, chkVal := s.checkVal } rest := by
  have hi := hinv.withEvents (List.replicate (7 + s.plen.toNat) .linkAccept ++ rest)
  obtain ⟨u, t, hx, hrun, ht⟩ := exec_catalog_transmits hi hs hq hshape rfl
  have hstep : step s = .next u :=
    (stepRunsTheSelectedCatalogCommand s 0x03 _ c.instr hev (by decide) (by rw [h0, h1, decode_catalog])).trans hx
  rw [Nat.add_comm 1]
  exact ⟨t, (run_succ _ hstep).trans hrun, { ht with }⟩

/-- Two TIMER steps read the reply and complete with the decode of what they captured. The second read is taken at `u` (R197 to R199). -/
theorem run_two_reads {s : State} {rest : List Event} {r : DecodeResult} (h : s.Inv) (hs : s.seq = .wait1) (hp : s.iphase = .none)
    (hq : s.rxq ≠ []) (hev : s.events = .timerExpire :: .timerExpire :: rest)
    (hr : r = decodeResponse s.exchangeCtx ((s.rxq.take (s.params.read1Max + 1000)).take 260)) :
    ∃ u t : State, Host.Core.run Sys2Proof.core 2 s = .next t ∧ CompletesWith u t r ∧ u.rxq = s.rxq.drop s.params.read1Max ∧
      u.iphase = .none ∧ u.devReady = s.devReady ∧ t.wire = s.wire ∧ t.events = rest := by
  obtain ⟨-, hfirst⟩ := firstReadCapturesOrTimesOut s _ h hev hs
  obtain ⟨d, hstep, hseq, -, hrxq, hraw, -, -, hphase, hlat, hwire⟩ := hfirst hq
  have hd := h.step hstep
  have hread := step_timerExpire_of_wait1 h hev hs
  rw [hstep, State.firstRead_of_bytes (s := { s with events := .timerExpire :: rest }) (h.withEvents _) hq] at hread
  injection hread with hread
  have hcfg : d.cfg = s.cfg := hread ▸ State.receive_cfg _ _
  have hdev : d.devReady = s.devReady := hread ▸ State.receive_devReady _ _
  have hevents : d.events = .timerExpire :: rest := hread ▸ State.receive_events _ _
  have hctx : d.exchangeCtx = s.exchangeCtx := by
    rw [State.exchangeCtx, State.exchangeCtx, State.verifyCsum, State.verifyCsum, hlat, hcfg]
  rw [← take_capture_append, ← hraw, ← hrxq, ← hctx] at hr
  have hout := State.secondRead_sameOutside { d with events := rest }
  have hdone := State.secondRead_completes (s := { d with events := rest }) (hd.withEvents rest) hr (by simp [hphase, hp])
  exact ⟨_, _, (run_succ 1 hstep).trans (run_succ 0 (step_timerExpire_of_wait2 hd hevents hseq)), hdone, hrxq, hphase.trans hp, hdev,
    hout.wire.trans hwire, hout.events⟩

/-- Settles O59: the request is sent, the reply joins the empty RXQ, and the two reads complete with its decode. -/
theorem exchangeDecodesTheReplyItCaptured : Obligations.ExchangeDecodesTheReplyItCaptured := by
  intro s c reply rest r hinv hs hq h0 h1 hshape hne hfits hev hr
  obtain ⟨b, hsend, hb⟩ := run_execute_transmits hinv hs hq h0 h1 hshape hev
  have hdeliver := run_deliver (bytes := reply) (by rw [hb.rxq, hb.params]; simpa using hfits) hb.events
  rw [hb.rxq, List.nil_append] at hdeliver
  have hctx : r = decodeResponse b.exchangeCtx ((reply.take (b.params.read1Max + 1000)).take 260) := by
    rw [hr, State.exchangeCtx, State.verifyCsum, State.verifyCsum, hb.lat, hb.cfg, hb.params]
  obtain ⟨u, t, hreads, hc, hurxq, hphase, hdev, hwire, hevents⟩ :=
    run_two_reads (hb.inv.run hdeliver) hb.seq hb.iphase hne rfl hctx
  have hreply : Host.Core.run Sys2Proof.core (1 + (7 + s.plen.toNat) + reply.length) s = .next _ :=
    (run_add _ reply.length hsend).trans hdeliver
  refine ⟨t, (run_add _ 2 hreply).trans hreads, hwire.trans hb.wire, hc.resCode, hc.status, hc.plen, hc.csumOk, hc.payload, hc.done,
    hc.seq, ?_, ?_, hevents⟩
  · rw [hc.rxq, hurxq, List.drop_drop, ← hb.params]
  · rw [hc.devReady, if_neg (by simp [hphase]), hdev]
    exact hb.devReady

end Sys2Proof.Machine
end

section
/-! The exception chapter's laws (60_exceptions.md): which step raises DONE (R240), and what a decode must hold for NO_CARD to rise (R242).
The invariant says what the state after such a step looks like; what is left is to find the event. -/

namespace Sys2Proof.Machine

/-! ### Which events raise DONE and NO_CARD (R240) -/

/-- The step from `s` to `t` raises neither DONE nor NO_CARD. -/
structure RaisesNoResult (s t : State) : Prop where
  done : t.done = true → s.done = true
  noCard : t.noCard = true → s.noCard = true

theorem RaisesNoResult.of_eq {s t : State} (hd : t.done = s.done) (hn : t.noCard = s.noCard) : RaisesNoResult s t :=
  ⟨hd.symm.trans, hn.symm.trans⟩

/-- A HOST write outside CTRL may clear DONE and sets neither flag (10 R32). -/
theorem State.memWrite_raisesNoResult (s : State) (a : Addr) (v : Byte) : RaisesNoResult s (s.memWrite a v) := by
  rcases s.memWrite_cases a v with h | h | ⟨-, h | h | h | h | h | ⟨n, h⟩ | ⟨-, h⟩⟩ <;> rw [h]
  case inr.inl => exact ⟨fun hd => (Bool.and_eq_true_iff.1 hd).1, id⟩
  all_goals exact .of_eq rfl rfl

/-- A step raises neither flag, or it is an operation accepted with BUSY = 0, or one of the TIMER's two reads. -/
theorem step_result_cases {s t : State} (h : step s = .next t) :
    RaisesNoResult s t ∨
      ∃ rest, (∃ v, s.events = .hostWrite ctrlAddr v :: rest ∧ s.seq = .idle ∧
          OperationLeaves ({ s with events := rest } : State).accept t) ∨
        (s.events = .timerExpire :: rest ∧ s.seq = .wait1 ∧ t = ({ s with events := rest } : State).firstRead) ∨
        (s.events = .timerExpire :: rest ∧ s.seq = .wait2 ∧ t = ({ s with events := rest } : State).secondRead) := by
  rcases step_cases h with ⟨-, rfl⟩ | ⟨e, rest, hev, ⟨v, rfl, hx⟩ | ⟨a, v, -, -, rfl⟩ | ⟨a, -, rfl⟩ | ⟨b, -, rfl⟩ | ⟨-, -, rfl⟩ |
    ⟨rfl, -, hq, rfl⟩ | ⟨rfl, -, hq, rfl⟩ | ⟨-, rfl⟩⟩
  · exact .inl (.of_eq rfl rfl)
  · rcases exec_leaves hx with rfl | ⟨rfl, -⟩ | rfl | ⟨hs, ho⟩
    · exact .inl (.of_eq rfl rfl)
    · exact .inl ⟨by simp, by simp⟩
    · exact .inl (.of_eq rfl rfl)
    · exact .inr ⟨rest, .inl ⟨v, hev, hs, ho⟩⟩
  · exact .inl { State.memWrite_raisesNoResult { s with events := rest } a v with }
  · exact .inl (.of_eq rfl rfl)
  · exact .inl (.of_eq (State.deliver_done ..) (State.deliver_noCard ..))
  · exact .inl (.of_eq (State.txStep_done _) (State.txStep_noCard _))
  · exact .inr ⟨rest, .inr (.inl ⟨hev, hq, rfl⟩)⟩
  · exact .inr ⟨rest, .inr (.inr ⟨hev, hq, rfl⟩)⟩
  · exact .inl ⟨by simp, by simp⟩

/-- DONE = 1 means that nothing runs any more (10 R26). -/
theorem State.Inv.seq_of_done {s : State} (h : s.Inv) (hd : s.done = true) : s.seq = .idle := by
  by_contra hs
  exact Bool.false_ne_true ((h.busy_no_result hs).1.symm.trans hd)

/-- Settles O57: the invariant holds after the step, and there DONE = 1 fixes the rest of the completion. -/
theorem completionIsOneAtomicStep : Obligations.CompletionIsOneAtomicStep := by
  intro s t hinv h hnot hdone
  have ht := hinv.step h
  have hidle := ht.seq_of_done hdone
  have hirq : t.irq = t.irqEn := by rw [State.irq, hdone, Bool.true_and]
  refine ⟨ht.done_result hdone, hidle, ht.tmr_of_idle hidle, ht.iphase_of_idle hidle, hirq, ?_⟩
  rcases step_result_cases h with hkept | ⟨rest, ⟨v, hev, hs, -⟩ | ⟨hev, hs, -⟩ | ⟨hev, hs, -⟩⟩
  · exact absurd (hnot.symm.trans (hkept.done hdone)) Bool.false_ne_true
  · exact ⟨rest, .inl ⟨v, hev, hs⟩⟩
  · exact ⟨rest, .inr ⟨hev, by simp [hs]⟩⟩
  · exact ⟨rest, .inr ⟨hev, by simp [hs]⟩⟩

/-! ### The opcode of a decode that sets NO_CARD (R242) -/

/-- A completion with a decode sets NO_CARD for no opcode but 01 0C, and only with OK. -/
theorem State.opcode_of_finishDecoded_noCard {s : State} {code : ResCode} {op0 op1 : Byte}
    (h : (s.finishDecoded code op0 op1).noCard = true) : code = .ok ∧ op0 = 0x01 ∧ op1 = 0x0C := by
  rw [State.finishDecoded_noCard, noCardFlag_some] at h
  obtain ⟨hok, h0, h1, -⟩ := h
  exact ⟨hok, h0, h1⟩

/-- Of the operations that may complete at once only DECODE sets NO_CARD. -/
theorem OperationLeaves.opcode_of_noCard {u t : State} (h : OperationLeaves u t) (hn : t.noCard = true) :
    u.noCard = true ∨ (t.done = true ∧ u.opc0 = 0x01 ∧ u.opc1 = 0x0C) := by
  cases h with
  | completion code => exact absurd hn Bool.false_ne_true
  | encoded op0 op1 hp => exact absurd hn Bool.false_ne_true
  | decoded => exact .inr ⟨rfl, (State.opcode_of_finishDecoded_noCard hn).2⟩
  | exchange phase lat hp => exact .inl hn

theorem State.opcode_of_exchangeEnd_noCard {s : State} {r : DecodeResult} (hn : (s.exchangeEnd r).noCard = true) :
    s.noCard = true ∨ ((s.exchangeEnd r).done = true ∧ s.lat.op0 = 0x01 ∧ s.lat.op1 = 0x0C) := by
  rcases s.exchangeEnd_cases r with ⟨-, -, h⟩ | ⟨-, -, h⟩ | ⟨-, h⟩ <;> rw [h] at hn ⊢
  · exact .inl hn
  · exact .inr ⟨rfl, (State.opcode_of_finishDecoded_noCard hn).2⟩
  · exact .inr ⟨rfl, (State.opcode_of_finishDecoded_noCard hn).2⟩

/-- A TIMEOUT never sets NO_CARD (42 R197). -/
theorem State.noCard_of_firstRead_noCard {s : State} (hn : s.firstRead.noCard = true) : s.noCard = true := by
  rcases s.firstRead_leaves with h | h <;> rw [h] at hn
  · exact absurd (State.opcode_of_finishDecoded_noCard hn).1 (by decide)
  · exact (s.receive_noCard _).symm.trans hn

theorem State.opcode_of_secondRead_noCard {s : State} (hn : s.secondRead.noCard = true) :
    s.noCard = true ∨ (s.secondRead.done = true ∧ s.lat.op0 = 0x01 ∧ s.lat.op1 = 0x0C) := by
  simpa [State.secondRead] using State.opcode_of_exchangeEnd_noCard hn

/-- Settles O58: the invariant gives the result that NO_CARD stands for, and only DECODE and a second read can raise the flag. -/
theorem noCardIsSetOnlyByAZeroToken : Obligations.NoCardIsSetOnlyByAZeroToken := by
  intro s t hinv h hnot hset
  obtain ⟨hok, hplen, hcells⟩ := (hinv.step h).noCard_zero hset
  have hclear : s.noCard ≠ true := by simp [hnot]
  suffices hop : t.done = true ∧
      ((s.seq = .idle ∧ s.opc0 = 0x01 ∧ s.opc1 = 0x0C) ∨ (s.seq = .wait2 ∧ s.lat.op0 = 0x01 ∧ s.lat.op1 = 0x0C)) from
    ⟨hop.1, hok, hplen, hcells, hop.2⟩
  rcases step_result_cases h with hkept | ⟨rest, ⟨v, -, hs, ho⟩ | ⟨-, -, rfl⟩ | ⟨-, hs, rfl⟩⟩
  · exact absurd (hkept.noCard hset) hclear
  · rcases ho.opcode_of_noCard hset with hacc | ⟨hdone, hop⟩
    · exact absurd hacc Bool.false_ne_true
    · exact ⟨hdone, .inl ⟨hs, hop⟩⟩
  · exact absurd (State.noCard_of_firstRead_noCard hset) hclear
  · rcases State.opcode_of_secondRead_noCard hset with hkept | ⟨hdone, hop⟩
    · exact absurd hkept hclear
    · exact ⟨hdone, .inr ⟨hs, hop⟩⟩

end Sys2Proof.Machine
end

section
/-! The reset chapter's law (70_reset_and_hazards.md): the cold reset as a step (R260, R261). -/

namespace Sys2Proof.Machine

/-- Whatever the block is doing, the cold reset is taken: the step is the power-on state over what is left of the schedule. -/
theorem step_coldReset {s : State} {rest : List Event} (h : s.events = .coldReset :: rest) :
    step s = .next ({ s with events := rest } : State).powerOn :=
  step_agent h rfl

/-- Settles O15: the power-on state copies the parameters and the agents' side, and takes every other field from the reset state. -/
theorem coldResetRestoresEveryPiece : Obligations.ColdResetRestoresEveryPiece := by
  intro s rest h
  rw [step_coldReset h, State.powerOn]

end Sys2Proof.Machine
end
